-- ==== Sys2Proof/Word.lean ====
section
/-! DEFINITION. The plain data the rest is written in: bytes, byte sequences (R11), 32-bit hash words (R12) and the
three bytes of a block header (R31, R94). -/

namespace Sys2Proof

/-- One byte of a stream or a buffer (R10). -/
abbrev Byte := BitVec 8

/-- A byte sequence, first byte first (R9, R11). -/
abbrev Bytes := List Byte

/-- A 32-bit unsigned value: a hash lane (R12) or a host register (R28). -/
abbrev Word32 := BitVec 32

/-- The three bytes of a block header in stream order, `b0 b1 b2` of R94. -/
structure HdrBytes where
  b0 : Byte
  b1 : Byte
  b2 : Byte
  deriving DecidableEq, Repr

end Sys2Proof
end

