-- ==== Sys2Proof/Config.lean ====
section
/-! DEFINITION. What the spec leaves to the implementation or the environment (R7): the constants the source fixes
(R6), `COUNT_BITS` (D9), the open parameters `maxCompressed`, `ENT` and `SnkFail` as one record that nothing in Lean
can look into, the host-side map `exitCode` (R259), the platform's `CSR_BASE` (R73), `HASH` with the interface of
R149; and the free values: `H.MEM` after `H_INIT` (R142), both buffers at the start of a frame (R44), and INSIZE where
a smaller BLKSIZE would leave it out of range (R45). One more, `H.MEM` beyond H.MEMSIZE after `H_UPDATE` (U17), stands
beside the registers it depends on, in Machine/Checksum.lean. -/

namespace Sys2Proof

/-! ## Constants of R6 -/

/-- `MAGIC` (R6). -/
def MAGIC : Word32 := 0x183E2308#32
/-- `MAX_BSID` (R6). -/
def MAX_BSID : Nat := 11
/-- `DEFAULT_BSID` (R6): the reset value of `CFG.BSID`. -/
def DEFAULT_BSID : BitVec 4 := 5#4
/-- `MAX_BLKSIZE` (R6): 2 MiB, the built size of RAWBUF (R44). -/
def MAX_BLKSIZE : Nat := 2097152
/-- The first value that does not fit the 22-bit field, `LEN_MAX + 1` (R6). -/
def FIELD_LIMIT : Nat := 4194304

/-! ## Errors (R250 to R252) -/

/-- `ERR.CLASS` (R251). `overwriteRefused` and `allocationError` have codes and are never raised (R258). -/
inductive ErrClass where
  | none | ioError | formatError | decoderError | encoderError | checksumError | overwriteRefused | allocationError
  deriving DecidableEq, Repr

/-- `ERR.SITE` (R252): one name per `raise` line of the arms, and `none`. -/
inductive ErrSite where
  | none
  | eWrFrameHdr | eCompress | eBound | eWrRaw | eWrRle | eWrComp | eWrTrailer
  | dRdFrameHdr | dMagic | dReserved | dBsid | dRdBlkHdr | dLenRaw | dLenRle | dLenComp
  | dRdRaw | dRdRle | dRdComp | dDecomp | dRSize | dWrRaw | dWrRle | dWrComp | dChecksum
  deriving DecidableEq, Repr

/-! ## The entropy primitive's answers (R231, R232) -/

/-- `CRes`: the four answers to `EntCompress` (R231). -/
inductive CRes where
  /-- Return code 0: send the block raw. -/
  | code0
  /-- Return code 1: the block is one repeated byte. -/
  | code1
  /-- A return code above 1: the bytes written, whose number is the code. -/
  | size (body : Bytes)
  /-- The error sentinel; its numeric form `e` is not given by the spec and is never looked at (D36). -/
  | err (e : Nat)
  deriving DecidableEq, Repr

/-- `DRes`: the two answers to `EntDecompress` (R232). -/
inductive DRes where
  /-- The decoded bytes, whose number is the decoded length. -/
  | len (q : Bytes)
  /-- The error sentinel. -/
  | err (e : Nat)
  deriving DecidableEq, Repr

/-- `isError(code)` of R236 for a compress answer. -/
def CRes.isError : CRes → Bool
  | .err _ => true
  | _ => false

/-- `isError(code)` of R236 for a decompress answer. -/
def DRes.isError : DRes → Bool
  | .err _ => true
  | _ => false

/-! ## The checksum's interface (R149) -/

/-- `HASH` of R149 over the state type `HS` it supplies: three functions, the chunking law, and what the rules say of
an update of no bytes and of the state `H_INIT` leaves. -/
structure HashUnit (HS : Type) where
  /-- `h_init`. -/
  init : HS
  /-- `h_update`. -/
  update : HS → Bytes → HS
  /-- `h_final`. -/
  final : HS → Word32
  /-- The chunking law (R149): `h_update(h_update(h, a), b)` and `h_update(h, a ++ b)` have the same `h_final` after
  any further updates. -/
  chunking : ∀ (h : HS) (a b : Bytes) (further : List Bytes),
    final (further.foldl update (update (update h a) b)) = final (further.foldl update (update h (a ++ b)))
  /-- An update of no bytes does not show in `h_final`: the checksum of an empty payload, which no update absorbs, is
  `CK22(hash([]))` (R149, R144, R143). DEDUCED: log entry 9. -/
  emptyUpdate : ∀ h : HS, final (update h []) = final h
  /-- What the n-th `H_INIT` leaves in the registers: `h_init`, and where an instance leaves part of them unspecified
  (`H.MEM` of R142) a free value there. Log entry 5. -/
  fresh : Nat → HS := fun _ => init
  /-- What is unspecified after `H_INIT` does not show: `hash(s)` is well defined (R149). -/
  freshHash : ∀ n s, final (update (fresh n) s) = final (update init s) := by intros; rfl

/-- `hash(s) = h_final(h_update(h_init, s))` (R149). -/
def HashUnit.hash {HS : Type} (u : HashUnit HS) (s : Bytes) : Word32 := u.final (u.update u.init s)

/-! ## The open parameters (R7, R20) -/

/-- What the environment's sink draw may look at: `history` of R63, as the number of SnkWrite requests made before
and the bytes accepted so far. DESIGN CHOICE, safe: log entry 6. -/
structure SnkHistory where
  requests : Nat
  accepted : Bytes
  deriving DecidableEq, Repr

/-- The open parameters of the step relation (R7, R20, R237) with the only properties the rules give them: MC1 to
MC3 of R8, the answer form of R231 and `0 <= k <= |s|` of R63. None of the named premises of R235 is here.
The field defaults serve one purpose: Lean asks for some inhabitant before it lets `Config.openParams` be opaque (they
are the non-binding example of R8 and three constant answers). Nothing about `Config.openParams` follows from them. -/
structure OpenParams where
  /-- `maxCompressed` (R8, R234). -/
  maxCompressed : Nat → Nat := fun n => 512 + n + n / 128
  /-- MC1 of R8. -/
  mc1 : ∀ n, 1 ≤ n → n ≤ 2097152 → n ≤ maxCompressed n := by intro n _ _; omega
  /-- MC2 of R8. -/
  mc2 : ∀ m n, m ≤ n → maxCompressed m ≤ maxCompressed n := by intro m n h; omega
  /-- MC3 of R8. -/
  mc3 : maxCompressed 2097152 < 4194304 := by decide
  /-- `EntCompress` (R231), a pure total function (R237). -/
  entCompress : Bytes → CRes := fun _ => .code0
  /-- A `Size` answer has at least two bytes (R231). -/
  entSize : ∀ q body, entCompress q = .size body → 2 ≤ body.length := by
    intro q body h; exact absurd h (by simp)
  /-- `EntDecompress` (R232), a pure total function (R237). -/
  entDecompress : Nat → Bytes → DRes := fun _ _ => .err 0
  /-- `SnkFail` (R63, R64): how many bytes of a request the sink accepts. -/
  snkFail : SnkHistory → Bytes → Nat := fun _ s => s.length
  /-- `0 <= k <= |s|` (R63). -/
  snkFailLe : ∀ hist s, snkFail hist s ≤ s.length := by intro _ s; exact Nat.le_refl _
  deriving Inhabited

/-- The parameters of the step relation (R20): the open ones, and the two that are decided but kept as configuration
(92_eei_decisions.md): `HASH` (R7, R140), a field, over its state type `HS`, and `COUNT_BITS` (R7, D9), the width of
IN_COUNT, OUT_COUNT and H.TOTAL, which is an argument of the type as `HS` is, since the state's registers depend on
both. -/
structure Params (HS : Type) (countBits : Nat) extends OpenParams where
  /-- `HASH` (R149). -/
  hash : HashUnit HS
  /-- What the accumulator holds at reset, which R50 leaves unspecified. DESIGN CHOICE: log entry 3. -/
  hashReset : HS

/-- `COUNT_BITS` of this machine (R7, D9): the width of IN_COUNT and OUT_COUNT (R25, R26) and of H.TOTAL (R33). -/
abbrev Config.countBits : Nat := 64

/-- The open parameters of this machine: some `OpenParams`, of which nothing more can be proved. DESIGN CHOICE: log
entry 6. -/
opaque Config.openParams : OpenParams

/-- Free value: what `H.MEM` holds after the n-th `H_INIT` (R142 "H.MEM unspecified"). DESIGN CHOICE: log entry 5. -/
opaque Config.freeHashMem : Nat → Vector Byte 16

/-- Free value: what RAWBUF holds at the start of a frame (R44 "unspecified"), as many of these bytes as it has
room for and 00 after them. DESIGN CHOICE: log entry 4. -/
opaque Config.freeRawBuf : Nat → Bytes

/-- Free value: the same for CBUF. DESIGN CHOICE: log entry 4. -/
opaque Config.freeCBuf : Nat → Bytes

/-- Free value: INSIZE after a frame header whose block size is below it, before it is reduced to 0..BLKSIZE (R32,
R45). DESIGN CHOICE: log entry 12. -/
opaque Config.freeInSize : Nat → Nat

/-- The host-side map of R259 with its range constraints. It takes part in no step. The field defaults only show
that such a map exists. -/
structure ExitCodes where
  code : ErrSite → Nat := fun s =>
    match s with
    | .eWrFrameHdr | .eWrRaw | .eWrRle | .eWrComp | .eWrTrailer => 22
    | _ => 30
  encoderWrites : ∀ s ∈ [ErrSite.eWrFrameHdr, .eWrRaw, .eWrRle, .eWrComp, .eWrTrailer],
    22 ≤ code s ∧ code s ≤ 28 := by decide
  decoderSites : ∀ s ∈ [ErrSite.dRdFrameHdr, .dMagic, .dReserved, .dBsid, .dRdBlkHdr, .dLenRaw, .dLenRle,
      .dLenComp, .dRdRaw, .dRdRle, .dRdComp, .dDecomp, .dRSize, .dWrRaw, .dWrRle, .dWrComp, .dChecksum],
    30 ≤ code s ∧ code s ≤ 42 := by decide
  deriving Inhabited

/-- `exitCode` (R7, R259), OPEN. DESIGN CHOICE: log entry 10. -/
opaque Config.exitCode : ExitCodes

/-- `CSR_BASE` (R7, R73), OPEN: the platform's address of register 0; registers are numbered, not addressed. -/
opaque Config.csrBase : Nat

end Sys2Proof
end

