-- ==== Sys2Proof/Syntax.lean ====
section
/-! DEFINITION. The instructions: one constructor per row of spec/opcode_table.json (R90). The five wire records
are what the decoder dispatches on; the four host commands are the values of `CMD.OP`. Fixed bits (the magic, the
reserved descriptor bits, the type tag, the command code) and ignored bits are no operands. -/

namespace Sys2Proof

inductive Instr where
  /-- FRAME, format FH (R92, R181): the operand is descriptor bits 3..0. -/
  | frame (bsid : BitVec 4)
  /-- COMP, format BH type 0 (R97, R187): the operand is the body length. -/
  | comp (len : BitVec 22)
  /-- RAW, format BH type 1 (R97, R185): the operand is the body length. -/
  | raw (len : BitVec 22)
  /-- RLE, format BH type 2 (R97, R186): the operand is the decompressed length. -/
  | rle (len : BitVec 22)
  /-- CRC, format BH type 3 (R97, R184): the operand is the stored checksum. -/
  | crc (ck : BitVec 22)
  /-- NOP, `CMD.OP = 0` (R213). -/
  | nop
  /-- ENCODE, `CMD.OP = 1` (R214). -/
  | encode
  /-- DECODE, `CMD.OP = 2` (R215). -/
  | decode
  /-- CLEAR, `CMD.OP = 3` (R216). -/
  | clear
  deriving DecidableEq, Repr

end Sys2Proof
end

