-- ==== Sys2Proof/WellFormed.lean ====
section
/-! DEFINITION. Which instructions an encoding can carry: the only restriction the operand widths do not already
make is the range condition of format FH, `blockSizeId <= 11` (R92, R93). -/

namespace Sys2Proof

/-- The instruction has a legal encoding (R92, R94, R103). -/
def Instr.wellFormed : Instr → Bool
  | .frame bsid => decide (bsid.toNat ≤ 11)
  | .comp _ => true
  | .raw _ => true
  | .rle _ => true
  | .crc _ => true
  | .nop => true
  | .encode => true
  | .decode => true
  | .clear => true

end Sys2Proof
end

