-- ==== Sys2Proof/Decode.lean ====
section
/-! DEFINITION. The bit-packer (R120 to R127), the byte-order helpers it and the checksum use (R11, R69), the
decoder of the three formats FH, BH and CMD (R92, R94, R103), total and rejecting by name, and after it the encoder. -/

namespace Sys2Proof

/-! ## Byte helpers (R11) -/

/-- `s[i]`; a rule never asks for an index at or past `|s|`. -/
def byteAt (s : Bytes) (i : Nat) : Byte := s.getD i 0#8

/-- `LE32(w)` (R11). -/
def le32 (w : Word32) : Bytes :=
  [w.extractLsb' 0 8, w.extractLsb' 8 8, w.extractLsb' 16 8, w.extractLsb' 24 8]

/-- `rdLE32(s, i)` (R11). -/
def rdLE32 (s : Bytes) (i : Nat) : Word32 :=
  byteAt s (i + 3) ++ byteAt s (i + 2) ++ byteAt s (i + 1) ++ byteAt s i

/-- `rep(b, n)` (R11). -/
def rep (b : Byte) (n : Nat) : Bytes := List.replicate n b

/-! ## The bit-packer (R120 to R127) -/

/-- `PACK_MAGIC` (R120). -/
def packMagic : Bytes := le32 MAGIC

/-- `CHECK_MAGIC` (R121): a compare of all 32 bits. -/
def checkMagic (b : Bytes) : Bool := rdLE32 b 0 == MAGIC

/-- `PACK_DESC` (R122): bits 7..4 are zero. Its precondition `id <= 11` (U23) is the caller's: log entry 14. -/
def packDesc (id : BitVec 4) : Byte := 0#4 ++ id

/-- The verdicts of `UNPACK_DESC` (R123). -/
inductive DescVerdict where
  | ok (id : BitVec 4)
  | badReserved
  | badId
  deriving DecidableEq, Repr

/-- `UNPACK_DESC` (R123): the reserved bits are tested first. -/
def unpackDesc (d : Byte) : DescVerdict :=
  if d.extractLsb' 4 4 ≠ 0#4 then .badReserved
  else if MAX_BSID < (d.extractLsb' 0 4).toNat then .badId
  else .ok (d.extractLsb' 0 4)

/-- `PACK_HDR` (R124, R94): byte 0 bits 7..6 are the type and bits 5..0 are field bits 21..16. -/
def packHdr (tag : BitVec 2) (field : BitVec 22) : HdrBytes where
  b0 := tag ++ field.extractLsb' 16 6
  b1 := field.extractLsb' 8 8
  b2 := field.extractLsb' 0 8

/-- `UNPACK_HDR` (R125, R94). -/
def unpackHdr (h : HdrBytes) : BitVec 2 × BitVec 22 :=
  (h.b0.extractLsb' 6 2, h.b0.extractLsb' 0 6 ++ h.b1 ++ h.b2)

/-- The header as three stream bytes. -/
def HdrBytes.toBytes (h : HdrBytes) : Bytes := [h.b0, h.b1, h.b2]

/-- The first three stream bytes as a header. -/
def hdrOfBytes (b : Bytes) : HdrBytes := ⟨byteAt b 0, byteAt b 1, byteAt b 2⟩

/-- `PACK_FRAMEHDR` (R127). -/
def packFrameHdr (id : BitVec 4) : Bytes := packMagic ++ [packDesc id]

/-- `PACK_TRAILER` (R127). -/
def packTrailer (ck : BitVec 22) : Bytes := (packHdr 3#2 ck).toBytes

/-! ## Decoding -/

/-- Why a code is no instruction (R101). -/
inductive DecodeErr where
  /-- Fewer bytes than the format has. -/
  | short
  /-- The first four bytes are not the magic. -/
  | badMagic
  /-- Descriptor bits 7..4 are not zero. -/
  | badReserved
  /-- Descriptor bits 3..0 are above 11. -/
  | badId
  deriving DecidableEq, Repr

/-- Something with a bit pattern (R90): stream bytes where a frame header is due, stream bytes where a block header
is due, or a value written to `CMD`. -/
inductive Code where
  | fh (b : Bytes)
  | bh (b : Bytes)
  | cmd (v : Word32)
  deriving DecidableEq, Repr

/-- Format FH (R92, R101), and the bytes after it; the order of the tests is that of R181. -/
def decodeFH (b : Bytes) : Except DecodeErr (Instr × Bytes) :=
  if b.length < 5 then .error .short
  else if checkMagic b = false then .error .badMagic
  else match unpackDesc (byteAt b 4) with
    | .badReserved => .error .badReserved
    | .badId => .error .badId
    | .ok id => .ok (.frame id, b.drop 5)

/-- The record a type tag and a field stand for (R97); all four tags are defined (R101). -/
def recordOf (tag : BitVec 2) (field : BitVec 22) : Instr :=
  if tag = 0#2 then .comp field
  else if tag = 1#2 then .raw field
  else if tag = 2#2 then .rle field
  else .crc field

/-- Format BH on the header register (R94, R125): total. -/
def decodeHdr (h : HdrBytes) : Instr := recordOf (unpackHdr h).1 (unpackHdr h).2

/-- Format BH on a stream, and the bytes after the header (R94, R98). -/
def decodeBH (b : Bytes) : Except DecodeErr (Instr × Bytes) :=
  if b.length < 3 then .error .short
  else .ok (decodeHdr (hdrOfBytes b), b.drop 3)

/-- Format CMD (R103): bits 31..2 are ignored; total. -/
def decodeCmd (v : Word32) : Instr :=
  if v.extractLsb' 0 2 = 0#2 then .nop
  else if v.extractLsb' 0 2 = 1#2 then .encode
  else if v.extractLsb' 0 2 = 2#2 then .decode
  else .clear

/-- The decoder: the instruction and the bytes after it, or the reason there is none. -/
def decode : Code → Except DecodeErr (Instr × Bytes)
  | .fh b => decodeFH b
  | .bh b => decodeBH b
  | .cmd v => .ok (decodeCmd v, [])

/-! ## Encoding -/

/-- The code of a well-formed instruction (R92, R94, R103); the ignored bits of a command are written as zero. -/
def encode : Instr → Code
  | .frame bsid => .fh (packFrameHdr bsid)
  | .comp len => .bh (packHdr 0#2 len).toBytes
  | .raw len => .bh (packHdr 1#2 len).toBytes
  | .rle len => .bh (packHdr 2#2 len).toBytes
  | .crc ck => .bh (packTrailer ck)
  | .nop => .cmd 0#32
  | .encode => .cmd 1#32
  | .decode => .cmd 2#32
  | .clear => .cmd 3#32

/-! ## The opcode table's numbering -/

/-- The table's 40-bit word as the five stream bytes, b0 most significant (R92). -/
def frameWordBytes (w : Nat) : Bytes :=
  [BitVec.ofNat 8 (w / 4294967296), BitVec.ofNat 8 (w / 16777216), BitVec.ofNat 8 (w / 65536),
   BitVec.ofNat 8 (w / 256), BitVec.ofNat 8 w]

/-- The table's 24-bit word as the three stream bytes, b0 most significant (R94). -/
def blockWordBytes (w : Nat) : Bytes :=
  [BitVec.ofNat 8 (w / 65536), BitVec.ofNat 8 (w / 256), BitVec.ofNat 8 w]

/-- The code a word of spec/opcode_table.json stands for: its width says the format (40 FH, 24 BH, 32 CMD). -/
def tableCode (nbits w : Nat) : Option Code :=
  if nbits = 40 then some (.fh (frameWordBytes w))
  else if nbits = 24 then some (.bh (blockWordBytes w))
  else if nbits = 32 then some (.cmd (BitVec.ofNat 32 w))
  else none

/-- The instruction the decoder reads from a word numbered as spec/opcode_table.json numbers it: one number per row,
bit 0 its least significant bit, for a record the LAST stream byte's bit 0 (R92, R94). -/
def decodeTableWord (nbits w : Nat) : Option Instr :=
  match tableCode nbits w with
  | none => none
  | some c =>
    match decode c with
    | .ok (i, _) => some i
    | .error _ => none

end Sys2Proof
end

