-- ==== Sys2Proof/Machine/Checksum.lean ====
section
/-! DEFINITION. The checksum accumulator of the decided instance, XXH32 with seed 0: its registers (R33) and operations
(R141 to R145), and the 22-bit reduction (R146). Lane arithmetic wraps at 32 bits (R12, R147). -/

namespace Sys2Proof.Machine

variable {cb : Nat}

/-! ## Registers (R33) -/

/-- The accumulator registers (R33); `H.TOTAL` is as wide as the counters (D9). -/
structure HashRegs (countBits : Nat) where
  v1 : Word32
  v2 : Word32
  v3 : Word32
  v4 : Word32
  total : BitVec countBits
  mem : Vector Byte 16
  memSize : BitVec 4
  deriving DecidableEq, Repr

/-- The accumulator at reset: unspecified by R50. DESIGN CHOICE all zero, unsafe: log entry 3. -/
def HashRegs.reset : HashRegs cb where
  v1 := 0#32
  v2 := 0#32
  v3 := 0#32
  v4 := 0#32
  total := 0#cb
  mem := Vector.replicate 16 0#8
  memSize := 0#4

/-! ## Constants (R141) -/

def xxhP1 : Word32 := 0x9E3779B1#32
def xxhP2 : Word32 := 0x85EBCA77#32
def xxhP3 : Word32 := 0xC2B2AE3D#32
def xxhP4 : Word32 := 0x27D4EB2F#32
def xxhP5 : Word32 := 0x165667B1#32
def xxhSeed : Word32 := 0#32

/-- `rotl32` (R12), used with the constants 1, 7, 11, 12, 13, 17, 18 only (R147). -/
def rotl32 (x : Word32) (r : Nat) : Word32 := (x <<< r) ||| (x >>> (32 - r))

/-- `round(acc, lane)` (R141). Here and below a constant is the left factor of a product; 32-bit products commute. -/
def xxhRound (acc lane : Word32) : Word32 := xxhP1 * rotl32 (acc + xxhP2 * lane) 13

/-! ## H_INIT (R142) -/

/-- `H_INIT`, with the four lane values as R142 writes them out (`SEED +32 P1 +32 P2`, `SEED +32 P2`, `SEED`,
`SEED -32 P1`). `junk` is what `H.MEM` then holds, which R142 leaves unspecified (log entry 5). -/
def xxhInit (junk : Vector Byte 16) : HashRegs cb where
  v1 := 0x24234428#32
  v2 := 0x85EBCA77#32
  v3 := 0x00000000#32
  v4 := 0x61C8864F#32
  total := 0#cb
  mem := junk
  memSize := 0#4

/-! ## H_UPDATE (R143) -/

end Sys2Proof.Machine

namespace Sys2Proof

/-- Free value: what `H.MEM` holds after an `H_UPDATE` of `s` from `h`, of which only the bytes at and beyond H.MEMSIZE
remain (U17 "any value"). DESIGN CHOICE, safe: log entry 5. -/
opaque Config.freeHashTail {cb : Nat} (h : Machine.HashRegs cb) (s : Bytes) : Vector Byte 16

end Sys2Proof

namespace Sys2Proof.Machine

variable {cb : Nat}

/-- The valid bytes `H.MEM[0..H.MEMSIZE]` (R33). -/
def memValid (h : HashRegs cb) : Bytes := h.mem.toList.take h.memSize.toNat

/-- One 16-byte stripe, the first 16 bytes of `buf`, folded into the lanes (R143). -/
def xxhStripe (h : HashRegs cb) (buf : Bytes) : HashRegs cb :=
  { h with
      v1 := xxhRound h.v1 (rdLE32 buf 0)
      v2 := xxhRound h.v2 (rdLE32 buf 4)
      v3 := xxhRound h.v3 (rdLE32 buf 8)
      v4 := xxhRound h.v4 (rdLE32 buf 12) }

/-- The loop of R143 over at most `n` stripes: while at least 16 bytes are left, fold a stripe; the registers and
the bytes left over. -/
def xxhStripes : Nat → HashRegs cb → Bytes → HashRegs cb × Bytes
  | 0, h, buf => (h, buf)
  | n + 1, h, buf => if (buf.drop 15).isEmpty then (h, buf) else xxhStripes n (xxhStripe h buf) (buf.drop 16)

/-- `m[0..|bs|] <- bs`: the bytes of `bs`, then those of `m` behind them. -/
def memPut (m : Vector Byte 16) (bs : Bytes) : Vector Byte 16 :=
  ⟨((bs ++ m.toList.drop bs.length).take 16).toArray, by simp; omega⟩

/-- `H.MEM` after `H_UPDATE(s)` that leaves `rest` staged: those bytes first (R143). The bytes at and beyond H.MEMSIZE
hold "any value" (U17), a free value; an update of no bytes "changes nothing" (R143). DESIGN CHOICE, safe: log entry
5. -/
def stagedMem (h : HashRegs cb) (s rest : Bytes) : Vector Byte 16 :=
  if s.isEmpty then h.mem else memPut (Config.freeHashTail h s) rest

/-- `H_UPDATE(s)` (R143): pending bytes first, then the new ones; whole stripes folded, the rest staged. Every
stripe takes 16 bytes, so as many as `buf` has bytes are never all used. -/
def xxhUpdate (h : HashRegs cb) (s : Bytes) : HashRegs cb :=
  let buf := memValid h ++ s
  let r := xxhStripes buf.length h buf
  { r.1 with
      total := h.total + BitVec.ofNat cb s.length
      mem := stagedMem h s r.2
      memSize := BitVec.ofNat 4 r.2.length }

/-! ## H_FINAL (R145) -/

/-- The first branch of R145: lanes merged, or the seed constant below 16 bytes. -/
def xxhMerge (h : HashRegs cb) : Word32 :=
  if 16 ≤ h.total.toNat then rotl32 h.v1 1 + rotl32 h.v2 7 + rotl32 h.v3 12 + rotl32 h.v4 18
  else xxhSeed + xxhP5

/-- One 4-byte tail step (R145). -/
def xxhTail4 (acc lane : Word32) : Word32 := xxhP4 * rotl32 (acc + xxhP3 * lane) 17

/-- One 1-byte tail step (R145). -/
def xxhTail1 (acc : Word32) (b : Byte) : Word32 := xxhP1 * rotl32 (acc + xxhP5 * b.setWidth 32) 11

/-- The 4-byte loop of R145 over at most `n` words: while at least 4 bytes are left; the value and the bytes left. -/
def xxhTailWords : Nat → Word32 → Bytes → Word32 × Bytes
  | 0, acc, m => (acc, m)
  | n + 1, acc, m => if (m.drop 3).isEmpty then (acc, m) else xxhTailWords n (xxhTail4 acc (rdLE32 m 0)) (m.drop 4)

/-- The tail: whole words first, then the bytes left over (R145). -/
def xxhTail (acc : Word32) (m : Bytes) : Word32 :=
  (xxhTailWords m.length acc m).2.foldl xxhTail1 (xxhTailWords m.length acc m).1

/-- The avalanche (R145). -/
def xxhAvalanche (x : Word32) : Word32 :=
  let a := xxhP2 * (x ^^^ (x >>> 15))
  let b := xxhP3 * (a ^^^ (a >>> 13))
  b ^^^ (b >>> 16)

/-- `H_FINAL` (R145). -/
def xxhFinal (h : HashRegs cb) : Word32 :=
  xxhAvalanche (xxhTail (xxhMerge h + h.total.setWidth 32) (memValid h))

/-! ## The reduction (R146) -/

/-- `CK22` (R146): bits 26..5. -/
def ck22 (h : Word32) : BitVec 22 := h.extractLsb' 5 22

end Sys2Proof.Machine
end

