-- ==== Sys2Proof/Machine/State.lean ====
section
/-! DEFINITION. The state of the block and of its environment (R20), the reasons a step can stop, and the state
after reset (R50, R291). -/

namespace Sys2Proof.Machine

/-- `STATUS.PHASE` (R23). -/
inductive Phase where
  | idle | busy | done | error
  deriving DecidableEq, Repr

/-- `STATUS.MODE` (R23). -/
inductive Mode where
  | enc | dec
  deriving DecidableEq, Repr

/-- `FSM` (R29): the arm the CODEC stands at. -/
inductive Fsm where
  | none
  | eHeader | eRead | eCompress | eEmit | eTrailer
  | dFrameHdr | dAwaitHdr | dDispatch | dReadBody | dSynth | dEntropy | dEmit | dVerify
  deriving DecidableEq, Repr

/-- `PAYSEL` (R32): which buffer holds the decoder's payload. -/
inductive PaySel where
  | r | c
  deriving DecidableEq, Repr

/-- A buffer's contents as (index, byte) pairs (R44, R67); an index that is not listed reads as 00 (log entry 4). -/
abbrev Memory := List Host.Cell

/-- One thing the HOST does (R16, R210, R211, R290, R292). DESIGN CHOICE, safe: log entry 1. -/
inductive HostOp where
  /-- The HOST lets the CODEC move: one arm if the phase is BUSY, else nothing. -/
  | run
  /-- `CSR_READ(n)` (R210). -/
  | csrRead (n : Word32)
  /-- `CSR_WRITE(n, v)` (R211). -/
  | csrWrite (n v : Word32)
  /-- The event `RESET` (R290). -/
  | reset
  /-- The HOST connects a source holding `src` and a sink already holding `snk` (R66, R292 step 1). -/
  | connect (src snk : Bytes)
  deriving DecidableEq, Repr

/-- All the spec gives the machine (R20), its environment, and four fields of the model's own at the end, over the
width `COUNT_BITS` of the counters (R7, D9) and the state type `HS` that `HASH` supplies: "a model that keeps HASH
abstract replaces these seven registers by one register H of the abstract hash-state type" (R33). -/
structure State.Of (HS : Type) (countBits : Nat) where
  /-- `CFG.BSID` (R21). -/
  cfgBsid : BitVec 4
  /-- `STATUS.PHASE` (R23). -/
  phase : Phase
  /-- `STATUS.MODE` (R23). -/
  mode : Mode
  /-- `ERR.CLASS` (R24). -/
  errClass : ErrClass
  /-- `ERR.SITE` (R24). -/
  errSite : ErrSite
  /-- `IN_COUNT` (R25). -/
  inCount : BitVec countBits
  /-- `OUT_COUNT` (R26). -/
  outCount : BitVec countBits
  /-- `CK_STORED` (R27). -/
  ckStored : BitVec 22
  /-- `CK_CALC` (R27). -/
  ckCalc : BitVec 22
  /-- `FSM` (R29). -/
  fsm : Fsm
  /-- `BSID_F` (R30), read as FRAME_BSID. -/
  bsidF : BitVec 4
  /-- `BLKSIZE` (R30). -/
  blkSize : BitVec 22
  /-- `HDR` (R31). -/
  hdr : HdrBytes
  /-- `TYPE` (R31). -/
  typeTag : BitVec 2
  /-- `LEN` (R31). -/
  len : BitVec 22
  /-- `INSIZE` (R32). -/
  inSize : BitVec 22
  /-- `CSIZE` (R32). -/
  cSize : BitVec 22
  /-- `RSIZE` (R32). -/
  rSize : BitVec 22
  /-- `RLEBYTE` (R32). -/
  rleByte : Byte
  /-- `PAYSEL` (R32). -/
  paySel : PaySel
  /-- `H` (R33). -/
  h : HS
  /-- `RAWBUF` (R44). -/
  rawBuf : Memory
  /-- `CBUF` (R44). -/
  cBuf : Memory
  /-- `SRC.rest` (R20, R61): the environment's. -/
  srcRest : Bytes
  /-- `SNK.data` (R20, R63): the environment's. -/
  snkData : Bytes
  /-- What the HOST does next, oldest first (R16). The model's own: log entry 1. -/
  hostIn : List HostOp
  /-- The value the HOST got from its last `CSR_READ` (R210). The model's own: log entry 1. -/
  hostData : Word32
  /-- How many SnkWrite requests were made. The model's own: log entry 6. -/
  snkReqs : Nat
  /-- Index of the next free value (log entries 4 and 5). The model's own. -/
  freeCtr : Nat
  deriving DecidableEq, Repr

/-- The state of the machine, whose `HASH` and `COUNT_BITS` are decided (R140, D9): the accumulator is the seven
registers of R33, and the counters are 64 bits wide. -/
abbrev State := State.Of (HashRegs Config.countBits) Config.countBits

/-- Why a step stops. The block's own errors are no faults here: `raise` is a next state (R262, R263). -/
inductive Fault where
  /-- Raised by an arm whose slice runs past the built end of RAWBUF or CBUF (R44). Safe: the machine stops; no
  state that meets the invariant does it (log entry 8). -/
  | bufferOverrun
  /-- Raised by E_EMIT and D_EMIT when `TYPE = 3`, for which R167 and R188 give no body and no site ("`TYPE = 3`
  cannot occur here"). Safe: the machine stops; no state that meets the invariant does it (log entry 8). -/
  | emitCrc
  deriving DecidableEq, Repr

/-- Why the model gives no next state. -/
inductive Refusal where
  /-- Raised by an arm of `exec` whose instruction has no meaning yet. Safe. -/
  | notModelled (mnemonic : String)
  /-- Raised by E_COMPRESS when `INSIZE = 0`: U11 says refuse, `EntCompress` has the precondition `|p| >= 1`. Safe. -/
  | entCompressEmpty
  /-- Raised by E_HEADER when `CFG.BSID > 11`: U23 says refuse, `PACK_DESC` has the precondition `id <= 11`. Safe. -/
  | packDescAbove11
  /-- Raised by the HOST's connect while the phase is BUSY: what SRC and SNK hold then is the host's business and
  outside every rule (R66, R76, U26). Safe. -/
  | reconnectWhileBusy
  deriving DecidableEq, Repr

/-- The machine right after reset (R50, R291) with nothing connected and a HOST that does nothing; `h` is what the
accumulator then holds. Where R50 says "unspecified" the value is a DESIGN CHOICE, unsafe: log entries 2, 3 and 4. -/
def State.Of.reset {HS : Type} {cb : Nat} (h : HS) : State.Of HS cb where
  cfgBsid := DEFAULT_BSID
  phase := .idle
  mode := .enc
  errClass := .none
  errSite := .none
  inCount := 0#cb
  outCount := 0#cb
  ckStored := 0#22
  ckCalc := 0#22
  fsm := .none
  bsidF := 0#4
  blkSize := 1024#22
  hdr := ⟨0#8, 0#8, 0#8⟩
  typeTag := 0#2
  len := 0#22
  inSize := 0#22
  cSize := 0#22
  rSize := 0#22
  rleByte := 0#8
  paySel := .r
  h := h
  rawBuf := []
  cBuf := []
  srcRest := []
  snkData := []
  hostIn := []
  hostData := 0#32
  snkReqs := 0
  freeCtr := 0

/-- The machine right after reset. -/
def State.reset : State := State.Of.reset HashRegs.reset

end Sys2Proof.Machine
end

