-- ==== Sys2Proof/Machine/Ops.lean ====
section
/-! DEFINITION. The named operations every arm is written with: the two buffers (R44, R67), the source and sink
ports (R61, R63), the accumulator (R149), and the end of a frame, by error (`raise`, R262) or by completion
(R168, R189). -/

namespace Sys2Proof.Machine

variable {HS : Type} {cb : Nat}

/-! ## Buffers as memories -/

/-- Strictly rising indices: each listed index is below every later one. -/
def Memory.rising : Memory → Bool
  | [] => true
  | c :: m => m.all (fun d => decide (c.1 < d.1)) && Memory.rising m

/-- The canonical form: indices strictly rising, and no entry equal to what an unlisted index reads as. -/
def Memory.wf (m : Memory) : Bool := Memory.rising m && m.all (fun c => decide (c.2 ≠ 0#8))

/-- Every listed index is inside a buffer of `size` bytes (R44). -/
def Memory.within (size : Nat) (m : Memory) : Bool := m.all (fun c => decide (c.1 < size))

/-- The byte at index `a`; an unlisted index reads as 00. DESIGN CHOICE, unsafe: log entry 4. -/
def Memory.read : Memory → Nat → Byte
  | [], _ => 0#8
  | c :: m, a => if c.1 = a then c.2 else Memory.read m a

/-- The slice `m[base .. base+n]`. -/
def Memory.slice (m : Memory) (base : Nat) : Nat → Bytes
  | 0 => []
  | n + 1 => Memory.read m base :: Memory.slice m (base + 1) n

/-- The entries of a byte sequence placed at `base`. -/
def Memory.cells (base : Nat) : Bytes → Memory
  | [] => []
  | b :: bs => if b = 0#8 then Memory.cells (base + 1) bs else (base, b) :: Memory.cells (base + 1) bs

/-- `m[base .. base+|bs|] <- bs`. -/
def Memory.write (m : Memory) (base : Nat) (bs : Bytes) : Memory :=
  m.filter (fun c => decide (c.1 < base)) ++ Memory.cells base bs
    ++ m.filter (fun c => decide (base + bs.length ≤ c.1))

/-- The built size of RAWBUF (R44). -/
def rawBufSize : Nat := MAX_BLKSIZE

/-- The built size of CBUF (R44). -/
def cBufSize (p : Params HS cb) : Nat := p.maxCompressed MAX_BLKSIZE + 3

/-- `RAWBUF[base..base+|bs|] <- bs`; no result past the built end. -/
def writeRaw (base : Nat) (bs : Bytes) (s : State.Of HS cb) : Option (State.Of HS cb) :=
  if base + bs.length ≤ rawBufSize then some { s with rawBuf := Memory.write s.rawBuf base bs } else none

/-- `CBUF[base..base+|bs|] <- bs`; no result past the built end. -/
def writeC (p : Params HS cb) (base : Nat) (bs : Bytes) (s : State.Of HS cb) : Option (State.Of HS cb) :=
  if base + bs.length ≤ cBufSize p then some { s with cBuf := Memory.write s.cBuf base bs } else none

/-- `RAWBUF[base..base+n]`; no result past the built end. -/
def readRaw (base n : Nat) (s : State.Of HS cb) : Option Bytes :=
  if base + n ≤ rawBufSize then some (Memory.slice s.rawBuf base n) else none

/-- `CBUF[base..base+n]`; no result past the built end. -/
def readC (p : Params HS cb) (base n : Nat) (s : State.Of HS cb) : Option Bytes :=
  if base + n ≤ cBufSize p then some (Memory.slice s.cBuf base n) else none

/-- Both buffers with the next free contents, as they are at the start of a frame (R44). DESIGN CHOICE, safe: log
entry 4. -/
def freeBuffers (p : Params HS cb) (s : State.Of HS cb) : State.Of HS cb :=
  { s with
      rawBuf := Memory.write [] 0 ((Config.freeRawBuf s.freeCtr).take rawBufSize)
      cBuf := Memory.write [] 0 ((Config.freeCBuf s.freeCtr).take (cBufSize p))
      freeCtr := s.freeCtr + 1 }

/-- Go on with the slice, or stop where it runs past the built end (log entry 8). -/
def orOverrun {α : Type} (r : Option α) (f : α → Host.Outcome (State.Of HS cb) Fault Refusal) :
    Host.Outcome (State.Of HS cb) Fault Refusal :=
  match r with
  | none => .fault .bufferOverrun
  | some x => f x

/-! ## The ports -/

/-- `SrcRead(n)` (R61): the bytes, and the state that has consumed them. -/
def srcRead (n : Nat) (s : State.Of HS cb) : Bytes × State.Of HS cb :=
  (s.srcRest.take n,
    { s with
        srcRest := s.srcRest.drop n
        inCount := s.inCount + BitVec.ofNat cb (s.srcRest.take n).length })

/-- How many bytes of `bs` the sink takes (R63); a request of no bytes takes none and asks nothing. -/
def snkAccepts (p : Params HS cb) (bs : Bytes) (s : State.Of HS cb) : Nat :=
  if bs.length = 0 then 0 else p.snkFail ⟨s.snkReqs, s.snkData⟩ bs

/-- `SnkWrite(bs)` (R63): the count accepted, and the state after. A request of no bytes changes nothing. -/
def snkWrite (p : Params HS cb) (bs : Bytes) (s : State.Of HS cb) : Nat × State.Of HS cb :=
  (snkAccepts p bs s,
    { s with
        snkData := s.snkData ++ bs.take (snkAccepts p bs s)
        outCount := s.outCount + BitVec.ofNat cb (snkAccepts p bs s)
        snkReqs := if bs.length = 0 then s.snkReqs else s.snkReqs + 1 })

/-! ## The accumulator -/

/-- `H_INIT()` (R142, R149); it takes the next free value. -/
def hInit (p : Params HS cb) (s : State.Of HS cb) : State.Of HS cb :=
  { s with h := p.hash.fresh s.freeCtr, freeCtr := s.freeCtr + 1 }

/-- `H_UPDATE(bs)` (R143, R149). -/
def hUpdate (p : Params HS cb) (bs : Bytes) (s : State.Of HS cb) : State.Of HS cb :=
  { s with h := p.hash.update s.h bs }

/-- `CK22(H_FINAL())` (R145, R146). -/
def checksum (p : Params HS cb) (s : State.Of HS cb) : BitVec 22 := ck22 (p.hash.final s.h)

/-! ## The end of a frame -/

/-- `raise <Class>(site)` (R262): these four registers and nothing else. -/
def raise (cls : ErrClass) (site : ErrSite) (s : State.Of HS cb) : State.Of HS cb :=
  { s with errClass := cls, errSite := site, phase := .error, fsm := .none }

/-- `STATUS.PHASE <- DONE; FSM <- NONE` (R168, R189). There is no return from an error: only the HOST's CLEAR
leaves DONE and ERROR (R264). -/
def finish (s : State.Of HS cb) : State.Of HS cb := { s with phase := .done, fsm := .none }

end Sys2Proof.Machine
end

