-- ==== Sys2Proof/Machine/Xxh32.lean ====
section
/-! DEFINITION. The decided instance of `HASH` (R140, D3): XXH32 with seed 0 over the registers of R33, with the proof
of the chunking law that the interface of R149 asks for; and this machine's parameters, which take it. -/

namespace Sys2Proof.Machine

variable {cb : Nat}

/-! ## The stripe loop -/

/-- The loop's exit test is a test of the length. -/
theorem drop_isEmpty (l : Bytes) (k : Nat) : (l.drop k).isEmpty = decide (l.length ≤ k) := by
  by_cases h : l.length ≤ k
  · simp [List.drop_eq_nil_of_le h, h]
  · have : l.drop k ≠ [] := by simpa [List.drop_eq_nil_iff] using h
    simp [h]

/-- Fewer than 16 bytes: no stripe is folded. -/
theorem stripes_short (n : Nat) (h : HashRegs cb) (buf : Bytes) (hl : buf.length < 16) :
    xxhStripes n h buf = (h, buf) := by
  cases n with
  | zero => rfl
  | succ n => simp [xxhStripes, drop_isEmpty, show buf.length ≤ 15 by omega]

/-- 16 bytes or more: one stripe is folded and the loop goes on behind it. -/
theorem stripes_step (n : Nat) (h : HashRegs cb) (buf : Bytes) (hl : 16 ≤ buf.length) :
    xxhStripes (n+1) h buf = xxhStripes n (xxhStripe h buf) (buf.drop 16) := by
  simp [xxhStripes, drop_isEmpty, show ¬ buf.length ≤ 15 by omega]

/-- More rounds than the buffer has bytes change nothing. -/
theorem stripes_fuel (n : Nat) : ∀ (m : Nat) (h : HashRegs cb) (buf : Bytes), buf.length ≤ n → n ≤ m →
    xxhStripes m h buf = xxhStripes n h buf := by
  induction n with
  | zero => intro m h buf hl _; rw [stripes_short _ _ _ (by omega), stripes_short _ _ _ (by omega)]
  | succ n ih =>
    intro m h buf hl hm
    by_cases hs : buf.length < 16
    · rw [stripes_short _ _ _ hs, stripes_short _ _ _ hs]
    · obtain ⟨m, rfl⟩ : ∃ k, m = k + 1 := ⟨m - 1, by omega⟩
      rw [stripes_step _ _ _ (by omega), stripes_step _ _ _ (by omega)]
      exact ih _ _ _ (by simp; omega) (by omega)

/-- A byte of the first part. -/
theorem byteAt_append (a b : Bytes) (i : Nat) (h : i < a.length) : byteAt (a ++ b) i = byteAt a i := by
  simp [byteAt, List.getD_eq_getElem?_getD, List.getElem?_append_left h]

/-- A stripe looks at sixteen bytes only. -/
theorem stripe_append (h : HashRegs cb) (a b : Bytes) (hl : 16 ≤ a.length) : xxhStripe h (a ++ b) = xxhStripe h a := by
  have e : ∀ i, i < 16 → byteAt (a ++ b) i = byteAt a i := fun i hi => byteAt_append a b i (by omega)
  simp only [xxhStripe, rdLE32, e _ (show 0 + 3 < 16 by decide), e _ (show 0 + 2 < 16 by decide),
    e _ (show 0 + 1 < 16 by decide), e _ (show 0 < 16 by decide), e _ (show 4 + 3 < 16 by decide),
    e _ (show 4 + 2 < 16 by decide), e _ (show 4 + 1 < 16 by decide), e _ (show 4 < 16 by decide),
    e _ (show 8 + 3 < 16 by decide), e _ (show 8 + 2 < 16 by decide), e _ (show 8 + 1 < 16 by decide),
    e _ (show 8 < 16 by decide), e _ (show 12 + 3 < 16 by decide), e _ (show 12 + 2 < 16 by decide),
    e _ (show 12 + 1 < 16 by decide), e _ (show 12 < 16 by decide)]

/-- The loop over `a ++ b` is the loop over `a`, then over what that leaves and `b`. -/
theorem stripes_append (n : Nat) : ∀ (h : HashRegs cb) (a b : Bytes), a.length ≤ n →
    xxhStripes (n + b.length) h (a ++ b) =
      xxhStripes ((xxhStripes n h a).2 ++ b).length (xxhStripes n h a).1 ((xxhStripes n h a).2 ++ b) := by
  induction n with
  | zero => intro h a b hl; rw [stripes_short 0 h a (by omega)]; simp [List.length_eq_zero_iff.mp (Nat.le_zero.mp hl)]
  | succ n ih =>
    intro h a b hl
    by_cases hs : a.length < 16
    · rw [stripes_short _ h a hs]
      exact stripes_fuel _ _ _ _ (by simp) (by simp; omega)
    · rw [stripes_step n h a (by omega), show n + 1 + b.length = n + b.length + 1 by omega,
        stripes_step _ h (a ++ b) (by simp; omega), stripe_append h a b (by omega),
        List.drop_append_of_le_length (by omega)]
      exact ih _ _ _ (by simp; omega)

/-- What is left over is shorter than a stripe. -/
theorem stripes_rest_len (n : Nat) : ∀ (x : HashRegs cb) (buf : Bytes), buf.length ≤ n →
    (xxhStripes n x buf).2.length = buf.length % 16 := by
  induction n with
  | zero => intro x buf h; rw [stripes_short _ _ _ (by omega)]; simp; omega
  | succ n ih =>
    intro x buf h
    by_cases hs : buf.length < 16
    · rw [stripes_short _ _ _ hs]; simp; omega
    · rw [stripes_step _ _ _ (by omega), ih _ _ (by simp; omega)]; simp; omega

/-! ## What an update leaves -/

/-- The bytes put into the staging buffer are its first bytes. -/
theorem memPut_take (m : Vector Byte 16) (l : Bytes) (h : l.length ≤ 16) : (memPut m l).toList.take l.length = l := by
  simp [memPut, Vector.toList, List.take_take, Nat.min_eq_left h]

/-- The staged bytes are the first bytes of `H.MEM`, whatever is behind them. -/
theorem stagedMem_take {h : HashRegs cb} {s l : Bytes} (hl : l.length ≤ 16) (he : s = [] → l = memValid h) :
    (stagedMem h s l).toList.take l.length = l := by
  unfold stagedMem
  split
  · rename_i hs
    have := he (List.isEmpty_iff.mp hs)
    have hm := h.memSize.isLt
    simp [this, memValid]
  · exact memPut_take _ _ hl

theorem memValid_length (h : HashRegs cb) : (memValid h).length = h.memSize.toNat := by
  have := h.memSize.isLt
  simp [memValid]; omega

/-- What is pending after an update is what its stripe loop left over. -/
theorem update_valid (h : HashRegs cb) (s : Bytes) :
    memValid (xxhUpdate h s) = (xxhStripes (memValid h ++ s).length h (memValid h ++ s)).2 := by
  have hl := stripes_rest_len _ h (memValid h ++ s) (Nat.le_refl _)
  generalize hr : xxhStripes (memValid h ++ s).length h (memValid h ++ s) = r at hl
  have : memValid (xxhUpdate h s) = (stagedMem h s r.2).toList.take (BitVec.ofNat 4 r.2.length).toNat := by
    unfold xxhUpdate memValid; unfold memValid at hr; simp only [hr]
  rw [this, BitVec.toNat_ofNat, Nat.mod_eq_of_lt (by omega), stagedMem_take (by omega)]
  rintro rfl
  have hm := memValid_length h
  have := h.memSize.isLt
  rw [← hr, List.append_nil, stripes_short _ _ _ (by omega)]

theorem update_memSize (h : HashRegs cb) (s : Bytes) :
    (xxhUpdate h s).memSize.toNat = (h.memSize.toNat + s.length) % 16 := by
  rw [← memValid_length, update_valid, stripes_rest_len _ _ _ (Nat.le_refl _), List.length_append, memValid_length]

/-! ## The chunking law (R144, R149) -/

/-- The lanes agree. -/
def LanesEq (x y : HashRegs cb) : Prop := x.v1 = y.v1 ∧ x.v2 = y.v2 ∧ x.v3 = y.v3 ∧ x.v4 = y.v4

/-- The loop looks at the lanes and the bytes only. -/
theorem stripes_lanes (n : Nat) : ∀ (x y : HashRegs cb) (buf : Bytes), LanesEq x y →
    LanesEq (xxhStripes n x buf).1 (xxhStripes n y buf).1 ∧ (xxhStripes n x buf).2 = (xxhStripes n y buf).2 := by
  induction n with
  | zero => intro x y buf h; exact ⟨h, rfl⟩
  | succ n ih =>
    intro x y buf h
    by_cases hs : buf.length < 16
    · rw [stripes_short _ _ _ hs, stripes_short _ _ _ hs]; exact ⟨h, rfl⟩
    · rw [stripes_step _ _ _ (by omega), stripes_step _ _ _ (by omega)]
      apply ih
      obtain ⟨h1, h2, h3, h4⟩ := h
      exact ⟨by simp [xxhStripe, h1], by simp [xxhStripe, h2], by simp [xxhStripe, h3], by simp [xxhStripe, h4]⟩

/-- Two accumulators agree in everything that H_UPDATE and H_FINAL look at: all but the stale bytes of `H.MEM`. -/
def RegsEq (x y : HashRegs cb) : Prop :=
  LanesEq x y ∧ x.total = y.total ∧ x.memSize = y.memSize ∧ memValid x = memValid y

/-- H_UPDATE keeps the agreement. -/
theorem update_congr {x y : HashRegs cb} (h : RegsEq x y) (s : Bytes) : RegsEq (xxhUpdate x s) (xxhUpdate y s) := by
  obtain ⟨hl, ht, hm, hv⟩ := h
  have hs := stripes_lanes (memValid y ++ s).length x y (memValid y ++ s) hl
  refine ⟨?_, ?_, ?_, ?_⟩
  · have e : ∀ z : HashRegs cb, LanesEq (xxhUpdate z s) (xxhStripes (memValid z ++ s).length z (memValid z ++ s)).1 :=
      fun z => ⟨rfl, rfl, rfl, rfl⟩
    have a := e x; have b := e y
    rw [hv] at a
    unfold LanesEq at *
    simp_all
  · simp [xxhUpdate, ht]
  · apply BitVec.eq_of_toNat_eq; rw [update_memSize, update_memSize, hm]
  · rw [update_valid, update_valid, hv, hs.2]

/-- Absorbing two pieces agrees with absorbing them as one. -/
theorem update_update (h : HashRegs cb) (a b : Bytes) :
    RegsEq (xxhUpdate (xxhUpdate h a) b) (xxhUpdate h (a ++ b)) := by
  have e : ∀ (z : HashRegs cb) s, LanesEq (xxhUpdate z s) (xxhStripes (memValid z ++ s).length z (memValid z ++ s)).1 :=
      fun z s => ⟨rfl, rfl, rfl, rfl⟩
  have key := stripes_append (memValid h ++ a).length h (memValid h ++ a) b (Nat.le_refl _)
  rw [← List.length_append, List.append_assoc] at key
  have hl := stripes_lanes (((xxhStripes (memValid h ++ a).length h (memValid h ++ a)).2 ++ b).length) (xxhUpdate h a)
    (xxhStripes (memValid h ++ a).length h (memValid h ++ a)).1
    ((xxhStripes (memValid h ++ a).length h (memValid h ++ a)).2 ++ b) (e h a)
  refine ⟨?_, ?_, ?_, ?_⟩
  · have x := e (xxhUpdate h a) b
    rw [update_valid] at x
    have y := e h (a ++ b)
    rw [key] at y
    have hl := hl.1
    unfold LanesEq at *
    simp_all
  · simp [xxhUpdate, BitVec.ofNat_add, BitVec.add_assoc]
  · apply BitVec.eq_of_toNat_eq; rw [update_memSize, update_memSize, update_memSize]; simp; omega
  · rw [update_valid, update_valid, update_valid, key, hl.2]

/-- H_FINAL looks at no stale byte. -/
theorem final_congr {x y : HashRegs cb} (h : RegsEq x y) : xxhFinal x = xxhFinal y := by
  obtain ⟨⟨h1, h2, h3, h4⟩, ht, -, hv⟩ := h
  simp only [xxhFinal, xxhMerge, h1, h2, h3, h4, ht, hv]

/-- An update of no bytes: nothing is folded and nothing is added. -/
theorem update_nil_eq (h : HashRegs cb) : RegsEq (xxhUpdate h []) h := by
  have hl := memValid_length h
  have hm := h.memSize.isLt
  have e := stripes_short (memValid h ++ []).length h (memValid h ++ []) (by simp; omega)
  refine ⟨⟨?_, ?_, ?_, ?_⟩, ?_, ?_, ?_⟩
  · show (xxhStripes _ h _).1.v1 = _; rw [e]
  · show (xxhStripes _ h _).1.v2 = _; rw [e]
  · show (xxhStripes _ h _).1.v3 = _; rw [e]
  · show (xxhStripes _ h _).1.v4 = _; rw [e]
  · simp [xxhUpdate]
  · apply BitVec.eq_of_toNat_eq; rw [update_memSize]; simp; omega
  · rw [update_valid, e, List.append_nil]

/-- Any further updates keep the agreement. -/
theorem updates_congr {x y : HashRegs cb} (h : RegsEq x y) (further : List Bytes) :
    RegsEq (further.foldl xxhUpdate x) (further.foldl xxhUpdate y) := by
  induction further generalizing x y with
  | nil => exact h
  | cons s l ih => exact ih (update_congr h s)

/-- H_INIT leaves the same accumulator but for the stale bytes. -/
theorem init_regsEq (j k : Vector Byte 16) : RegsEq (cb := cb) (xxhInit j) (xxhInit k) :=
  ⟨⟨rfl, rfl, rfl, rfl⟩, rfl, rfl, by simp [memValid, xxhInit]⟩

/-! ## The decided instance -/

/-- XXH32, seed 0 (R140): the decided value of the field `HASH`. What is in `H.MEM` after an H_INIT is a free value
(R142; log entry 5). -/
def XXH32 : HashUnit (HashRegs cb) where
  init := xxhInit (Vector.replicate 16 0#8)
  update := xxhUpdate
  final := xxhFinal
  chunking h a b further := final_congr (updates_congr (update_update h a b) further)
  emptyUpdate h := final_congr (update_nil_eq h)
  fresh n := xxhInit (Config.freeHashMem n)
  freshHash _ s := final_congr (update_congr (init_regsEq _ _) s)

/-- `hash(s)` of R149 where H_INIT left `junk` in `H.MEM` (R142). -/
def hashOf (junk : Vector Byte 16) (s : Bytes) : Word32 :=
  xxhFinal (xxhUpdate (xxhInit (cb := Config.countBits) junk) s)

end Sys2Proof.Machine

namespace Sys2Proof

/-- This machine's parameters: the open ones as they are, XXH32 for `HASH`, and 64 for `COUNT_BITS` (R7, R140, D9). -/
def Config.params : Params (Machine.HashRegs Config.countBits) Config.countBits :=
  { Config.openParams with hash := Machine.XXH32, hashReset := Machine.HashRegs.reset }

end Sys2Proof
end

