-- ==== Sys2Proof/Machine/Commands.lean ====
section
/-! DEFINITION. The host commands NOP, ENCODE, DECODE and CLEAR (R213 to R217). A command out of phase is ignored
and leaves no trace (R217). -/

namespace Sys2Proof.Machine

variable {HS : Type} {cb : Nat}

/-- What ENCODE and DECODE do when accepted (R214, R215): the frame starts at `arm` in mode `m`, with buffers of
unspecified contents (R44). -/
def startFrame (p : Params HS cb) (m : Mode) (arm : Fsm) (s : State.Of HS cb) : State.Of HS cb :=
  { freeBuffers p s with
      mode := m
      phase := .busy
      errClass := .none
      errSite := .none
      inCount := 0#cb
      outCount := 0#cb
      ckStored := 0#22
      ckCalc := 0#22
      fsm := arm }

/-- NOP at any parameters (R213). -/
def nopCommand (s : State.Of HS cb) : Host.Outcome (State.Of HS cb) Fault Refusal := .next s

/-- ENCODE at given parameters: accepted only in IDLE (R214, R217). -/
def encodeCommand (p : Params HS cb) (s : State.Of HS cb) : Host.Outcome (State.Of HS cb) Fault Refusal :=
  .next (if s.phase = .idle then startFrame p .enc .eHeader s else s)

/-- DECODE at given parameters: accepted only in IDLE (R215, R217). -/
def decodeCommand (p : Params HS cb) (s : State.Of HS cb) : Host.Outcome (State.Of HS cb) Fault Refusal :=
  .next (if s.phase = .idle then startFrame p .dec .dFrameHdr s else s)

/-- CLEAR at any parameters: acts only in DONE and ERROR (R216). -/
def clearCommand (s : State.Of HS cb) : Host.Outcome (State.Of HS cb) Fault Refusal :=
  .next (if s.phase = .done ∨ s.phase = .error then
    { s with phase := .idle, errClass := .none, errSite := .none } else s)

/-! ## The meanings -/

/-- The meaning of NOP (R213). -/
def execNop (s : State) : Host.Outcome State Fault Refusal := nopCommand s

/-- The meaning of ENCODE (R214). -/
def execEncode (s : State) : Host.Outcome State Fault Refusal := encodeCommand Config.params s

/-- The meaning of DECODE (R215). -/
def execDecode (s : State) : Host.Outcome State Fault Refusal := decodeCommand Config.params s

/-- The meaning of CLEAR (R216). -/
def execClear (s : State) : Host.Outcome State Fault Refusal := clearCommand s

end Sys2Proof.Machine
end

