-- ==== Sys2Proof/Machine/Flags.lean ====
section
/-! DEFINITION. The status and error words as the host reads them (R23, R24), the code numbers of phases, modes,
classes and sites (R23, R251, R252), and the level outputs (R219). `PHASE` is the only flag of the block (R23). -/

namespace Sys2Proof.Machine

variable {HS : Type} {cb : Nat}

/-- `STATUS.PHASE` as bits [1:0] (R23). -/
def phaseCode : Phase → BitVec 2
  | .idle => 0#2
  | .busy => 1#2
  | .done => 2#2
  | .error => 3#2

/-- `STATUS.MODE` as bit [2] (R23). -/
def modeCode : Mode → BitVec 1
  | .enc => 0#1
  | .dec => 1#1

/-- `STATUS` (R23): bits [31:3] zero. -/
def statusWord (s : State.Of HS cb) : Word32 := 0#29 ++ modeCode s.mode ++ phaseCode s.phase

/-- `ERR.CLASS` codes (R251). -/
def classCode : ErrClass → BitVec 4
  | .none => 0#4
  | .ioError => 1#4
  | .formatError => 2#4
  | .decoderError => 3#4
  | .encoderError => 4#4
  | .checksumError => 5#4
  | .overwriteRefused => 6#4
  | .allocationError => 7#4

/-- `ERR.SITE` codes (R252). -/
def siteCode : ErrSite → BitVec 8
  | .none => 0#8
  | .eWrFrameHdr => 1#8
  | .eCompress => 2#8
  | .eBound => 3#8
  | .eWrRaw => 4#8
  | .eWrRle => 5#8
  | .eWrComp => 6#8
  | .eWrTrailer => 7#8
  | .dRdFrameHdr => 16#8
  | .dMagic => 17#8
  | .dReserved => 18#8
  | .dBsid => 19#8
  | .dRdBlkHdr => 20#8
  | .dLenRaw => 21#8
  | .dLenRle => 22#8
  | .dLenComp => 23#8
  | .dRdRaw => 24#8
  | .dRdRle => 25#8
  | .dRdComp => 26#8
  | .dDecomp => 27#8
  | .dRSize => 28#8
  | .dWrRaw => 29#8
  | .dWrRle => 30#8
  | .dWrComp => 31#8
  | .dChecksum => 32#8

/-- The class the table of R252 gives each site. -/
def siteClass : ErrSite → ErrClass
  | .none => .none
  | .eWrFrameHdr | .eWrRaw | .eWrRle | .eWrComp | .eWrTrailer => .ioError
  | .eCompress | .eBound => .encoderError
  | .dRdFrameHdr | .dRdBlkHdr | .dRdRaw | .dRdRle | .dRdComp | .dWrRaw | .dWrRle | .dWrComp => .ioError
  | .dMagic | .dReserved | .dBsid | .dLenRaw | .dLenRle | .dLenComp => .formatError
  | .dDecomp | .dRSize => .decoderError
  | .dChecksum => .checksumError

/-- `ERR` (R24): SITE in bits [15:8], CLASS in bits [3:0], all other bits zero. -/
def errWord (s : State.Of HS cb) : Word32 := 0#16 ++ siteCode s.errSite ++ 0#4 ++ classCode s.errClass

/-- The level output `done` (R219). -/
def doneOut (s : State.Of HS cb) : Bool := decide (s.phase = .done)

/-- The level output `error` (R219). -/
def errorOut (s : State.Of HS cb) : Bool := decide (s.phase = .error)

end Sys2Proof.Machine
end

