-- ==== Sys2Proof/Machine/Operands.lean ====
section
/-! DEFINITION. The operands the arms share: the block size (R96) and the range of INSIZE (R45), the payload `PAYSEL`
selects (R67, R188), the body of the record being emitted and the error sites that depend on TYPE (R167, R188), and the
registers as the host reads them (R28, R210). -/

namespace Sys2Proof.Machine

variable {HS : Type} {cb : Nat}

/-- `blockSize = 1024 << blockSizeId` (R96) as the 22-bit BLKSIZE holds it (R30). -/
def blockSize (id : BitVec 4) : BitVec 22 := 1024#22 <<< id.toNat

/-- INSIZE once BLKSIZE is `size`: kept where it is in its range 0..BLKSIZE (R32, I5 of R45), and otherwise a free
value of that range. Nothing reads it before E_READ writes it. DESIGN CHOICE, safe: log entry 12. -/
def inSizeWithin (size : BitVec 22) (s : State.Of HS cb) : BitVec 22 :=
  if s.inSize.toNat ≤ size.toNat then s.inSize
  else BitVec.ofNat 22 (Config.freeInSize s.freeCtr % (size.toNat + 1))

/-- `BSID_F <- id; BLKSIZE <- 1024 << id`, always written together (R30), with INSIZE in its range after it (R45). -/
def setBlockSize (id : BitVec 4) (s : State.Of HS cb) : State.Of HS cb :=
  { s with
      bsidF := id
      blkSize := blockSize id
      inSize := inSizeWithin (blockSize id) s
      freeCtr := s.freeCtr + 1 }

/-- `maxCompressed(BLKSIZE)`, the bound of R183. -/
def bodyBound (p : Params HS cb) (s : State.Of HS cb) : Nat := p.maxCompressed s.blkSize.toNat

/-- The payload D_EMIT writes (R67, R188): `CBUF[0..RSIZE]` or `RAWBUF[0..RSIZE]`. -/
def payload (p : Params HS cb) (s : State.Of HS cb) : Option Bytes :=
  match s.paySel with
  | .c => readC p 0 s.rSize.toNat s
  | .r => readRaw 0 s.rSize.toNat s

/-- The body E_EMIT writes after the header (R67, R167), by TYPE; there is none for type 3. -/
def emitBody (p : Params HS cb) (s : State.Of HS cb) : Option (Option Bytes) :=
  if s.typeTag = 1#2 then some (readRaw 0 s.inSize.toNat s)
  else if s.typeTag = 2#2 then some (some [s.rleByte])
  else if s.typeTag = 0#2 then some (readC p 3 s.cSize.toNat s)
  else none

/-- The site of a short write in E_EMIT (R167). -/
def emitSite (tag : BitVec 2) : ErrSite :=
  if tag = 1#2 then .eWrRaw else if tag = 2#2 then .eWrRle else .eWrComp

/-- Register `n` as the host reads it (R28, R210): 0 for `CMD` and for a number above 10. The halves of a counter are
its bits 31..0 and 63..32 (R25, R26), zero where `COUNT_BITS` is narrower (log entry 11). -/
def csrValue (n : Word32) (s : State.Of HS cb) : Word32 :=
  match n.toNat with
  | 0 => 0#28 ++ s.cfgBsid
  | 1 => 0#32
  | 2 => statusWord s
  | 3 => errWord s
  | 4 => s.inCount.extractLsb' 0 32
  | 5 => s.inCount.extractLsb' 32 32
  | 6 => s.outCount.extractLsb' 0 32
  | 7 => s.outCount.extractLsb' 32 32
  | 8 => 0#10 ++ s.ckStored
  | 9 => 0#10 ++ s.ckCalc
  | 10 => 0#28 ++ s.bsidF
  | _ => 0#32

end Sys2Proof.Machine
end

