-- ==== Sys2Proof/Machine/Encoder.lean ====
section
/-! DEFINITION. The encoder arms E_HEADER, E_READ, E_COMPRESS, E_EMIT and E_TRAILER (R161 to R168), as functions of
the parameters `p`. -/

namespace Sys2Proof.Machine

variable {HS : Type} {cb : Nat}

/-- E_HEADER (R161). Refused where `PACK_DESC` has no behaviour (R122, U23). -/
def armEHeader (p : Params HS cb) (s : State.Of HS cb) : Host.Outcome (State.Of HS cb) Fault Refusal :=
  if MAX_BSID < s.cfgBsid.toNat then .refused .packDescAbove11
  else
    let w := snkWrite p (packFrameHdr s.cfgBsid) (setBlockSize s.cfgBsid s)
    if w.1 < 5 then .next (raise .ioError .eWrFrameHdr w.2)
    else .next { hInit p w.2 with fsm := .eRead }

/-- E_READ (R162): a short read is no error; a read of nothing ends the loop. -/
def armERead (s : State.Of HS cb) : Host.Outcome (State.Of HS cb) Fault Refusal :=
  let r := srcRead s.blkSize.toNat s
  orOverrun (writeRaw 0 r.1 r.2) fun t =>
    .next { t with
      inSize := BitVec.ofNat 22 r.1.length
      fsm := if r.1.length = 0 then .eTrailer else .eCompress }

/-- E_COMPRESS after the hash has absorbed the block: the answer to `EntCompress` (R163 to R166). -/
def takeCompressed (p : Params HS cb) (a : CRes) (t : State.Of HS cb) : Host.Outcome (State.Of HS cb) Fault Refusal :=
  match a with
  | .err _ => .next (raise .encoderError .eCompress t)
  | .code0 => .next { t with typeTag := 1#2, len := t.inSize, fsm := .eEmit }
  | .code1 => .next { t with typeTag := 2#2, len := t.inSize, rleByte := Memory.read t.rawBuf 0, fsm := .eEmit }
  | .size body =>
    if FIELD_LIMIT ≤ body.length ∨ p.maxCompressed t.inSize.toNat < body.length then
      .next (raise .encoderError .eBound t)
    else orOverrun (writeC p 3 body t) fun u =>
      .next { u with
        cSize := BitVec.ofNat 22 body.length
        typeTag := 0#2
        len := BitVec.ofNat 22 body.length
        fsm := .eEmit }

/-- E_COMPRESS (R163). Refused where `EntCompress` has no behaviour (R231, U11). -/
def armECompress (p : Params HS cb) (s : State.Of HS cb) : Host.Outcome (State.Of HS cb) Fault Refusal :=
  if s.inSize = 0#22 then .refused .entCompressEmpty
  else orOverrun (readRaw 0 s.inSize.toNat s) fun q => takeCompressed p (p.entCompress q) (hUpdate p q s)

/-- E_EMIT (R167): header into `CBUF[0..3]`, then one SnkWrite of header and body (R65). -/
def armEEmit (p : Params HS cb) (s : State.Of HS cb) : Host.Outcome (State.Of HS cb) Fault Refusal :=
  orOverrun (writeC p 0 (packHdr s.typeTag s.len).toBytes s) fun t =>
    match emitBody p t with
    | none => .fault .emitCrc
    | some b => orOverrun b fun body =>
      let w := snkWrite p ((packHdr s.typeTag s.len).toBytes ++ body) t
      if w.1 < 3 + body.length then .next (raise .ioError (emitSite s.typeTag) w.2)
      else .next { w.2 with fsm := .eRead }

/-- E_TRAILER (R168). -/
def armETrailer (p : Params HS cb) (s : State.Of HS cb) : Host.Outcome (State.Of HS cb) Fault Refusal :=
  let w := snkWrite p (packTrailer (checksum p s)) { s with ckCalc := checksum p s }
  if w.1 < 3 then .next (raise .ioError .eWrTrailer w.2)
  else .next (finish w.2)

end Sys2Proof.Machine
end

