-- ==== Sys2Proof/Machine/Records.lean ====
section
/-! DEFINITION. The wire records FRAME, COMP, RAW, RLE and CRC (R181, R183 to R189). A record is met at D_DISPATCH
(FRAME at D_FRAMEHDR) and then runs its further arms; `exec` of a record runs the arm of it at which FSM stands
(log entry 7). Each record has the arms as functions of the parameters `p`, and its meaning at
`Config.params`. -/

namespace Sys2Proof.Machine

variable {HS : Type} {cb : Nat}

/-! ## FRAME (R181) -/

/-- FRAME, an accepted header: `BSID_F`, `BLKSIZE`, `H_INIT`, then `D_AWAITHDR` (R181). A header with
`blockSizeId > 11` raises FormatError at S_D_BSID; the decoder never hands one over. -/
def frameRecord (p : Params HS cb) (bsid : BitVec 4) (s : State.Of HS cb) :
    Host.Outcome (State.Of HS cb) Fault Refusal :=
  if MAX_BSID < bsid.toNat then .next (raise .formatError .dBsid s)
  else .next { hInit p (setBlockSize bsid s) with fsm := .dAwaitHdr }

/-- The meaning of FRAME (R181). -/
def execFrame (bsid : BitVec 4) (s : State) : Host.Outcome State Fault Refusal := frameRecord Config.params bsid s

/-! ## D_DISPATCH (R183) -/

/-- `(TYPE, LEN) <- UNPACK_HDR(HDR)` (R183). -/
def setTypeLen (tag : BitVec 2) (field : BitVec 22) (s : State.Of HS cb) : State.Of HS cb :=
  { s with typeTag := tag, len := field }

/-- The dispatch of a data block (R183): TYPE and LEN are written, then the length test, which raises FormatError,
then the body arm. -/
def dispatchData (tag : BitVec 2) (field : BitVec 22) (bound : Nat) (site : ErrSite) (arm : Fsm)
    (s : State.Of HS cb) : State.Of HS cb :=
  if bound < field.toNat then raise .formatError site (setTypeLen tag field s)
  else { setTypeLen tag field s with fsm := arm }

/-! ## D_EMIT (R188) -/

/-- D_EMIT for a record whose short write is at `site`: the payload is written, then absorbed (R188). -/
def emitPayload (p : Params HS cb) (site : ErrSite) (s : State.Of HS cb) :
    Host.Outcome (State.Of HS cb) Fault Refusal :=
  orOverrun (payload p s) fun pay =>
    let w := snkWrite p pay s
    if w.1 < s.rSize.toNat then .next (raise .ioError site w.2)
    else .next { hUpdate p pay w.2 with fsm := .dAwaitHdr }

/-! ## RAW (R185) -/

/-- D_READBODY (R185). -/
def readBody (p : Params HS cb) (s : State.Of HS cb) : Host.Outcome (State.Of HS cb) Fault Refusal :=
  let r := srcRead s.len.toNat s
  if r.1.length < s.len.toNat then .next (raise .ioError .dRdRaw r.2)
  else orOverrun (writeC p 0 r.1 r.2) fun t =>
    .next { t with rSize := s.len, paySel := .c, fsm := .dEmit }

/-- RAW with length field `len`: D_DISPATCH, D_READBODY, D_EMIT. -/
def rawRecord (p : Params HS cb) (len : BitVec 22) (s : State.Of HS cb) : Host.Outcome (State.Of HS cb) Fault Refusal :=
  match s.fsm with
  | .dReadBody => readBody p s
  | .dEmit => emitPayload p .dWrRaw s
  | _ => .next (dispatchData 1#2 len (bodyBound p s) .dLenRaw .dReadBody s)

/-- The meaning of RAW (R183, R185, R188). -/
def execRaw (len : BitVec 22) (s : State) : Host.Outcome State Fault Refusal := rawRecord Config.params len s

/-! ## RLE (R186) -/

/-- D_SYNTH (R186): one body byte, whatever LEN is. -/
def synth (s : State.Of HS cb) : Host.Outcome (State.Of HS cb) Fault Refusal :=
  let r := srcRead 1 s
  if r.1.length < 1 then .next (raise .ioError .dRdRle r.2)
  else orOverrun (writeRaw 0 (rep (byteAt r.1 0) s.len.toNat) { r.2 with rleByte := byteAt r.1 0 }) fun t =>
    .next { t with rSize := s.len, paySel := .r, fsm := .dEmit }

/-- RLE with length field `len`: D_DISPATCH, D_SYNTH, D_EMIT. -/
def rleRecord (p : Params HS cb) (len : BitVec 22) (s : State.Of HS cb) : Host.Outcome (State.Of HS cb) Fault Refusal :=
  match s.fsm with
  | .dSynth => synth s
  | .dEmit => emitPayload p .dWrRle s
  | _ => .next (dispatchData 2#2 len s.blkSize.toNat .dLenRle .dSynth s)

/-- The meaning of RLE (R183, R186, R188). -/
def execRle (len : BitVec 22) (s : State) : Host.Outcome State Fault Refusal := rleRecord Config.params len s

/-! ## COMP (R187) -/

/-- D_ENTROPY after the body is in CBUF: the answer to `EntDecompress(BLKSIZE, b)` (R187, R232). -/
def takeDecoded (a : DRes) (t : State.Of HS cb) : Host.Outcome (State.Of HS cb) Fault Refusal :=
  match a with
  | .err _ => .next (raise .decoderError .dDecomp t)
  | .len q =>
    if t.blkSize.toNat < q.length then .next (raise .decoderError .dRSize t)
    else orOverrun (writeRaw 0 q t) fun u =>
      .next { u with rSize := BitVec.ofNat 22 q.length, paySel := .r, fsm := .dEmit }

/-- D_ENTROPY (R187). -/
def entropy (p : Params HS cb) (s : State.Of HS cb) : Host.Outcome (State.Of HS cb) Fault Refusal :=
  let r := srcRead s.len.toNat s
  if r.1.length < s.len.toNat then .next (raise .ioError .dRdComp r.2)
  else orOverrun (writeC p 0 r.1 r.2) fun t => takeDecoded (p.entDecompress s.blkSize.toNat r.1) t

/-- COMP with length field `len`: D_DISPATCH, D_ENTROPY, D_EMIT. -/
def compRecord (p : Params HS cb) (len : BitVec 22) (s : State.Of HS cb) :
    Host.Outcome (State.Of HS cb) Fault Refusal :=
  match s.fsm with
  | .dEntropy => entropy p s
  | .dEmit => emitPayload p .dWrComp s
  | _ => .next (dispatchData 0#2 len (bodyBound p s) .dLenComp .dEntropy s)

/-- The meaning of COMP (R183, R187, R188). -/
def execComp (len : BitVec 22) (s : State) : Host.Outcome State Fault Refusal := compRecord Config.params len s

/-! ## CRC (R184) -/

/-- D_VERIFY (R189). -/
def verify (p : Params HS cb) (s : State.Of HS cb) : State.Of HS cb :=
  if checksum p s ≠ s.ckStored then raise .checksumError .dChecksum { s with ckCalc := checksum p s }
  else finish { s with ckCalc := checksum p s }

/-- CRC with field `ck`: D_DISPATCH (R183, R184), D_VERIFY (R189). A CRC record has no payload, so D_EMIT has no rule
for it (log entry 8). -/
def crcRecord (p : Params HS cb) (ck : BitVec 22) (s : State.Of HS cb) : Host.Outcome (State.Of HS cb) Fault Refusal :=
  match s.fsm with
  | .dVerify => .next (verify p s)
  | .dEmit => .fault .emitCrc
  | _ => .next { setTypeLen 3#2 ck s with ckStored := ck, fsm := .dVerify }

/-- The meaning of CRC (R184, R189). -/
def execCrc (ck : BitVec 22) (s : State) : Host.Outcome State Fault Refusal := crcRecord Config.params ck s

end Sys2Proof.Machine
end

