-- ==== Sys2Proof/Machine/Codec.lean ====
section
/-! DEFINITION. One step of the machine: the CODEC's turn, one arm (R5, R160, R190), or one operation of the HOST
(R210 to R212, R290, R292). `ex` is what runs a decoded record or command: `exec` in the machine itself, `execWith p`
where the parameters are an argument. -/

namespace Sys2Proof.Machine

variable {HS : Type} {cb : Nat}

/-- What runs an instruction. -/
abbrev Exec (HS : Type) (cb : Nat) := Instr → State.Of HS cb → Host.Outcome (State.Of HS cb) Fault Refusal

/-- The meanings at given parameters. -/
def execWith (p : Params HS cb) : Exec HS cb
  | .frame bsid, s => frameRecord p bsid s
  | .comp len, s => compRecord p len s
  | .raw len, s => rawRecord p len s
  | .rle len, s => rleRecord p len s
  | .crc ck, s => crcRecord p ck s
  | .nop, s => nopCommand s
  | .encode, s => encodeCommand p s
  | .decode, s => decodeCommand p s
  | .clear, s => clearCommand s

/-! ## The decoder's fetches -/

/-- D_FRAMEHDR (R181): one read of five bytes, then the tests in the order of R181, then the record FRAME. -/
def armDFrameHdr (ex : Exec HS cb) (s : State.Of HS cb) : Host.Outcome (State.Of HS cb) Fault Refusal :=
  match decodeFH (srcRead 5 s).1 with
  | .error .short => .next (raise .ioError .dRdFrameHdr (srcRead 5 s).2)
  | .error .badMagic => .next (raise .formatError .dMagic (srcRead 5 s).2)
  | .error .badReserved => .next (raise .formatError .dReserved (srcRead 5 s).2)
  | .error .badId => .next (raise .formatError .dBsid (srcRead 5 s).2)
  | .ok (i, _) => ex i (srcRead 5 s).2

/-- D_AWAITHDR (R182): fetch one block header into HDR. -/
def armDAwaitHdr (s : State.Of HS cb) : Host.Outcome (State.Of HS cb) Fault Refusal :=
  let r := srcRead 3 s
  if r.1.length < 3 then .next (raise .ioError .dRdBlkHdr r.2)
  else .next { r.2 with hdr := hdrOfBytes r.1, fsm := .dDispatch }

/-! ## The CODEC's turn -/

/-- One arm, if the phase is BUSY (R16, R29); the block is quiescent in every other phase (R66). -/
def codecStep (p : Params HS cb) (ex : Exec HS cb) (s : State.Of HS cb) : Host.Outcome (State.Of HS cb) Fault Refusal :=
  if s.phase = .busy then
    match s.fsm with
    | .none => .next s
    | .eHeader => armEHeader p s
    | .eRead => armERead s
    | .eCompress => armECompress p s
    | .eEmit => armEEmit p s
    | .eTrailer => armETrailer p s
    | .dFrameHdr => armDFrameHdr ex s
    | .dAwaitHdr => armDAwaitHdr s
    | .dDispatch => ex (decodeHdr s.hdr) s
    | .dReadBody => ex (.raw s.len) s
    | .dSynth => ex (.rle s.len) s
    | .dEntropy => ex (.comp s.len) s
    | .dEmit => ex (recordOf s.typeTag s.len) s
    | .dVerify => ex (.crc s.ckStored) s
  else .next s

/-! ## The HOST's operations -/

/-- `CSR_READ(n)` (R210): the value goes to the HOST and nothing else changes. -/
def csrRead (n : Word32) (s : State.Of HS cb) : State.Of HS cb := { s with hostData := csrValue n s }

/-- Write to `CFG` (R212): dropped while BUSY and for a value above 11. -/
def writeCfg (v : Word32) (s : State.Of HS cb) : State.Of HS cb :=
  if s.phase ≠ .busy ∧ (v.extractLsb' 0 4).toNat ≤ MAX_BSID then { s with cfgBsid := v.extractLsb' 0 4 } else s

/-- `CSR_WRITE(n, v)` (R211): a write to `CMD` runs the command it encodes (R22, R103). -/
def csrWrite (ex : Exec HS cb) (n v : Word32) (s : State.Of HS cb) : Host.Outcome (State.Of HS cb) Fault Refusal :=
  if n = 0#32 then .next (writeCfg v s)
  else if n = 1#32 then ex (decodeCmd v) s
  else .next s

/-- The event `RESET` (R290): every state element to its reset value; what belongs to the environment stays. -/
def resetEvent (p : Params HS cb) (s : State.Of HS cb) : State.Of HS cb :=
  { State.Of.reset p.hashReset with
      srcRest := s.srcRest
      snkData := s.snkData
      hostIn := s.hostIn
      hostData := s.hostData
      snkReqs := s.snkReqs
      freeCtr := s.freeCtr }

/-- The HOST connects a source and a sink (R66, R292), outside a frame (U26). -/
def connect (src snk : Bytes) (s : State.Of HS cb) : Host.Outcome (State.Of HS cb) Fault Refusal :=
  if s.phase = .busy then .refused .reconnectWhileBusy
  else .next { s with srcRest := src, snkData := snk }

/-- One step: the HOST's next operation if it has one, else the CODEC's turn (R16; log entry 1). -/
def stepWith (p : Params HS cb) (ex : Exec HS cb) (s : State.Of HS cb) : Host.Outcome (State.Of HS cb) Fault Refusal :=
  match s.hostIn with
  | [] => codecStep p ex s
  | .run :: q => codecStep p ex { s with hostIn := q }
  | .csrRead n :: q => .next (csrRead n { s with hostIn := q })
  | .csrWrite n v :: q => csrWrite ex n v { s with hostIn := q }
  | .reset :: q => .next (resetEvent p { s with hostIn := q })
  | .connect src snk :: q => connect src snk { s with hostIn := q }

/-! ## Placing an instruction where the next step runs it -/

/-- `c` placed so that the very next step decodes and runs it: a frame header at the head of SRC with FSM at
D_FRAMEHDR, a block header in HDR with FSM at D_DISPATCH, a command as the HOST's next write of `CMD`. -/
def placeCode (c : Code) (s : State.Of HS cb) : State.Of HS cb :=
  match c with
  | .fh b =>
    { s with hostIn := .run :: s.hostIn, phase := .busy, mode := .dec, fsm := .dFrameHdr, srcRest := b ++ s.srcRest }
  | .bh b => { s with hostIn := .run :: s.hostIn, phase := .busy, mode := .dec, fsm := .dDispatch, hdr := hdrOfBytes b }
  | .cmd v => { s with hostIn := .csrWrite 1#32 v :: s.hostIn }

end Sys2Proof.Machine
end

