-- ==== Sys2Proof/Machine/Dispatch.lean ====
section
/-! DEFINITION. The dispatch: one arm per row of spec/opcode_table.json. -/

namespace Sys2Proof.Machine

def exec (i : Instr) (s : State) : Host.Outcome State Fault Refusal :=
  match i with
  | .frame bsid => Sys2Proof.Machine.execFrame bsid s
  | .comp len => Sys2Proof.Machine.execComp len s
  | .raw len => Sys2Proof.Machine.execRaw len s
  | .rle len => Sys2Proof.Machine.execRle len s
  | .crc ck => Sys2Proof.Machine.execCrc ck s
  | .nop => Sys2Proof.Machine.execNop s
  | .encode => Sys2Proof.Machine.execEncode s
  | .decode => Sys2Proof.Machine.execDecode s
  | .clear => Sys2Proof.Machine.execClear s

end Sys2Proof.Machine
end

