-- ==== Sys2Proof/Machine/Step.lean ====
section
/-! DEFINITION. The step of the machine at its own parameters, running decoded instructions by `exec`, and the
placing of an instruction's word where the next step runs it. -/

namespace Sys2Proof.Machine

/-- One step (R5, R16). -/
def step (s : State) : Host.Outcome State Fault Refusal := stepWith Config.params exec s

/-- `s` with the instruction of a table word placed where the very next step runs it (log entry 13). -/
def State.withFetchWord (s : State) (nbits w : Nat) : State :=
  match tableCode nbits w with
  | none => s
  | some c => placeCode c s

end Sys2Proof.Machine
end

