-- ==== Sys2Proof/Machine/Reference.lean ====
section
/-! DEFINITION. The codec as functions: the blocks and frame of `encode` (R169), `payload` and `decode` (R191), the
listing notation's records and `CRC auto` (R104, R105), and a run of the machine (R19). Claims about whole runs are
stated in terms of these; no step uses them. -/

namespace Sys2Proof.Machine

variable {HS : Type} {cb : Nat}

/-- `1024 << id` (R96). -/
def blockBytes (id : BitVec 4) : Nat := 1024 <<< id.toNat

/-- A header followed by a body (R91, R97). There is no record for a `field` of 2^22 or more: it "must never be
truncated into the header" (R95), and `PACK_HDR` refuses it (R124, U23; log entry 14). -/
def record (tag : BitVec 2) (field : Nat) (body : Bytes) : Option Bytes :=
  if field < FIELD_LIMIT then some ((packHdr tag (BitVec.ofNat 22 field)).toBytes ++ body) else none

/-! ## The encoder (R169) -/

/-- `block(q)` of R169; no result where the arms raise EncoderError (R163, R166), and none for a raw or rle block of
2^22 bytes or more, which no legal block size gives and no header can hold (R95, `record`). -/
def encodeBlock (p : Params HS cb) (q : Bytes) : Option Bytes :=
  match p.entCompress q with
  | .code0 => record 1#2 q.length q
  | .code1 => record 2#2 q.length [byteAt q 0]
  | .size body =>
    if FIELD_LIMIT ≤ body.length ∨ p.maxCompressed q.length < body.length then none
    else record 0#2 body.length body
  | .err _ => none

/-- `blocks(id, S)` of R169 with block size `size`, for at most `n` blocks. -/
def encodeBlocks (p : Params HS cb) (size : Nat) : Nat → Bytes → Option Bytes
  | 0, input => if input = [] then some [] else none
  | n + 1, input =>
    if input = [] then some []
    else
      match encodeBlock p (input.take size), encodeBlocks p size n (input.drop size) with
      | some b, some rest => some (b ++ rest)
      | _, _ => none

/-- The header of a frame, its data blocks and its trailer (R91). There is no frame for an `id` above 11, which
`PACK_DESC` refuses (R122, U23; log entry 14). -/
def frameOf (id : BitVec 4) (blocks : Bytes) (ck : BitVec 22) : Option Bytes :=
  if id.toNat ≤ MAX_BSID then some (packFrameHdr id ++ blocks ++ packTrailer ck) else none

/-- `encode(id, S)` of R169. -/
def encodeFrame (p : Params HS cb) (id : BitVec 4) (input : Bytes) : Option Bytes :=
  match encodeBlocks p (blockBytes id) input.length input with
  | none => none
  | some bs => frameOf id bs (ck22 (p.hash.hash input))

/-! ## The decoder (R191) -/

/-- What `decode` of R191 gives: the payload and how many bytes were consumed, or the error class and the payload
decoded before the error. -/
inductive DecodeResult where
  | ok (out : Bytes) (used : Nat)
  | fail (cls : ErrClass) (out : Bytes)
  deriving DecidableEq, Repr

/-- The length test of R183: what a data block's field may be at most. -/
def fieldBound (p : Params HS cb) (size : Nat) (tag : BitVec 2) : Nat :=
  if tag = 2#2 then size else p.maxCompressed size

/-- How many body bytes follow a header (R98). -/
def bodyLength (tag : BitVec 2) (field : BitVec 22) : Nat :=
  if tag = 2#2 then 1 else if tag = 3#2 then 0 else field.toNat

/-- `payload` of a data block (R191); no result where D_ENTROPY raises DecoderError (R187): the primitive fails
(S_D_DECOMP), or it answers more bytes than the block size (S_D_RSIZE). That the second case also makes a frame invalid,
where V6 of R100 says only "accepted by the entropy primitive", is the model's: DESIGN CHOICE, unsafe, log entry 15. -/
def blockPayload (p : Params HS cb) (size : Nat) (tag : BitVec 2) (field : BitVec 22) (body : Bytes) : Option Bytes :=
  if tag = 1#2 then some body
  else if tag = 2#2 then some (rep (byteAt body 0) field.toNat)
  else
    match p.entDecompress size body with
    | .len q => if size < q.length then none else some q
    | .err _ => none

/-- The loop of R191 over at most `n` headers: `out` is the payload so far, `pos` the bytes consumed so far. -/
def decodeBlocks (p : Params HS cb) (size : Nat) : Nat → Bytes → Nat → Bytes → DecodeResult
  | 0, _, _, out => .fail .ioError out
  | n + 1, f, pos, out =>
    if f.length < 3 then .fail .ioError out
    else
      let tag := (unpackHdr (hdrOfBytes f)).1
      let field := (unpackHdr (hdrOfBytes f)).2
      if tag = 3#2 then
        if ck22 (p.hash.hash out) = field then .ok out (pos + 3) else .fail .checksumError out
      else if fieldBound p size tag < field.toNat then .fail .formatError out
      else if (f.drop 3).length < bodyLength tag field then .fail .ioError out
      else
        match blockPayload p size tag field ((f.drop 3).take (bodyLength tag field)) with
        | none => .fail .decoderError out
        | some q =>
          decodeBlocks p size n ((f.drop 3).drop (bodyLength tag field)) (pos + 3 + bodyLength tag field) (out ++ q)

/-- `decode(F)` of R191. Every header takes three bytes, so `|F| + 1` headers are never all used. -/
def decodeFrame (p : Params HS cb) (f : Bytes) : DecodeResult :=
  match decodeFH f with
  | .error .short => .fail .ioError []
  | .error _ => .fail .formatError []
  | .ok (.frame id, rest) => decodeBlocks p (blockBytes id) (rest.length + 1) rest 5 []
  | .ok _ => .fail .formatError []

/-! ## Listings (R104, R105) -/

/-- One line of a listing. -/
inductive ListingRec where
  | comp (body : Bytes)
  | raw (body : Bytes)
  | rle (len : BitVec 22) (byte : Byte)
  deriving DecidableEq, Repr

/-- The bytes of a listed data block (R97, R104); none for a body of 2^22 bytes or more (R95, `record`). -/
def ListingRec.bytes : ListingRec → Option Bytes
  | .comp body => record 0#2 body.length body
  | .raw body => record 1#2 body.length body
  | .rle len byte => record 2#2 len.toNat [byte]

/-- The bytes of listed data blocks, in order (R104). -/
def listedBlocks : List ListingRec → Option Bytes
  | [] => some []
  | r :: rs =>
    match r.bytes, listedBlocks rs with
    | some b, some bs => some (b ++ bs)
    | _, _ => none

/-- The bytes of `FRAME bsid=id`, the listed blocks, and `CRC ck` (R104). -/
def listingBytes (id : BitVec 4) (blocks : List ListingRec) (ck : BitVec 22) : Option Bytes :=
  match listedBlocks blocks with
  | none => none
  | some bs => frameOf id bs ck

/-- `CRC auto` (R105) for the payloads of the listed blocks. -/
def crcAuto (p : Params HS cb) (payloads : List Bytes) : BitVec 22 := ck22 (p.hash.hash payloads.flatten)

/-! ## Runs (R19) -/

/-- One step at given parameters. -/
def stepAt (p : Params HS cb) (s : State.Of HS cb) : Host.Outcome (State.Of HS cb) Fault Refusal :=
  stepWith p (execWith p) s

/-- `k` steps at given parameters, stopping at the first fault or refusal. -/
def runAt (p : Params HS cb) : Nat → State.Of HS cb → Host.Outcome (State.Of HS cb) Fault Refusal
  | 0, s => .next s
  | k + 1, s =>
    match stepAt p s with
    | .next t => runAt p k t
    | .fault r => .fault r
    | .refused r => .refused r

end Sys2Proof.Machine
end

