-- ==== Sys2Proof/Safety.lean ====
section
/-! DEFINITION. What the claims are stated in: the named premises about the environment (R64, R235), the validity
of a frame (R100), and the invariant of reachable states (R45). -/

namespace Sys2Proof.Machine

variable {HS : Type} {cb : Nat}

/-! ## Named premises about the open parameters -/

/-- `SnkTotal` (R64): a sink that never fails. -/
def SnkTotal (p : Params HS cb) : Prop := ∀ hist bs, p.snkFail hist bs = bs.length

/-- `ent_bound` (R235). -/
def EntBound (p : Params HS cb) : Prop :=
  ∀ q body, p.entCompress q = .size body → 2 ≤ body.length ∧ body.length ≤ p.maxCompressed q.length

/-- `ent_rle_sound` (R235). -/
def EntRleSound (p : Params HS cb) : Prop := ∀ q, p.entCompress q = .code1 → ∀ b ∈ q, b = byteAt q 0

/-- `ent_rle_complete` (R235). -/
def EntRleComplete (p : Params HS cb) : Prop :=
  ∀ q, (∀ b ∈ q, b = byteAt q 0) → 2 ≤ q.length → p.entCompress q = .code1

/-- `ent_roundtrip` (R235). -/
def EntRoundtrip (p : Params HS cb) : Prop :=
  ∀ q body cap, p.entCompress q = .size body → q.length ≤ cap → p.entDecompress cap body = .len q

/-- `ent_cap` (R235). -/
def EntCap (p : Params HS cb) : Prop := ∀ cap b q, p.entDecompress cap b = .len q → q.length ≤ cap

/-- `ent_noerr` (R235). -/
def EntNoErr (p : Params HS cb) : Prop :=
  ∀ q e, 1 ≤ q.length → q.length ≤ MAX_BLKSIZE → p.entCompress q ≠ .err e

/-! ## Valid frames (R100) -/

/-- One data block with its payload: V2, V3, V4 and V6 of R100 for block size `size`. V6 says "accepted by the entropy
primitive"; the model reads it as an answer `Len` of at most `size` bytes, the capacity it was asked with, as R187 and
R191 need it (`blockPayload`). DESIGN CHOICE, unsafe: log entry 15. -/
structure ValidBlock (p : Params HS cb) (size : Nat) (bytes pay : Bytes) : Prop where
  shape : ∃ tag field body, bytes = (packHdr tag field).toBytes ++ body ∧ tag ≠ 3#2
    ∧ body.length = bodyLength tag field ∧ field.toNat ≤ fieldBound p size tag
    ∧ blockPayload p size tag field body = some pay

/-- A list of data blocks and the list of their payloads. -/
inductive ValidBlocks (p : Params HS cb) (size : Nat) : Bytes → Bytes → Prop where
  | nil : ValidBlocks p size [] []
  | cons (b pay bs pays : Bytes) : ValidBlock p size b pay → ValidBlocks p size bs pays →
      ValidBlocks p size (b ++ bs) (pay ++ pays)

/-- `F` is a valid frame for `id` that stands for the payload `pay` (R100, V1 to V6). -/
def ValidFrame (p : Params HS cb) (id : BitVec 4) (f pay : Bytes) : Prop :=
  id.toNat ≤ MAX_BSID ∧ ∃ bs, ValidBlocks p (blockBytes id) bs pay
    ∧ f = packFrameHdr id ++ bs ++ packTrailer (ck22 (p.hash.hash pay))

/-! ## The invariant (R45) -/

/-- The encoder's arms (R29). -/
def Fsm.isEnc : Fsm → Bool
  | .eHeader | .eRead | .eCompress | .eEmit | .eTrailer => true
  | _ => false

/-- The decoder's arms (R29). -/
def Fsm.isDec : Fsm → Bool
  | .dFrameHdr | .dAwaitHdr | .dDispatch | .dReadBody | .dSynth | .dEntropy | .dEmit | .dVerify => true
  | _ => false

/-- The registers of R45: I1 to I6, in every state. -/
structure RegInv (s : State) : Prop where
  /-- I1 -/
  cfg : s.cfgBsid.toNat ≤ MAX_BSID
  /-- I2 -/
  busy : s.phase = .busy ↔ s.fsm ≠ .none
  /-- I3 -/
  err : s.errClass ≠ .none ↔ s.phase = .error
  /-- The table of R252: the class recorded is the site's. -/
  site : s.errClass = siteClass s.errSite
  /-- I4 -/
  blk : s.fsm ≠ .none → s.fsm ≠ .eHeader → s.fsm ≠ .dFrameHdr →
    s.bsidF.toNat ≤ MAX_BSID ∧ s.blkSize = blockSize s.bsidF
  /-- I5: INSIZE never passes BLKSIZE. -/
  inSize : s.inSize.toNat ≤ s.blkSize.toNat
  /-- I6 -/
  hash : s.h.memSize.toNat = s.h.total.toNat % 16
  /-- The encoder runs in mode ENC and the decoder in mode DEC (R23, R214, R215). -/
  modeEnc : s.fsm.isEnc = true → s.mode = .enc
  modeDec : s.fsm.isDec = true → s.mode = .dec

/-- What the arms leave for the arm that follows: a block that is not empty (R162), and the bounds of R183 to R188
that keep every slice inside its buffer (R44). -/
structure ArmInv (p : Params HS cb) (s : State.Of HS cb) : Prop where
  compress : s.fsm = .eCompress → 1 ≤ s.inSize.toNat
  emit : s.fsm = .eEmit → s.typeTag ≠ 3#2
    ∧ (s.typeTag = 0#2 → s.cSize.toNat ≤ p.maxCompressed s.blkSize.toNat)
  body : s.fsm = .dReadBody → s.typeTag = 1#2 ∧ s.len.toNat ≤ p.maxCompressed s.blkSize.toNat
  synth : s.fsm = .dSynth → s.typeTag = 2#2 ∧ s.len.toNat ≤ s.blkSize.toNat
  entropy : s.fsm = .dEntropy → s.typeTag = 0#2 ∧ s.len.toNat ≤ p.maxCompressed s.blkSize.toNat
  payload : s.fsm = .dEmit → s.typeTag ≠ 3#2
    ∧ (s.paySel = .c → s.rSize.toNat ≤ p.maxCompressed s.blkSize.toNat)
    ∧ (s.paySel = .r → s.rSize.toNat ≤ s.blkSize.toNat)

/-- Both buffers are in canonical form and inside their built size (R44). -/
structure BufInv (p : Params HS cb) (s : State.Of HS cb) : Prop where
  rawWf : Memory.wf s.rawBuf = true
  rawIn : Memory.within rawBufSize s.rawBuf = true
  cWf : Memory.wf s.cBuf = true
  cIn : Memory.within (cBufSize p) s.cBuf = true

/-- The invariant of reachable states, at the decided `HASH` (I6 speaks of its registers). -/
structure Inv (p : Params (HashRegs Config.countBits) Config.countBits) (s : State) : Prop where
  reg : RegInv s
  arm : ArmInv p s
  buf : BufInv p s

/-- The HOST's next operation is one the model gives a meaning in this phase (U26). -/
def hostReady (s : State.Of HS cb) : Bool :=
  match s.hostIn with
  | .connect _ _ :: _ => decide (s.phase ≠ .busy)
  | _ => true

end Sys2Proof.Machine
end

