-- ==== Sys2Proof/Certificates/Slice0/Obligations.lean ====
section
/-! DEFINITION. The statements for the provers, taken from the numbered rules of spec/. "Model's choice" in a
docstring names the log entry a clause rests on where the spec leaves it open. Statements about arms are for every
record of parameters `p`, `HASH` with its state type `HS` and `COUNT_BITS` (`cb`) among them; `StepRunsAtConfigParams`
ties them to `step`. -/

open Sys2Proof Sys2Proof.Machine

/-! ## Encodings -/

/-- R92, R94, R103: decoding the code of a well-formed instruction gives it back, with the bytes that follow it. -/
def Obligations.DecodeInvertsEncode : Prop :=
  ∀ i : Instr, i.wellFormed = true →
    decode (encode i) = .ok (i, []) ∧
    ∀ b rest, (encode i = .fh b → decode (.fh (b ++ rest)) = .ok (i, rest)) ∧
      (encode i = .bh b → decode (.bh (b ++ rest)) = .ok (i, rest))

/-- R92, R94, R98: what the decoder accepts is exactly the code of a well-formed instruction and the bytes after it. -/
def Obligations.EncodeInvertsDecode : Prop :=
  (∀ b i rest, decode (.fh b) = .ok (i, rest) →
    i.wellFormed = true ∧ ∃ c, encode i = .fh c ∧ c.length = 5 ∧ b = c ++ rest) ∧
  (∀ b i rest, decode (.bh b) = .ok (i, rest) →
    i.wellFormed = true ∧ ∃ c, encode i = .bh c ∧ c.length = 3 ∧ b = c ++ rest)

/-- R126, laws L1 to L5. -/
def Obligations.PackerLaws : Prop :=
  (∀ t f, unpackHdr (packHdr t f) = (t, f)) ∧
  (∀ h, packHdr (unpackHdr h).1 (unpackHdr h).2 = h) ∧
  (∀ id : BitVec 4, id.toNat ≤ 11 → unpackDesc (packDesc id) = .ok id) ∧
  checkMagic packMagic = true ∧
  (∀ t f, (packHdr t f).b0.toNat * 65536 + (packHdr t f).b1.toNat * 256 + (packHdr t f).b2.toNat
    = t.toNat * 4194304 + f.toNat)

/-- R95, R124 and R125: the arithmetic of the pseudocode, from values to bytes and back; and a field of 2^22 or more is
never truncated into a header: the record, the block or the listed block that would need it does not exist (U23
"refuse"), and where there is one, its header reads back the whole length. -/
def Obligations.HeaderBytesArithmetic : Prop :=
  (∀ t f, (packHdr t f).b0.toNat = t.toNat * 64 + f.toNat >>> 16 ∧
    (packHdr t f).b1.toNat = (f.toNat >>> 8) &&& 0xFF ∧
    (packHdr t f).b2.toNat = f.toNat &&& 0xFF) ∧
  (∀ h, (unpackHdr h).1.toNat = h.b0.toNat >>> 6 ∧
    (unpackHdr h).2.toNat = (h.b0.toNat &&& 0x3F) * 65536 + h.b1.toNat * 256 + h.b2.toNat) ∧
  (∀ tag n body b, record tag n body = some b →
    (unpackHdr (hdrOfBytes b)).1 = tag ∧ (unpackHdr (hdrOfBytes b)).2.toNat = n ∧ b.drop 3 = body) ∧
  (∀ tag n body, 4194304 ≤ n → record tag n body = none) ∧
  (∀ (HS : Type) (cb : Nat) (p : Params HS cb) (q : Bytes), 4194304 ≤ q.length →
    p.entCompress q = .code0 ∨ p.entCompress q = .code1 → encodeBlock p q = none) ∧
  (∀ body : Bytes, 4194304 ≤ body.length → (ListingRec.raw body).bytes = none ∧ (ListingRec.comp body).bytes = none)

/-- R123: the verdict on each descriptor byte, reserved bits first. -/
def Obligations.DescriptorVerdicts : Prop :=
  ∀ d : Byte, unpackDesc d =
    if d.toNat / 16 ≠ 0 then .badReserved
    else if 11 < d.toNat % 16 then .badId
    else .ok (BitVec.ofNat 4 d.toNat)

/-- R103: the two low bits are the command and the others are ignored. -/
def Obligations.CommandHighBitsIgnored : Prop :=
  ∀ v : Word32, decodeCmd v =
    if v.toNat % 4 = 0 then .nop
    else if v.toNat % 4 = 1 then .encode
    else if v.toNat % 4 = 2 then .decode
    else .clear

/-- Words written out from R92, R94, R103 and the vectors B14 to B25 of 95_test_vectors.md. -/
def Obligations.KnownWordsDecode : Prop :=
  decode (.fh [0x08#8, 0x23#8, 0x3E#8, 0x18#8, 0x0B#8]) = .ok (.frame 11#4, []) ∧
  decode (.bh [0x01#8, 0x23#8, 0x45#8]) = .ok (.comp 0x012345#22, []) ∧
  decode (.bh [0x60#8, 0x00#8, 0x00#8]) = .ok (.raw 2097152#22, []) ∧
  decode (.bh [0x80#8, 0x04#8, 0x00#8]) = .ok (.rle 1024#22, []) ∧
  decode (.bh [0xD6#8, 0x62#8, 0xE8#8]) = .ok (.crc 0x1662E8#22, []) ∧
  decode (.cmd 0xFFFFFFFE#32) = .ok (.decode, [])

/-! ## The checksum accumulator -/

/-- R144: absorbing two pieces is absorbing their concatenation, and `H.MEMSIZE = H.TOTAL mod 16` is kept. -/
def Obligations.ChunkingLaw : Prop :=
  (∀ (cb : Nat) (h : HashRegs cb) (a b : Bytes),
    let x := XXH32.update (XXH32.update h a) b
    let y := XXH32.update h (a ++ b)
    x.v1 = y.v1 ∧ x.v2 = y.v2 ∧ x.v3 = y.v3 ∧ x.v4 = y.v4 ∧ x.total = y.total ∧ x.memSize = y.memSize ∧
      memValid x = memValid y ∧ XXH32.final x = XXH32.final y) ∧
  (∀ junk, let h : HashRegs Config.countBits := xxhInit junk
    h.memSize.toNat = h.total.toNat % 16) ∧
  (∀ (h : HashRegs Config.countBits) (a : Bytes), h.memSize.toNat = h.total.toNat % 16 →
    (XXH32.update h a).memSize.toNat = (XXH32.update h a).total.toNat % 16)

/-- R142, R145: the hash of a byte sequence does not depend on what `H_INIT` leaves in `H.MEM`. The contents are a
free value of the model (log entry 5); this holds for every one. -/
def Obligations.HashIgnoresFreeContents : Prop :=
  ∀ (j k : Vector Byte 16) (s : Bytes), hashOf j s = hashOf k s

/-- R143, corner cases: an empty update changes nothing, and fewer than 16 pending bytes are only staged. -/
def Obligations.ShortUpdateOnlyStages : Prop :=
  (∀ (cb : Nat) (h : HashRegs cb), XXH32.update h [] = h) ∧
  (∀ (cb : Nat) (h : HashRegs cb) (s : Bytes), h.memSize.toNat + s.length < 16 →
    (XXH32.update h s).v1 = h.v1 ∧ (XXH32.update h s).v2 = h.v2 ∧ (XXH32.update h s).v3 = h.v3 ∧
      (XXH32.update h s).v4 = h.v4 ∧ memValid (XXH32.update h s) = memValid h ++ s)

/-- R143: sixteen bytes absorbed with nothing pending are one stripe of four little-endian lanes (R69). -/
def Obligations.StripeFoldsFourLanes : Prop :=
  ∀ (cb : Nat) (h : HashRegs cb) (s : Bytes), h.memSize = 0#4 → s.length = 16 →
    (XXH32.update h s).v1 = xxhRound h.v1 (rdLE32 s 0) ∧ (XXH32.update h s).v2 = xxhRound h.v2 (rdLE32 s 4) ∧
    (XXH32.update h s).v3 = xxhRound h.v3 (rdLE32 s 8) ∧ (XXH32.update h s).v4 = xxhRound h.v4 (rdLE32 s 12) ∧
    (XXH32.update h s).total = h.total + 16#cb ∧ (XXH32.update h s).memSize = 0#4

/-- R142: what H_INIT writes, with some unspecified content of `H.MEM` after it, and that the state keeps all else.
That content is a free value of the model, counted by `freeCtr` (log entry 5). -/
def Obligations.HashInitRegisters : Prop :=
  ∀ s : State, ∃ junk : Vector Byte 16,
    hInit Config.params s = { s with
      h := ⟨0x24234428#32, 0x85EBCA77#32, 0x00000000#32, 0x61C8864F#32, 0#Config.countBits, junk, 0#4⟩
      freeCtr := s.freeCtr + 1 } ∧ XXH32.final (hInit Config.params s).h = 0x02CC5D05#32

/-- R146: `CK22(h) = (h >> 5) & 0x3FFFFF`. -/
def Obligations.ChecksumReduction : Prop :=
  ∀ x : Word32, (ck22 x).toNat = (x.toNat >>> 5) &&& 0x3FFFFF

/-! ## Ports and buffers -/

/-- R61: a source read. -/
def Obligations.SourceReadConsumes : Prop :=
  ∀ (HS : Type) (cb : Nat) (n : Nat) (s : State.Of HS cb),
    (srcRead n s).1 = s.srcRest.take (min n s.srcRest.length) ∧
    (srcRead n s).2 = { s with
      srcRest := s.srcRest.drop (min n s.srcRest.length)
      inCount := s.inCount + BitVec.ofNat cb (min n s.srcRest.length) } ∧
    (srcRead 0 s) = ([], s)

/-- R63: a sink write, for every sink; `snkReqs` is the model's own index into the environment's draw (log entry 6). -/
def Obligations.SinkWriteAppendsPrefix : Prop :=
  ∀ (HS : Type) (cb : Nat) (p : Params HS cb) (bs : Bytes) (s : State.Of HS cb),
    ∃ k, k ≤ bs.length ∧ (snkWrite p bs s).1 = k ∧
    (snkWrite p bs s).2 = { s with
      snkData := s.snkData ++ bs.take k
      outCount := s.outCount + BitVec.ofNat cb k
      snkReqs := (snkWrite p bs s).2.snkReqs } ∧
    (snkWrite p [] s) = (0, s)

/-- R262: `raise` writes four registers and nothing else. -/
def Obligations.RaiseWritesFourRegisters : Prop :=
  ∀ (HS : Type) (cb : Nat) (cls : ErrClass) (site : ErrSite) (s : State.Of HS cb),
    raise cls site s = { s with errClass := cls, errSite := site, phase := .error, fsm := .none } ∧
    (errWord (raise cls site s)).toNat = 256 * (siteCode site).toNat + (classCode cls).toNat ∧
    (statusWord (raise cls site s)).toNat = 3 + 4 * (modeCode s.mode).toNat

/-! ## Reset -/

/-- R50, R291: the reset values the spec gives. -/
def Obligations.ResetValues : Prop :=
  State.reset.cfgBsid = 5#4 ∧ State.reset.phase = .idle ∧ State.reset.mode = .enc ∧
  csrValue 0#32 State.reset = 5#32 ∧ csrValue 2#32 State.reset = 0#32 ∧ csrValue 3#32 State.reset = 0#32 ∧
  State.reset.inCount = 0#Config.countBits ∧ State.reset.outCount = 0#Config.countBits ∧ State.reset.ckStored = 0#22 ∧
  State.reset.ckCalc = 0#22 ∧ State.reset.bsidF = 0#4 ∧ State.reset.fsm = .none

/-- R290: the event RESET in any state puts the registers to the values of R50 and leaves SRC and SNK alone. -/
def Obligations.ResetEventRestores : Prop :=
  ∀ (s : State) (q : List HostOp), s.hostIn = .reset :: q →
    ∃ t, step s = .next t ∧ t.srcRest = s.srcRest ∧ t.snkData = s.snkData ∧ t.hostIn = q ∧
      t.cfgBsid = 5#4 ∧ t.phase = .idle ∧ t.mode = .enc ∧ t.errClass = .none ∧ t.errSite = .none ∧
      t.inCount = 0#Config.countBits ∧ t.outCount = 0#Config.countBits ∧ t.ckStored = 0#22 ∧
      t.ckCalc = 0#22 ∧ t.bsidF = 0#4 ∧ t.fsm = .none

/-! ## The host port -/

/-- R210 with the map of R28: the value a register read returns, and that a read changes nothing of the block.
`hostData` is where the model puts the value (log entry 1). -/
def Obligations.RegisterReadMap : Prop :=
  ∀ (s : State) (n : Word32) (q : List HostOp), s.hostIn = .csrRead n :: q →
    ∃ v : Word32, step s = .next { s with hostIn := q, hostData := v } ∧
      (n.toNat = 0 → v.toNat = s.cfgBsid.toNat) ∧
      (n.toNat = 1 → v.toNat = 0) ∧
      (n.toNat = 2 → v.toNat = (phaseCode s.phase).toNat + 4 * (modeCode s.mode).toNat) ∧
      (n.toNat = 3 → v.toNat = (classCode s.errClass).toNat + 256 * (siteCode s.errSite).toNat) ∧
      (n.toNat = 4 → v.toNat = s.inCount.toNat % 4294967296) ∧
      (n.toNat = 5 → v.toNat = s.inCount.toNat / 4294967296) ∧
      (n.toNat = 6 → v.toNat = s.outCount.toNat % 4294967296) ∧
      (n.toNat = 7 → v.toNat = s.outCount.toNat / 4294967296) ∧
      (n.toNat = 8 → v.toNat = s.ckStored.toNat) ∧
      (n.toNat = 9 → v.toNat = s.ckCalc.toNat) ∧
      (n.toNat = 10 → v.toNat = s.bsidF.toNat) ∧
      (10 < n.toNat → v.toNat = 0)

/-- R212: a write to CFG. -/
def Obligations.ConfigWrite : Prop :=
  ∀ (s : State) (v : Word32) (q : List HostOp), s.hostIn = .csrWrite 0#32 v :: q →
    (s.phase ≠ .busy → v.toNat % 16 ≤ 11 →
      step s = .next { s with hostIn := q, cfgBsid := BitVec.ofNat 4 v.toNat }) ∧
    (s.phase = .busy ∨ 11 < v.toNat % 16 → step s = .next { s with hostIn := q })

/-- R211: a write to a read-only or unimplemented register changes nothing. -/
def Obligations.OtherWritesIgnored : Prop :=
  ∀ (s : State) (n v : Word32) (q : List HostOp), s.hostIn = .csrWrite n v :: q → 2 ≤ n.toNat →
    step s = .next { s with hostIn := q }

/-- R219: the level outputs mirror the phase, and both fall when CLEAR is accepted. -/
def Obligations.LevelOutputs : Prop :=
  ∀ s : State, (doneOut s = true ↔ s.phase = .done) ∧ (errorOut s = true ↔ s.phase = .error) ∧
    (doneOut s = true ∨ errorOut s = true →
      ∃ t, exec .clear s = .next t ∧ doneOut t = false ∧ errorOut t = false)

/-! ## Commands: completion and effect -/

/-- R213: NOP changes nothing, in every phase. -/
def Obligations.NopChangesNothing : Prop := ∀ s : State, exec .nop s = .next s

/-- R214, R217: ENCODE. Both buffers then hold unspecified bytes (R44), free values of the model counted by `freeCtr`
(log entry 4). -/
def Obligations.EncodeCommand : Prop :=
  ∀ s : State,
    (s.phase = .idle → ∃ raw c, exec .encode s = .next { s with
      mode := .enc, phase := .busy, errClass := .none, errSite := .none,
      inCount := 0#Config.countBits, outCount := 0#Config.countBits,
      ckStored := 0#22, ckCalc := 0#22, fsm := .eHeader, rawBuf := raw, cBuf := c, freeCtr := s.freeCtr + 1 }) ∧
    (s.phase ≠ .idle → exec .encode s = .next s)

/-- R215, R217: DECODE. Both buffers then hold unspecified bytes (R44), free values of the model counted by `freeCtr`
(log entry 4). -/
def Obligations.DecodeCommand : Prop :=
  ∀ s : State,
    (s.phase = .idle → ∃ raw c, exec .decode s = .next { s with
      mode := .dec, phase := .busy, errClass := .none, errSite := .none,
      inCount := 0#Config.countBits, outCount := 0#Config.countBits,
      ckStored := 0#22, ckCalc := 0#22, fsm := .dFrameHdr, rawBuf := raw, cBuf := c, freeCtr := s.freeCtr + 1 }) ∧
    (s.phase ≠ .idle → exec .decode s = .next s)

/-- R216: CLEAR. -/
def Obligations.ClearCommand : Prop :=
  ∀ s : State,
    (s.phase = .done ∨ s.phase = .error →
      exec .clear s = .next { s with phase := .idle, errClass := .none, errSite := .none }) ∧
    (s.phase = .idle ∨ s.phase = .busy → exec .clear s = .next s)

/-! ## Records: completion, effect and frame -/

/-- R181, R30, R142: FRAME with a legal `blockSizeId`. INSIZE is kept unless it would be out of its range (R45, log
entry 12); all other fields are kept. `freeCtr` is the model's own (log entries 5 and 12). -/
def Obligations.FrameRecord : Prop :=
  ∀ (id : BitVec 4) (s : State), id.toNat ≤ 11 →
    ∃ t, exec (.frame id) s = .next t ∧
      t = { s with
        bsidF := id, blkSize := t.blkSize, inSize := t.inSize, h := t.h
        freeCtr := s.freeCtr + 2, fsm := .dAwaitHdr } ∧
      t.blkSize.toNat = 1024 <<< id.toNat ∧ t.inSize.toNat ≤ t.blkSize.toNat ∧
      (s.inSize.toNat ≤ t.blkSize.toNat → t.inSize = s.inSize) ∧
      t.h.v1 = 0x24234428#32 ∧ t.h.v2 = 0x85EBCA77#32 ∧ t.h.v3 = 0#32 ∧ t.h.v4 = 0x61C8864F#32 ∧
      t.h.total = 0#Config.countBits ∧ t.h.memSize = 0#4

/-- R181: D_FRAMEHDR, with every rejection in its order. The accepting clause rests on the model's choices: what
H_INIT leaves in `H.MEM` (log entry 5), and INSIZE where it would be out of its range (log entry 12). -/
def Obligations.FrameHeaderArm : Prop :=
  ∀ (HS : Type) (cb : Nat) (p : Params HS cb) (s : State.Of HS cb), s.phase = .busy → s.fsm = .dFrameHdr →
    let r := { s with
      srcRest := s.srcRest.drop 5
      inCount := s.inCount + BitVec.ofNat cb (min 5 s.srcRest.length) }
    let d := (byteAt s.srcRest 4).toNat
    (s.srcRest.length < 5 → codecStep p (execWith p) s = .next (raise .ioError .dRdFrameHdr r)) ∧
    (5 ≤ s.srcRest.length → s.srcRest.take 4 ≠ [0x08#8, 0x23#8, 0x3E#8, 0x18#8] →
      codecStep p (execWith p) s = .next (raise .formatError .dMagic r)) ∧
    (5 ≤ s.srcRest.length → s.srcRest.take 4 = [0x08#8, 0x23#8, 0x3E#8, 0x18#8] → d / 16 ≠ 0 →
      codecStep p (execWith p) s = .next (raise .formatError .dReserved r)) ∧
    (5 ≤ s.srcRest.length → s.srcRest.take 4 = [0x08#8, 0x23#8, 0x3E#8, 0x18#8] → d / 16 = 0 → 11 < d % 16 →
      codecStep p (execWith p) s = .next (raise .formatError .dBsid r)) ∧
    (5 ≤ s.srcRest.length → s.srcRest.take 4 = [0x08#8, 0x23#8, 0x3E#8, 0x18#8] → d ≤ 11 →
      ∃ t, codecStep p (execWith p) s = .next t ∧
        t = { hInit p { r with freeCtr := s.freeCtr + 1 } with
          bsidF := BitVec.ofNat 4 d, blkSize := t.blkSize, inSize := t.inSize, fsm := .dAwaitHdr } ∧
        t.blkSize.toNat = 1024 <<< d ∧ t.inSize.toNat ≤ t.blkSize.toNat ∧
        (s.inSize.toNat ≤ t.blkSize.toNat → t.inSize = s.inSize))

/-- R182: D_AWAITHDR. -/
def Obligations.AwaitHeaderArm : Prop :=
  ∀ (HS : Type) (cb : Nat) (p : Params HS cb) (s : State.Of HS cb), s.phase = .busy → s.fsm = .dAwaitHdr →
    (∀ b0 b1 b2 rest, s.srcRest = b0 :: b1 :: b2 :: rest →
      codecStep p (execWith p) s = .next { s with
        srcRest := rest, inCount := s.inCount + 3#cb, hdr := ⟨b0, b1, b2⟩, fsm := .dDispatch }) ∧
    (s.srcRest.length < 3 →
      codecStep p (execWith p) s = .next (raise .ioError .dRdBlkHdr { s with
        srcRest := [], inCount := s.inCount + BitVec.ofNat cb s.srcRest.length }))

/-- R183, R184: D_DISPATCH on each type tag, with the inclusive bounds. -/
def Obligations.DispatchByType : Prop :=
  ∀ (HS : Type) (cb : Nat) (p : Params HS cb) (s : State.Of HS cb), s.phase = .busy → s.fsm = .dDispatch →
    let tag := (unpackHdr s.hdr).1
    let f := (unpackHdr s.hdr).2
    let u := { s with typeTag := tag, len := f }
    (tag = 3#2 → codecStep p (execWith p) s = .next { u with ckStored := f, fsm := .dVerify }) ∧
    (tag = 1#2 → codecStep p (execWith p) s = .next
      (if p.maxCompressed s.blkSize.toNat < f.toNat then raise .formatError .dLenRaw u
       else { u with fsm := .dReadBody })) ∧
    (tag = 2#2 → codecStep p (execWith p) s = .next
      (if s.blkSize.toNat < f.toNat then raise .formatError .dLenRle u else { u with fsm := .dSynth })) ∧
    (tag = 0#2 → codecStep p (execWith p) s = .next
      (if p.maxCompressed s.blkSize.toNat < f.toNat then raise .formatError .dLenComp u
       else { u with fsm := .dEntropy }))

/-- R183, R184: each record met at D_DISPATCH, as `exec` answers for it. All other fields are kept. -/
def Obligations.RecordDispatch : Prop :=
  ∀ (n : BitVec 22) (s : State), s.fsm = .dDispatch →
    exec (.raw n) s = .next (if Config.params.maxCompressed s.blkSize.toNat < n.toNat
      then raise .formatError .dLenRaw { s with typeTag := 1#2, len := n }
      else { s with typeTag := 1#2, len := n, fsm := .dReadBody }) ∧
    exec (.rle n) s = .next (if s.blkSize.toNat < n.toNat
      then raise .formatError .dLenRle { s with typeTag := 2#2, len := n }
      else { s with typeTag := 2#2, len := n, fsm := .dSynth }) ∧
    exec (.comp n) s = .next (if Config.params.maxCompressed s.blkSize.toNat < n.toNat
      then raise .formatError .dLenComp { s with typeTag := 0#2, len := n }
      else { s with typeTag := 0#2, len := n, fsm := .dEntropy }) ∧
    exec (.crc n) s = .next { s with typeTag := 3#2, len := n, ckStored := n, fsm := .dVerify }

/-- R185: RAW at D_READBODY; bytes of CBUF past the body and all other fields are kept. -/
def Obligations.RawReadsBody : Prop :=
  ∀ (n : BitVec 22) (s : State), s.fsm = .dReadBody →
    (s.srcRest.length < s.len.toNat →
      exec (.raw n) s = .next (raise .ioError .dRdRaw { s with
        srcRest := [], inCount := s.inCount + BitVec.ofNat Config.countBits s.srcRest.length })) ∧
    (s.len.toNat ≤ s.srcRest.length → s.len.toNat ≤ cBufSize Config.params →
      ∃ t, exec (.raw n) s = .next t ∧
        t = { s with
          srcRest := s.srcRest.drop s.len.toNat
          inCount := s.inCount + BitVec.ofNat Config.countBits s.len.toNat
          cBuf := t.cBuf, rSize := s.len, paySel := .c, fsm := .dEmit } ∧
        Memory.slice t.cBuf 0 s.len.toNat = s.srcRest.take s.len.toNat ∧
        ∀ a, s.len.toNat ≤ a → Memory.read t.cBuf a = Memory.read s.cBuf a)

/-- R186: RLE at D_SYNTH; bytes of RAWBUF past the run and all other fields are kept. -/
def Obligations.RleSynthesizes : Prop :=
  ∀ (n : BitVec 22) (s : State), s.fsm = .dSynth →
    (s.srcRest = [] → exec (.rle n) s = .next (raise .ioError .dRdRle s)) ∧
    (∀ b rest, s.srcRest = b :: rest → s.len.toNat ≤ 2097152 →
      ∃ t, exec (.rle n) s = .next t ∧
        t = { s with
          srcRest := rest, inCount := s.inCount + 1#Config.countBits, rleByte := b
          rawBuf := t.rawBuf, rSize := s.len, paySel := .r, fsm := .dEmit } ∧
        Memory.slice t.rawBuf 0 s.len.toNat = List.replicate s.len.toNat b ∧
        ∀ a, s.len.toNat ≤ a → Memory.read t.rawBuf a = Memory.read s.rawBuf a)

/-- R187: COMP at D_ENTROPY, for each answer of the primitive; bytes past the slices written and all other fields
are kept. -/
def Obligations.CompDecompresses : Prop :=
  ∀ (n : BitVec 22) (s : State), s.fsm = .dEntropy →
    (s.srcRest.length < s.len.toNat →
      exec (.comp n) s = .next (raise .ioError .dRdComp { s with
        srcRest := [], inCount := s.inCount + BitVec.ofNat Config.countBits s.srcRest.length })) ∧
    (s.len.toNat ≤ s.srcRest.length → s.len.toNat ≤ cBufSize Config.params → s.blkSize.toNat ≤ 2097152 →
      ∃ c t, Memory.slice c 0 s.len.toNat = s.srcRest.take s.len.toNat ∧
        (∀ a, s.len.toNat ≤ a → Memory.read c a = Memory.read s.cBuf a) ∧
        exec (.comp n) s = .next t ∧
        let u := { s with
          srcRest := s.srcRest.drop s.len.toNat
          inCount := s.inCount + BitVec.ofNat Config.countBits s.len.toNat
          cBuf := c }
        match Config.params.entDecompress s.blkSize.toNat (s.srcRest.take s.len.toNat) with
        | .err _ => t = raise .decoderError .dDecomp u
        | .len q =>
          (s.blkSize.toNat < q.length → t = raise .decoderError .dRSize u) ∧
          (q.length ≤ s.blkSize.toNat →
            t = { u with rawBuf := t.rawBuf, rSize := BitVec.ofNat 22 q.length, paySel := .r, fsm := .dEmit } ∧
            Memory.slice t.rawBuf 0 q.length = q ∧
            ∀ a, q.length ≤ a → Memory.read t.rawBuf a = Memory.read s.rawBuf a))

/-- R188: D_EMIT for RAW, RLE and COMP: the selected payload is written, then absorbed; a short write is IOError at
the record's own site. Both buffers and all other fields are kept. -/
def Obligations.PayloadEmitted : Prop :=
  ∀ (n : BitVec 22) (s : State) (pay : Bytes), s.fsm = .dEmit →
    (s.paySel = .c → pay = Memory.slice s.cBuf 0 s.rSize.toNat ∧ s.rSize.toNat ≤ cBufSize Config.params) →
    (s.paySel = .r → pay = Memory.slice s.rawBuf 0 s.rSize.toNat ∧ s.rSize.toNat ≤ 2097152) →
    let k := snkAccepts Config.params pay s
    ∃ r, r = { s with
          snkData := s.snkData ++ pay.take k
          outCount := s.outCount + BitVec.ofNat Config.countBits k
          snkReqs := r.snkReqs } ∧
      let done := { r with h := XXH32.update s.h pay, fsm := .dAwaitHdr }
      exec (.raw n) s = .next (if k < s.rSize.toNat then raise .ioError .dWrRaw r else done) ∧
      exec (.rle n) s = .next (if k < s.rSize.toNat then raise .ioError .dWrRle r else done) ∧
      exec (.comp n) s = .next (if k < s.rSize.toNat then raise .ioError .dWrComp r else done)

/-- R189: CRC at D_VERIFY. All other fields are kept; that the buffers keep their bytes past the frame's end is the
model's choice (R44, log entry 4). -/
def Obligations.CrcVerifies : Prop :=
  ∀ (ck : BitVec 22) (s : State), s.fsm = .dVerify →
    let c := ck22 (XXH32.final s.h)
    (c ≠ s.ckStored →
      exec (.crc ck) s = .next { s with
        ckCalc := c, errClass := .checksumError, errSite := .dChecksum, phase := .error, fsm := .none }) ∧
    (c = s.ckStored → exec (.crc ck) s = .next { s with ckCalc := c, phase := .done, fsm := .none })

/-! ## The encoder's arms -/

/-- R161: E_HEADER. INSIZE is kept unless it would be out of its range (R45, log entry 12). `snkReqs` and `freeCtr` are
the model's own (log entries 5, 6 and 12). -/
def Obligations.EncoderHeaderArm : Prop :=
  ∀ (HS : Type) (cb : Nat) (p : Params HS cb) (s : State.Of HS cb),
    s.phase = .busy → s.fsm = .eHeader → s.cfgBsid.toNat ≤ 11 →
    let fh := [0x08#8, 0x23#8, 0x3E#8, 0x18#8, BitVec.ofNat 8 s.cfgBsid.toNat]
    ∃ k r, k = snkAccepts p fh s ∧
      r = { s with
        bsidF := s.cfgBsid, blkSize := r.blkSize, inSize := r.inSize, freeCtr := s.freeCtr + 1
        snkData := s.snkData ++ fh.take k
        outCount := s.outCount + BitVec.ofNat cb k
        snkReqs := s.snkReqs + 1 } ∧
      r.blkSize.toNat = 1024 <<< s.cfgBsid.toNat ∧ r.inSize.toNat ≤ r.blkSize.toNat ∧
      (s.inSize.toNat ≤ r.blkSize.toNat → r.inSize = s.inSize) ∧
      codecStep p (execWith p) s = .next
        (if k < 5 then raise .ioError .eWrFrameHdr r else { hInit p r with fsm := .eRead })

/-- R162: E_READ. -/
def Obligations.ReadBlockArm : Prop :=
  ∀ (HS : Type) (cb : Nat) (p : Params HS cb) (s : State.Of HS cb),
    s.phase = .busy → s.fsm = .eRead → s.blkSize.toNat ≤ 2097152 →
    let n := min s.blkSize.toNat s.srcRest.length
    ∃ t, codecStep p (execWith p) s = .next t ∧
      t = { s with
        srcRest := s.srcRest.drop n
        inCount := s.inCount + BitVec.ofNat cb n
        inSize := BitVec.ofNat 22 n
        rawBuf := t.rawBuf
        fsm := if n = 0 then .eTrailer else .eCompress } ∧
      Memory.slice t.rawBuf 0 n = s.srcRest.take n ∧
      ∀ a, n ≤ a → Memory.read t.rawBuf a = Memory.read s.rawBuf a

/-- R163 to R166: E_COMPRESS, for each answer of the primitive. -/
def Obligations.CompressArm : Prop :=
  ∀ (HS : Type) (cb : Nat) (p : Params HS cb) (s : State.Of HS cb), s.phase = .busy → s.fsm = .eCompress →
    1 ≤ s.inSize.toNat → s.inSize.toNat ≤ 2097152 →
    let q := Memory.slice s.rawBuf 0 s.inSize.toNat
    let u := { s with h := p.hash.update s.h q }
    ∃ t, codecStep p (execWith p) s = .next t ∧
      match p.entCompress q with
      | .err _ => t = raise .encoderError .eCompress u
      | .code0 => t = { u with typeTag := 1#2, len := s.inSize, fsm := .eEmit }
      | .code1 => t = { u with typeTag := 2#2, len := s.inSize, rleByte := Memory.read s.rawBuf 0, fsm := .eEmit }
      | .size body =>
        (4194304 ≤ body.length ∨ p.maxCompressed s.inSize.toNat < body.length →
          t = raise .encoderError .eBound u) ∧
        (body.length < 4194304 → body.length ≤ p.maxCompressed s.inSize.toNat →
          t = { u with
            cBuf := t.cBuf, cSize := BitVec.ofNat 22 body.length, typeTag := 0#2
            len := BitVec.ofNat 22 body.length, fsm := .eEmit } ∧
          Memory.slice t.cBuf 3 body.length = body ∧
          ∀ a, a < 3 ∨ 3 + body.length ≤ a → Memory.read t.cBuf a = Memory.read s.cBuf a)

/-- R167: E_EMIT for each type. -/
def Obligations.EmitRecordArm : Prop :=
  ∀ (HS : Type) (cb : Nat) (p : Params HS cb) (s : State.Of HS cb) (body : Bytes) (site : ErrSite),
    s.phase = .busy → s.fsm = .eEmit →
    (s.typeTag = 1#2 ∧ s.inSize.toNat ≤ 2097152 ∧ body = Memory.slice s.rawBuf 0 s.inSize.toNat ∧ site = .eWrRaw
      ∨ s.typeTag = 2#2 ∧ body = [s.rleByte] ∧ site = .eWrRle
      ∨ s.typeTag = 0#2 ∧ 3 + s.cSize.toNat ≤ cBufSize p ∧ body = Memory.slice s.cBuf 3 s.cSize.toNat
        ∧ site = .eWrComp) →
    let rec3 := (packHdr s.typeTag s.len).toBytes
    ∃ k r, k = snkAccepts p (rec3 ++ body) s ∧
      r = { s with
        cBuf := r.cBuf
        snkData := s.snkData ++ (rec3 ++ body).take k
        outCount := s.outCount + BitVec.ofNat cb k
        snkReqs := s.snkReqs + 1 } ∧
      Memory.slice r.cBuf 0 3 = rec3 ∧
      (∀ a, 3 ≤ a → Memory.read r.cBuf a = Memory.read s.cBuf a) ∧
      codecStep p (execWith p) s =
        .next (if k < 3 + body.length then raise .ioError site r else { r with fsm := .eRead })

/-- R168: E_TRAILER. That the buffers keep their bytes past the frame's end is the model's choice (R44, log entry 4);
`snkReqs` is the model's own (log entry 6). -/
def Obligations.TrailerArm : Prop :=
  ∀ (HS : Type) (cb : Nat) (p : Params HS cb) (s : State.Of HS cb), s.phase = .busy → s.fsm = .eTrailer →
    let c := ck22 (p.hash.final s.h)
    let tr := (packHdr 3#2 c).toBytes
    let k := snkAccepts p tr s
    let r := { s with
      ckCalc := c
      snkData := s.snkData ++ tr.take k
      outCount := s.outCount + BitVec.ofNat cb k
      snkReqs := s.snkReqs + 1 }
    codecStep p (execWith p) s = .next
      (if k < 3 then raise .ioError .eWrTrailer r else { r with phase := .done, fsm := .none })

/-! ## The step -/

/-- The machine's step is the step at its own parameters, so statements for every `p` speak of it. -/
def Obligations.StepRunsAtConfigParams : Prop :=
  (∀ i s, exec i s = execWith Config.params i s) ∧ (∀ s, step s = stepAt Config.params s)

/-- R90, R103, R181 to R183: a step runs the decoded instruction. A command is the HOST's write of CMD, a block
header stands in HDR, a frame header at the head of SRC. What the step adds: it takes the HOST's operation off
`hostIn` (log entry 1), and for a frame header it consumes the five bytes. -/
def Obligations.StepRunsDecodedInstruction : Prop :=
  (∀ (s : State) (v : Word32) (q : List HostOp) (i : Instr) (r : Bytes), s.hostIn = .csrWrite 1#32 v :: q →
    decode (.cmd v) = .ok (i, r) → step s = exec i { s with hostIn := q }) ∧
  (∀ (s : State) (i : Instr) (r : Bytes), s.hostIn = [] ∨ s.hostIn.head? = some .run → s.phase = .busy →
    s.fsm = .dDispatch → decode (.bh s.hdr.toBytes) = .ok (i, r) →
    step s = exec i { s with hostIn := s.hostIn.tail }) ∧
  (∀ (s : State) (i : Instr) (r : Bytes), s.hostIn = [] ∨ s.hostIn.head? = some .run → s.phase = .busy →
    s.fsm = .dFrameHdr → decode (.fh s.srcRest) = .ok (i, r) →
    step s = exec i { s with hostIn := s.hostIn.tail, srcRest := r, inCount := s.inCount + 5#Config.countBits })

/-- R183 to R189: the arms after D_DISPATCH run the record in progress, named by FSM, TYPE and LEN. The step takes the
HOST's `run` off `hostIn` if there is one (log entry 1). -/
def Obligations.StepContinuesRecord : Prop :=
  ∀ s : State, s.hostIn = [] ∨ s.hostIn.head? = some .run → s.phase = .busy →
    let u := { s with hostIn := s.hostIn.tail }
    (s.fsm = .dReadBody → step s = exec (.raw s.len) u) ∧
    (s.fsm = .dSynth → step s = exec (.rle s.len) u) ∧
    (s.fsm = .dEntropy → step s = exec (.comp s.len) u) ∧
    (s.fsm = .dEmit → s.typeTag = 1#2 → step s = exec (.raw s.len) u) ∧
    (s.fsm = .dEmit → s.typeTag = 2#2 → step s = exec (.rle s.len) u) ∧
    (s.fsm = .dEmit → s.typeTag = 0#2 → step s = exec (.comp s.len) u) ∧
    (s.fsm = .dEmit → s.typeTag = 3#2 → step s = exec (.crc s.len) u) ∧
    (s.fsm = .dVerify → step s = exec (.crc s.ckStored) u)

/-! ## Whole-machine rules -/

/-- R45 (I1 to I6), R252, R44: every step keeps the invariant. I5 rests on the model's choice for INSIZE where a smaller
block size would leave it out of range (log entry 12). -/
def Obligations.StepKeepsInv : Prop :=
  ∀ s t : State, Inv Config.params s → step s = .next t → Inv Config.params t

/-- The reset state meets the invariant. It rests on the model's choices for unspecified registers (log entry 3). -/
def Obligations.ResetMeetsInv : Prop := Inv Config.params State.reset

/-- R44, R183, R190: no state that meets the invariant stops: no slice leaves its buffer and every arm has a
successor. The one HOST operation left out is a reconnect during a frame (U26, log entry 2). -/
def Obligations.InvStatesNeverStop : Prop :=
  ∀ s : State, Inv Config.params s → hostReady s = true → ∃ t, step s = .next t

/-- R45 (I7), R25, R26, R74: the CODEC consumes SRC from its head, appends to SNK, and the counters follow. -/
def Obligations.CountersFollowStreams : Prop :=
  ∀ (HS : Type) (cb : Nat) (p : Params HS cb) (s t : State.Of HS cb), codecStep p (execWith p) s = .next t →
    ∃ n x, n ≤ s.srcRest.length ∧ t.srcRest = s.srcRest.drop n ∧ t.inCount = s.inCount + BitVec.ofNat cb n ∧
      t.snkData = s.snkData ++ x ∧ t.outCount = s.outCount + BitVec.ofNat cb x.length

/-- R66, R75: outside a frame nothing but the HOST's own connect touches SRC or SNK, and the CODEC does nothing. -/
def Obligations.QuiescentOutsideFrames : Prop :=
  ∀ s t : State, s.phase ≠ .busy → (∀ src snk q, s.hostIn ≠ .connect src snk :: q) → step s = .next t →
    t.srcRest = s.srcRest ∧ t.snkData = s.snkData ∧ t.snkReqs = s.snkReqs ∧ (s.hostIn = [] → t = s)

/-- R23, R168, R189, R190: DONE is entered only from E_TRAILER, or from D_VERIFY with equal checksums. -/
def Obligations.DoneOnlyThroughTrailer : Prop :=
  ∀ s t : State, step s = .next t → t.phase = .done →
    s.phase = .done ∨
      (s.phase = .busy ∧ (s.fsm = .eTrailer ∨ s.fsm = .dVerify ∧ t.ckCalc = t.ckStored ∧ t.ckStored = s.ckStored))

/-- R263, R264: an error is sticky until CLEAR (or RESET). -/
def Obligations.ErrorIsSticky : Prop :=
  ∀ s t : State, s.phase = .error → step s = .next t →
    (∀ v q, s.hostIn = .csrWrite 1#32 v :: q → v.toNat % 4 ≠ 3) → (∀ q, s.hostIn ≠ .reset :: q) →
    t.phase = .error ∧ t.errClass = s.errClass ∧ t.errSite = s.errSite

/-- R21, R293: the decoder never reads CFG: two states that differ in it only do the same; and no arm writes it. -/
def Obligations.DecoderIgnoresConfig : Prop :=
  ∀ (HS : Type) (cb : Nat) (p : Params HS cb) (s : State.Of HS cb) (c : BitVec 4),
    (s.fsm.isDec = true →
      codecStep p (execWith p) { s with cfgBsid := c } =
        match codecStep p (execWith p) s with
        | .next t => .next { t with cfgBsid := c }
        | .fault r => .fault r
        | .refused r => .refused r) ∧
    (∀ t, codecStep p (execWith p) s = .next t → t.cfgBsid = s.cfgBsid)

/-- Where the model stops (log entry 8; U11, U23, U26), each by its own name: a slice past the built end of a buffer
in each arm that has one, E_EMIT and D_EMIT for a CRC, and the three refusals. -/
def Obligations.StopsByName : Prop :=
  (∀ (HS : Type) (cb : Nat) (p : Params HS cb) (n : BitVec 22) (s : State.Of HS cb), s.fsm = .dReadBody →
    s.len.toNat ≤ s.srcRest.length → cBufSize p < s.len.toNat → execWith p (.raw n) s = .fault .bufferOverrun) ∧
  (∀ (HS : Type) (cb : Nat) (p : Params HS cb) (n : BitVec 22) (s : State.Of HS cb), s.fsm = .dSynth → s.srcRest ≠ [] →
    2097152 < s.len.toNat → execWith p (.rle n) s = .fault .bufferOverrun) ∧
  (∀ (HS : Type) (cb : Nat) (p : Params HS cb) (n : BitVec 22) (s : State.Of HS cb), s.fsm = .dEntropy →
    s.len.toNat ≤ s.srcRest.length → cBufSize p < s.len.toNat → execWith p (.comp n) s = .fault .bufferOverrun) ∧
  (∀ (HS : Type) (cb : Nat) (p : Params HS cb) (n : BitVec 22) (s : State.Of HS cb) (q : Bytes), s.fsm = .dEntropy →
    s.len.toNat ≤ s.srcRest.length → s.len.toNat ≤ cBufSize p →
    p.entDecompress s.blkSize.toNat (s.srcRest.take s.len.toNat) = .len q → q.length ≤ s.blkSize.toNat →
    2097152 < q.length → execWith p (.comp n) s = .fault .bufferOverrun) ∧
  (∀ (HS : Type) (cb : Nat) (p : Params HS cb) (n : BitVec 22) (s : State.Of HS cb), s.fsm = .dEmit →
    s.paySel = .c ∧ cBufSize p < s.rSize.toNat ∨ s.paySel = .r ∧ 2097152 < s.rSize.toNat →
    execWith p (.raw n) s = .fault .bufferOverrun ∧ execWith p (.rle n) s = .fault .bufferOverrun ∧
      execWith p (.comp n) s = .fault .bufferOverrun) ∧
  (∀ (HS : Type) (cb : Nat) (p : Params HS cb) (ck : BitVec 22) (s : State.Of HS cb), s.fsm = .dEmit →
    execWith p (.crc ck) s = .fault .emitCrc) ∧
  (∀ (HS : Type) (cb : Nat) (p : Params HS cb) (s : State.Of HS cb), s.phase = .busy →
    (s.fsm = .eHeader → 11 < s.cfgBsid.toNat → codecStep p (execWith p) s = .refused .packDescAbove11) ∧
    (s.fsm = .eRead → 2097152 < min s.blkSize.toNat s.srcRest.length →
      codecStep p (execWith p) s = .fault .bufferOverrun) ∧
    (s.fsm = .eCompress → s.inSize = 0#22 → codecStep p (execWith p) s = .refused .entCompressEmpty) ∧
    (s.fsm = .eCompress → 2097152 < s.inSize.toNat → codecStep p (execWith p) s = .fault .bufferOverrun) ∧
    (s.fsm = .eEmit → s.typeTag = 1#2 ∧ 2097152 < s.inSize.toNat ∨
        s.typeTag = 0#2 ∧ cBufSize p < 3 + s.cSize.toNat →
      codecStep p (execWith p) s = .fault .bufferOverrun) ∧
    (s.fsm = .eEmit → s.typeTag = 3#2 → codecStep p (execWith p) s = .fault .emitCrc)) ∧
  (∀ (s : State) (src snk : Bytes) (q : List HostOp), s.phase = .busy → s.hostIn = .connect src snk :: q →
    step s = .refused .reconnectWhileBusy)

/-! ## Whole frames -/

/-- R169: from IDLE, with a sink that never fails and a primitive that makes `encode` defined, the run started by
ENCODE ends in DONE with exactly the frame of R169 appended. -/
def Obligations.EncodeRunMatchesReference : Prop :=
  ∀ (HS : Type) (cb : Nat) (p : Params HS cb) (s : State.Of HS cb) (fr : Bytes),
    SnkTotal p → s.phase = .idle → s.cfgBsid.toNat ≤ 11 →
    s.hostIn = [.csrWrite 1#32 1#32] → encodeFrame p s.cfgBsid s.srcRest = some fr →
    ∃ k t, runAt p k s = .next t ∧ t.phase = .done ∧ t.snkData = s.snkData ++ fr ∧ t.srcRest = [] ∧
      t.inCount = BitVec.ofNat cb s.srcRest.length ∧ t.outCount = BitVec.ofNat cb fr.length ∧
      t.ckCalc = ck22 (p.hash.hash s.srcRest) ∧ t.errClass = .none

/-- R191, R192: from IDLE, with a sink that never fails, the run started by DECODE ends as `decode` of R191 says: in
DONE with the payload appended and the bytes after the trailer unread, or in ERROR with the class and the payload
decoded before the error. -/
def Obligations.DecodeRunMatchesReference : Prop :=
  ∀ (HS : Type) (cb : Nat) (p : Params HS cb) (s : State.Of HS cb),
    SnkTotal p → s.phase = .idle → s.hostIn = [.csrWrite 1#32 2#32] →
    ∃ k t, runAt p k s = .next t ∧
      match decodeFrame p s.srcRest with
      | .ok out used => t.phase = .done ∧ t.snkData = s.snkData ++ out ∧
          t.outCount = BitVec.ofNat cb out.length ∧ t.inCount = BitVec.ofNat cb used ∧
          t.srcRest = s.srcRest.drop used ∧ t.ckCalc = t.ckStored
      | .fail cls out => t.phase = .error ∧ t.errClass = cls ∧ t.snkData = s.snkData ++ out

/-- R193: round trip, for every `blockSizeId` in 0..11, given `ent_roundtrip` and `ent_rle_sound`. -/
def Obligations.RoundTrip : Prop :=
  ∀ (HS : Type) (cb : Nat) (p : Params HS cb) (id : BitVec 4) (input fr : Bytes),
    EntRoundtrip p → EntRleSound p → id.toNat ≤ 11 →
    encodeFrame p id input = some fr → decodeFrame p fr = .ok input fr.length

/-- R170 (c), R100: the frame the encoder emits is valid and stands for the input. -/
def Obligations.EncodedFrameIsValid : Prop :=
  ∀ (HS : Type) (cb : Nat) (p : Params HS cb) (id : BitVec 4) (input fr : Bytes),
    EntRoundtrip p → EntRleSound p → id.toNat ≤ 11 →
    encodeFrame p id input = some fr → ValidFrame p id fr input

/-- R100, R191: every valid frame decodes to the payload it stands for, whatever follows it (R192). That a valid frame
has no compressed block whose answer is longer than the block size is the model's choice (V6, log entry 15). -/
def Obligations.ValidFrameDecodes : Prop :=
  ∀ (HS : Type) (cb : Nat) (p : Params HS cb) (id : BitVec 4) (fr pay rest : Bytes), ValidFrame p id fr pay →
    decodeFrame p (fr ++ rest) = .ok pay fr.length

/-- R170 (a): empty input gives magic, descriptor and trailer, eight bytes, whatever the primitive does; above 11 there
is no frame (U23 "refuse", log entry 14). -/
def Obligations.EmptyInputFrame : Prop :=
  ∀ (HS : Type) (cb : Nat) (p : Params HS cb) (id : BitVec 4), ∃ tr,
    encodeFrame p id [] =
      (if id.toNat ≤ 11 then some ([0x08#8, 0x23#8, 0x3E#8, 0x18#8, BitVec.ofNat 8 id.toNat] ++ tr) else none) ∧
    tr = (packHdr 3#2 (ck22 (p.hash.hash []))).toBytes ∧ tr.length = 3

/-- R170 (d): a block of `n >= 2` equal bytes with `n` at most the block size gives a frame of 12 bytes, given
`ent_rle_complete`: the header, one RLE record and the trailer. -/
def Obligations.SingleSymbolFrame : Prop :=
  ∀ (HS : Type) (cb : Nat) (p : Params HS cb) (id : BitVec 4) (b : Byte) (n : Nat),
    EntRleComplete p → id.toNat ≤ 11 → 2 ≤ n →
    n ≤ 1024 <<< id.toNat →
    ∃ fr, encodeFrame p id (List.replicate n b) = some fr ∧ fr.length = 12 ∧
      fr = [0x08#8, 0x23#8, 0x3E#8, 0x18#8, BitVec.ofNat 8 id.toNat]
        ++ ((packHdr 2#2 (BitVec.ofNat 22 n)).toBytes ++ [b])
        ++ (packHdr 3#2 (ck22 (p.hash.hash (List.replicate n b)))).toBytes
end

