-- ==== Sys2Proof/Laws/Decode.lean ====
section
/-! SUPPORT. What the encoding tables say, as lemmas: the magic, the frame header the decoder accepts, and the header
it always accepts. -/

namespace Sys2Proof

theorem packFrameHdr_eq (id : BitVec 4) : packFrameHdr id = [0x08#8, 0x23#8, 0x3E#8, 0x18#8, packDesc id] := by
  have : packMagic = [0x08#8, 0x23#8, 0x3E#8, 0x18#8] := by decide
  simp [packFrameHdr, this]

theorem packDesc_eq : ∀ id : BitVec 4, packDesc id = BitVec.ofNat 8 id.toNat := by decide

theorem packFrameHdr_length (id : BitVec 4) : (packFrameHdr id).length = 5 := by simp [packFrameHdr_eq]

@[simp] theorem toBytes_length (h : HdrBytes) : h.toBytes.length = 3 := rfl

@[simp] theorem hdrOfBytes_toBytes (h : HdrBytes) (r : Bytes) : hdrOfBytes (h.toBytes ++ r) = h := rfl

/-- The magic test is a test of the four bytes (R121). -/
theorem checkMagic_iff (b0 b1 b2 b3 : Byte) (rest : Bytes) :
    checkMagic (b0 :: b1 :: b2 :: b3 :: rest) = true ↔ b0 = 0x08#8 ∧ b1 = 0x23#8 ∧ b2 = 0x3E#8 ∧ b3 = 0x18#8 := by
  have e : rdLE32 (b0 :: b1 :: b2 :: b3 :: rest) 0 = b3 ++ b2 ++ b1 ++ b0 := rfl
  have m : MAGIC = (0x18#8 ++ 0x3E#8 ++ 0x23#8 ++ 0x08#8 : BitVec 32) := by decide
  unfold checkMagic
  rw [beq_iff_eq, e, m]
  constructor
  · intro h
    have key := congrArg BitVec.toNat h
    simp only [BitVec.toNat_append] at key
    have h0 := b0.isLt
    have h1 := b1.isLt
    have h2 := b2.isLt
    have h3 := b3.isLt
    rw [← Nat.shiftLeft_add_eq_or_of_lt h0, ← Nat.shiftLeft_add_eq_or_of_lt h1,
      ← Nat.shiftLeft_add_eq_or_of_lt h2] at key
    simp only [Nat.shiftLeft_eq] at key
    simp at key
    refine ⟨?_, ?_, ?_, ?_⟩ <;> apply BitVec.eq_of_toNat_eq <;> simp <;> omega
  · rintro ⟨rfl, rfl, rfl, rfl⟩; rfl

/-- A descriptor that passes is the packed one (R122, R123). -/
theorem unpackDesc_ok : ∀ d id, unpackDesc d = .ok id → d = packDesc id ∧ id.toNat ≤ 11 := by decide

theorem unpackDesc_packDesc : ∀ id : BitVec 4, id.toNat ≤ 11 → unpackDesc (packDesc id) = .ok id := by decide

/-- Five bytes or more, split as the frame header's. -/
theorem five_bytes {b : Bytes} (h : 5 ≤ b.length) :
    ∃ b0 b1 b2 b3 b4 rest, b = b0 :: b1 :: b2 :: b3 :: b4 :: rest := by
  match b, h with
  | b0 :: b1 :: b2 :: b3 :: b4 :: rest, _ => exact ⟨b0, b1, b2, b3, b4, rest, rfl⟩
  | [], h => simp at h
  | [_], h => simp at h
  | [_, _], h => simp at h
  | [_, _, _], h => simp at h
  | [_, _, _, _], h => simp at h

/-- What the decoder accepts where a frame header is due (R92, R101). -/
theorem decodeFH_ok (b : Bytes) (i : Instr) (r : Bytes) :
    decodeFH b = .ok (i, r) ↔ ∃ id : BitVec 4, id.toNat ≤ 11 ∧ i = .frame id ∧ b = packFrameHdr id ++ r := by
  constructor
  · intro h
    unfold decodeFH at h
    split at h
    · cases h
    split at h
    · cases h
    rename_i hl hm
    obtain ⟨b0, b1, b2, b3, b4, rest, rfl⟩ := five_bytes (Nat.le_of_not_lt hl)
    rw [Bool.not_eq_false] at hm
    obtain ⟨rfl, rfl, rfl, rfl⟩ := (checkMagic_iff b0 b1 b2 b3 _).mp hm
    split at h
    · cases h
    · cases h
    · rename_i id hid
      obtain ⟨hd, hle⟩ := unpackDesc_ok _ _ hid
      cases h
      refine ⟨id, hle, rfl, ?_⟩
      rw [packFrameHdr_eq]
      exact congrArg (fun x => _ :: _ :: _ :: _ :: x :: rest) hd
  · rintro ⟨id, hle, rfl, rfl⟩
    rw [packFrameHdr_eq]
    unfold decodeFH
    have hm := (checkMagic_iff 0x08#8 0x23#8 0x3E#8 0x18#8 (packDesc id :: r)).mpr ⟨rfl, rfl, rfl, rfl⟩
    have hb : byteAt (0x08#8 :: 0x23#8 :: 0x3E#8 :: 0x18#8 :: packDesc id :: r) 4 = packDesc id := rfl
    simp only [List.cons_append, List.nil_append, hm, hb, unpackDesc_packDesc id hle]
    simp

/-- Why the decoder rejects a frame header, test by test in the order of R181. -/
theorem decodeFH_cases (b : Bytes) :
    (b.length < 5 ∧ decodeFH b = .error .short) ∨
    (5 ≤ b.length ∧ checkMagic b = false ∧ decodeFH b = .error .badMagic) ∨
    (5 ≤ b.length ∧ checkMagic b = true ∧ unpackDesc (byteAt b 4) = .badReserved ∧
      decodeFH b = .error .badReserved) ∨
    (5 ≤ b.length ∧ checkMagic b = true ∧ unpackDesc (byteAt b 4) = .badId ∧ decodeFH b = .error .badId) ∨
    (∃ id : BitVec 4, 5 ≤ b.length ∧ checkMagic b = true ∧ unpackDesc (byteAt b 4) = .ok id ∧ id.toNat ≤ 11 ∧
      decodeFH b = .ok (.frame id, b.drop 5)) := by
  unfold decodeFH
  rcases Nat.lt_or_ge b.length 5 with h | h
  · exact .inl ⟨h, if_pos h⟩
  · right
    rw [if_neg (Nat.not_lt.mpr h)]
    cases hm : checkMagic b with
    | false => exact .inl ⟨h, rfl, if_pos rfl⟩
    | true =>
      right
      rw [if_neg (by decide)]
      cases hd : unpackDesc (byteAt b 4) with
      | badReserved => exact .inl ⟨h, rfl, rfl, rfl⟩
      | badId => exact .inr (.inl ⟨h, rfl, rfl, rfl⟩)
      | ok id => exact .inr (.inr ⟨id, h, rfl, rfl, (unpackDesc_ok _ _ hd).2, rfl⟩)

end Sys2Proof
end

