-- ==== Sys2Proof/Laws/Memory.lean ====
section
/-! SUPPORT. The laws of a buffer: a byte read after a write, a slice read after a write, and that writing keeps the
canonical form and the built size. -/

namespace Sys2Proof.Machine

@[simp] theorem Memory.read_nil (a : Nat) : Memory.read [] a = 0#8 := rfl

theorem Memory.read_cons (c : Host.Cell) (m : Memory) (a : Nat) :
    Memory.read (c :: m) a = if c.1 = a then c.2 else Memory.read m a := rfl

/-- A listed part that holds no entry at `a` does not matter to the read of `a`. -/
theorem Memory.read_append_left {m : Memory} {a : Nat} (h : ∀ c ∈ m, c.1 ≠ a) (n : Memory) :
    Memory.read (m ++ n) a = Memory.read n a := by
  induction m with
  | nil => rfl
  | cons c m ih =>
    rw [List.cons_append, Memory.read_cons, if_neg (h c (by simp))]
    exact ih fun d hd => h d (by simp [hd])

theorem Memory.read_of_forall_ne {m : Memory} {a : Nat} (h : ∀ c ∈ m, c.1 ≠ a) : Memory.read m a = 0#8 := by
  simpa using Memory.read_append_left h []

/-- A trailing part that holds no entry at `a` does not matter to the read of `a`. -/
theorem Memory.read_append_right (m : Memory) {n : Memory} {a : Nat} (h : ∀ c ∈ n, c.1 ≠ a) :
    Memory.read (m ++ n) a = Memory.read m a := by
  induction m with
  | nil => simpa using Memory.read_of_forall_ne h
  | cons c m ih => rw [List.cons_append, Memory.read_cons, Memory.read_cons, ih]

/-- Dropping entries at other indices does not matter to the read of `a`. -/
theorem Memory.read_filter (m : Memory) (f : Host.Cell → Bool) (a : Nat) (h : ∀ c : Host.Cell, c.1 = a → f c = true) :
    Memory.read (m.filter f) a = Memory.read m a := by
  induction m with
  | nil => rfl
  | cons c m ih =>
    by_cases hc : c.1 = a
    · rw [List.filter_cons_of_pos (h c hc), Memory.read_cons, Memory.read_cons, if_pos hc, if_pos hc]
    · by_cases hf : f c = true
      · rw [List.filter_cons_of_pos hf, Memory.read_cons, Memory.read_cons, if_neg hc, if_neg hc, ih]
      · rw [List.filter_cons_of_neg hf, Memory.read_cons, if_neg hc, ih]

theorem Memory.cells_bounds (base : Nat) (bs : Bytes) :
    ∀ c ∈ Memory.cells base bs, base ≤ c.1 ∧ c.1 < base + bs.length ∧ c.2 ≠ 0#8 := by
  induction bs generalizing base with
  | nil => intro c hc; simp [Memory.cells] at hc
  | cons b bs ih =>
    intro c hc
    unfold Memory.cells at hc
    split at hc
    · obtain ⟨h1, h2, h3⟩ := ih _ c hc
      simp only [List.length_cons]
      exact ⟨by omega, by omega, h3⟩
    · rcases List.mem_cons.mp hc with rfl | hc
      · simp_all
      · obtain ⟨h1, h2, h3⟩ := ih _ c hc
        simp only [List.length_cons]
        exact ⟨by omega, by omega, h3⟩

theorem Memory.read_cells (base : Nat) (bs : Bytes) (a : Nat) (h1 : base ≤ a) (h2 : a < base + bs.length) :
    Memory.read (Memory.cells base bs) a = byteAt bs (a - base) := by
  induction bs generalizing base with
  | nil => simp at h2; omega
  | cons b bs ih =>
    have hlen : a < base + 1 + bs.length := by simp only [List.length_cons] at h2; omega
    unfold Memory.cells
    by_cases ha : a = base
    · subst ha
      split
      · rw [Memory.read_of_forall_ne]
        · simp [byteAt, *]
        · intro c hc
          have := Memory.cells_bounds _ _ c hc
          omega
      · simp [Memory.read_cons, byteAt]
    · have hstep : byteAt (b :: bs) (a - base) = byteAt bs (a - (base + 1)) := by
        obtain ⟨k, rfl⟩ : ∃ k, a = base + 1 + k := ⟨a - (base + 1), by omega⟩
        rw [show base + 1 + k - base = k + 1 by omega, show base + 1 + k - (base + 1) = k by omega]
        simp [byteAt]
      rw [hstep, ← ih (base + 1) (by omega) hlen]
      split
      · rfl
      · rw [Memory.read_cons, if_neg (by omega)]

/-- Reading one byte after a write: the byte written inside the slice, the old byte outside it. -/
theorem Memory.read_write (m : Memory) (base : Nat) (bs : Bytes) (a : Nat) :
    Memory.read (Memory.write m base bs) a =
      if base ≤ a ∧ a < base + bs.length then byteAt bs (a - base) else Memory.read m a := by
  unfold Memory.write
  by_cases h1 : a < base
  · rw [if_neg (by omega), List.append_assoc, Memory.read_append_right, Memory.read_filter]
    · intro c hc; simpa [hc] using h1
    · intro c hc
      rcases List.mem_append.mp hc with hc | hc
      · have := Memory.cells_bounds _ _ c hc; omega
      · have := (List.mem_filter.mp hc).2; simp at this; omega
  · rw [List.append_assoc, Memory.read_append_left]
    · by_cases h2 : a < base + bs.length
      · rw [if_pos ⟨by omega, h2⟩, Memory.read_append_right, Memory.read_cells _ _ _ (by omega) h2]
        intro c hc
        have := (List.mem_filter.mp hc).2; simp at this; omega
      · rw [if_neg (by omega), Memory.read_append_left, Memory.read_filter]
        · intro c hc; simp; omega
        · intro c hc
          have := Memory.cells_bounds _ _ c hc; omega
    · intro c hc
      have := (List.mem_filter.mp hc).2; simp at this; omega

@[simp] theorem Memory.slice_length (m : Memory) (base n : Nat) : (Memory.slice m base n).length = n := by
  induction n generalizing base with
  | zero => rfl
  | succ n ih => simp [Memory.slice, ih]

theorem Memory.slice_congr {m m' : Memory} {base n : Nat}
    (h : ∀ a, base ≤ a → a < base + n → Memory.read m a = Memory.read m' a) :
    Memory.slice m base n = Memory.slice m' base n := by
  induction n generalizing base with
  | zero => rfl
  | succ n ih =>
    simp only [Memory.slice]
    rw [h base (by omega) (by omega), ih fun a h1 h2 => h a (by omega) (by omega)]

theorem Memory.slice_of_read {m : Memory} {base : Nat} {bs : Bytes}
    (h : ∀ i, i < bs.length → Memory.read m (base + i) = byteAt bs i) : Memory.slice m base bs.length = bs := by
  induction bs generalizing base with
  | nil => rfl
  | cons b bs ih =>
    simp only [List.length_cons, Memory.slice]
    have h0 := h 0 (by simp)
    simp only [Nat.add_zero, byteAt, List.getD_cons_zero] at h0
    rw [h0, ih fun i hi => by
      have := h (i + 1) (by simp; omega)
      rw [show base + 1 + i = base + (i + 1) by omega, this]; simp [byteAt]]

/-- The slice just written reads back. -/
theorem Memory.slice_write (m : Memory) (base : Nat) (bs : Bytes) :
    Memory.slice (Memory.write m base bs) base bs.length = bs :=
  Memory.slice_of_read fun i hi => by
    rw [Memory.read_write, if_pos ⟨by omega, by omega⟩, show base + i - base = i by omega]

/-! ## The canonical form -/

theorem Memory.rising_cons (c : Host.Cell) (m : Memory) :
    Memory.rising (c :: m) = true ↔ (∀ d ∈ m, c.1 < d.1) ∧ Memory.rising m = true := by
  simp [Memory.rising]

theorem Memory.rising_append (m n : Memory) :
    Memory.rising (m ++ n) = true ↔
      Memory.rising m = true ∧ Memory.rising n = true ∧ ∀ c ∈ m, ∀ d ∈ n, c.1 < d.1 := by
  induction m with
  | nil => simp [Memory.rising]
  | cons c m ih =>
    rw [List.cons_append, Memory.rising_cons, Memory.rising_cons, ih]
    simp only [List.mem_append, List.mem_cons]
    constructor
    · rintro ⟨h1, h2, h3, h4⟩
      refine ⟨⟨fun d hd => h1 d (.inl hd), h2⟩, h3, ?_⟩
      rintro x (rfl | hx) d hd
      · exact h1 d (.inr hd)
      · exact h4 x hx d hd
    · rintro ⟨⟨h1, h2⟩, h3, h4⟩
      exact ⟨fun d hd => hd.elim (h1 d) (h4 c (.inl rfl) d), h2, h3, fun x hx => h4 x (.inr hx)⟩

theorem Memory.rising_filter {m : Memory} (f : Host.Cell → Bool) (h : Memory.rising m = true) :
    Memory.rising (m.filter f) = true := by
  induction m with
  | nil => rfl
  | cons c m ih =>
    have hc := (Memory.rising_cons c m).mp h
    by_cases hf : f c = true
    · rw [List.filter_cons_of_pos hf, Memory.rising_cons]
      exact ⟨fun d hd => hc.1 d (List.mem_of_mem_filter hd), ih hc.2⟩
    · rw [List.filter_cons_of_neg hf]; exact ih hc.2

theorem Memory.rising_cells (base : Nat) (bs : Bytes) : Memory.rising (Memory.cells base bs) = true := by
  induction bs generalizing base with
  | nil => rfl
  | cons b bs ih =>
    unfold Memory.cells
    split
    · exact ih _
    · rw [Memory.rising_cons]
      exact ⟨fun d hd => by have := Memory.cells_bounds _ _ d hd; omega, ih _⟩

theorem Memory.wf_iff (m : Memory) : Memory.wf m = true ↔ Memory.rising m = true ∧ ∀ c ∈ m, c.2 ≠ 0#8 := by
  simp [Memory.wf]

/-- A write keeps the canonical form. -/
theorem Memory.wf_write {m : Memory} (h : Memory.wf m = true) (base : Nat) (bs : Bytes) :
    Memory.wf (Memory.write m base bs) = true := by
  obtain ⟨hr, hz⟩ := (Memory.wf_iff m).mp h
  rw [Memory.wf_iff]
  unfold Memory.write
  refine ⟨?_, ?_⟩
  · rw [Memory.rising_append, Memory.rising_append]
    refine ⟨⟨Memory.rising_filter _ hr, Memory.rising_cells _ _, ?_⟩, Memory.rising_filter _ hr, ?_⟩
    · intro c hc d hd
      have h1 := (List.mem_filter.mp hc).2
      have h2 := Memory.cells_bounds _ _ d hd
      simp at h1; omega
    · intro c hc d hd
      have h2 := (List.mem_filter.mp hd).2
      simp at h2
      rcases List.mem_append.mp hc with hc | hc
      · have h1 := (List.mem_filter.mp hc).2
        simp at h1; omega
      · have h1 := Memory.cells_bounds _ _ c hc
        omega
  · intro c hc
    rcases List.mem_append.mp hc with hc | hc
    · rcases List.mem_append.mp hc with hc | hc
      · exact hz c (List.mem_of_mem_filter hc)
      · exact (Memory.cells_bounds _ _ c hc).2.2
    · exact hz c (List.mem_of_mem_filter hc)

theorem Memory.within_iff (size : Nat) (m : Memory) : Memory.within size m = true ↔ ∀ c ∈ m, c.1 < size := by
  simp [Memory.within]

/-- A write inside the built size keeps every listed index inside it. -/
theorem Memory.within_write {size : Nat} {m : Memory} (h : Memory.within size m = true) {base : Nat} {bs : Bytes}
    (hfit : base + bs.length ≤ size) : Memory.within size (Memory.write m base bs) = true := by
  rw [Memory.within_iff] at h ⊢
  unfold Memory.write
  intro c hc
  rcases List.mem_append.mp hc with hc | hc
  · rcases List.mem_append.mp hc with hc | hc
    · exact h c (List.mem_of_mem_filter hc)
    · have := Memory.cells_bounds _ _ c hc; omega
  · exact h c (List.mem_of_mem_filter hc)

/-- Whatever a buffer holds at the start of a frame, it is in canonical form and inside its built size. -/
theorem freeBuffers_wf {HS : Type} {cb : Nat} (p : Params HS cb) (s : State.Of HS cb) :
    Memory.wf (freeBuffers p s).rawBuf = true ∧ Memory.within rawBufSize (freeBuffers p s).rawBuf = true ∧
    Memory.wf (freeBuffers p s).cBuf = true ∧ Memory.within (cBufSize p) (freeBuffers p s).cBuf = true := by
  have wf : Memory.wf [] = true := rfl
  have inside (n : Nat) : Memory.within n [] = true := rfl
  refine ⟨Memory.wf_write wf _ _, Memory.within_write (inside _) ?_, Memory.wf_write wf _ _,
    Memory.within_write (inside _) ?_⟩ <;> rw [List.length_take] <;> omega

end Sys2Proof.Machine
end

