-- ==== Sys2Proof/Laws/State.lean ====
section
/-! SUPPORT. What each named update of State leaves in each field: one lemma per field per update, all true by
definition, so that no later proof unfolds a record update. -/

namespace Sys2Proof.Machine

variable {HS : Type} {cb : Nat}

@[simp] theorem raise_cfgBsid (c : ErrClass) (e : ErrSite) (s : State.Of HS cb) : (raise c e s).cfgBsid = s.cfgBsid := rfl
@[simp] theorem raise_phase (c : ErrClass) (e : ErrSite) (s : State.Of HS cb) : (raise c e s).phase = .error := rfl
@[simp] theorem raise_mode (c : ErrClass) (e : ErrSite) (s : State.Of HS cb) : (raise c e s).mode = s.mode := rfl
@[simp] theorem raise_errClass (c : ErrClass) (e : ErrSite) (s : State.Of HS cb) : (raise c e s).errClass = c := rfl
@[simp] theorem raise_errSite (c : ErrClass) (e : ErrSite) (s : State.Of HS cb) : (raise c e s).errSite = e := rfl
@[simp] theorem raise_inCount (c : ErrClass) (e : ErrSite) (s : State.Of HS cb) : (raise c e s).inCount = s.inCount := rfl
@[simp] theorem raise_outCount (c : ErrClass) (e : ErrSite) (s : State.Of HS cb) : (raise c e s).outCount = s.outCount := rfl
@[simp] theorem raise_ckStored (c : ErrClass) (e : ErrSite) (s : State.Of HS cb) : (raise c e s).ckStored = s.ckStored := rfl
@[simp] theorem raise_ckCalc (c : ErrClass) (e : ErrSite) (s : State.Of HS cb) : (raise c e s).ckCalc = s.ckCalc := rfl
@[simp] theorem raise_fsm (c : ErrClass) (e : ErrSite) (s : State.Of HS cb) : (raise c e s).fsm = .none := rfl
@[simp] theorem raise_bsidF (c : ErrClass) (e : ErrSite) (s : State.Of HS cb) : (raise c e s).bsidF = s.bsidF := rfl
@[simp] theorem raise_blkSize (c : ErrClass) (e : ErrSite) (s : State.Of HS cb) : (raise c e s).blkSize = s.blkSize := rfl
@[simp] theorem raise_hdr (c : ErrClass) (e : ErrSite) (s : State.Of HS cb) : (raise c e s).hdr = s.hdr := rfl
@[simp] theorem raise_typeTag (c : ErrClass) (e : ErrSite) (s : State.Of HS cb) : (raise c e s).typeTag = s.typeTag := rfl
@[simp] theorem raise_len (c : ErrClass) (e : ErrSite) (s : State.Of HS cb) : (raise c e s).len = s.len := rfl
@[simp] theorem raise_inSize (c : ErrClass) (e : ErrSite) (s : State.Of HS cb) : (raise c e s).inSize = s.inSize := rfl
@[simp] theorem raise_cSize (c : ErrClass) (e : ErrSite) (s : State.Of HS cb) : (raise c e s).cSize = s.cSize := rfl
@[simp] theorem raise_rSize (c : ErrClass) (e : ErrSite) (s : State.Of HS cb) : (raise c e s).rSize = s.rSize := rfl
@[simp] theorem raise_rleByte (c : ErrClass) (e : ErrSite) (s : State.Of HS cb) : (raise c e s).rleByte = s.rleByte := rfl
@[simp] theorem raise_paySel (c : ErrClass) (e : ErrSite) (s : State.Of HS cb) : (raise c e s).paySel = s.paySel := rfl
@[simp] theorem raise_h (c : ErrClass) (e : ErrSite) (s : State.Of HS cb) : (raise c e s).h = s.h := rfl
@[simp] theorem raise_rawBuf (c : ErrClass) (e : ErrSite) (s : State.Of HS cb) : (raise c e s).rawBuf = s.rawBuf := rfl
@[simp] theorem raise_cBuf (c : ErrClass) (e : ErrSite) (s : State.Of HS cb) : (raise c e s).cBuf = s.cBuf := rfl
@[simp] theorem raise_srcRest (c : ErrClass) (e : ErrSite) (s : State.Of HS cb) : (raise c e s).srcRest = s.srcRest := rfl
@[simp] theorem raise_snkData (c : ErrClass) (e : ErrSite) (s : State.Of HS cb) : (raise c e s).snkData = s.snkData := rfl
@[simp] theorem raise_hostIn (c : ErrClass) (e : ErrSite) (s : State.Of HS cb) : (raise c e s).hostIn = s.hostIn := rfl
@[simp] theorem raise_hostData (c : ErrClass) (e : ErrSite) (s : State.Of HS cb) : (raise c e s).hostData = s.hostData := rfl
@[simp] theorem raise_snkReqs (c : ErrClass) (e : ErrSite) (s : State.Of HS cb) : (raise c e s).snkReqs = s.snkReqs := rfl
@[simp] theorem raise_freeCtr (c : ErrClass) (e : ErrSite) (s : State.Of HS cb) : (raise c e s).freeCtr = s.freeCtr := rfl

@[simp] theorem finish_cfgBsid (s : State.Of HS cb) : (finish s).cfgBsid = s.cfgBsid := rfl
@[simp] theorem finish_phase (s : State.Of HS cb) : (finish s).phase = .done := rfl
@[simp] theorem finish_mode (s : State.Of HS cb) : (finish s).mode = s.mode := rfl
@[simp] theorem finish_errClass (s : State.Of HS cb) : (finish s).errClass = s.errClass := rfl
@[simp] theorem finish_errSite (s : State.Of HS cb) : (finish s).errSite = s.errSite := rfl
@[simp] theorem finish_inCount (s : State.Of HS cb) : (finish s).inCount = s.inCount := rfl
@[simp] theorem finish_outCount (s : State.Of HS cb) : (finish s).outCount = s.outCount := rfl
@[simp] theorem finish_ckStored (s : State.Of HS cb) : (finish s).ckStored = s.ckStored := rfl
@[simp] theorem finish_ckCalc (s : State.Of HS cb) : (finish s).ckCalc = s.ckCalc := rfl
@[simp] theorem finish_fsm (s : State.Of HS cb) : (finish s).fsm = .none := rfl
@[simp] theorem finish_bsidF (s : State.Of HS cb) : (finish s).bsidF = s.bsidF := rfl
@[simp] theorem finish_blkSize (s : State.Of HS cb) : (finish s).blkSize = s.blkSize := rfl
@[simp] theorem finish_hdr (s : State.Of HS cb) : (finish s).hdr = s.hdr := rfl
@[simp] theorem finish_typeTag (s : State.Of HS cb) : (finish s).typeTag = s.typeTag := rfl
@[simp] theorem finish_len (s : State.Of HS cb) : (finish s).len = s.len := rfl
@[simp] theorem finish_inSize (s : State.Of HS cb) : (finish s).inSize = s.inSize := rfl
@[simp] theorem finish_cSize (s : State.Of HS cb) : (finish s).cSize = s.cSize := rfl
@[simp] theorem finish_rSize (s : State.Of HS cb) : (finish s).rSize = s.rSize := rfl
@[simp] theorem finish_rleByte (s : State.Of HS cb) : (finish s).rleByte = s.rleByte := rfl
@[simp] theorem finish_paySel (s : State.Of HS cb) : (finish s).paySel = s.paySel := rfl
@[simp] theorem finish_h (s : State.Of HS cb) : (finish s).h = s.h := rfl
@[simp] theorem finish_rawBuf (s : State.Of HS cb) : (finish s).rawBuf = s.rawBuf := rfl
@[simp] theorem finish_cBuf (s : State.Of HS cb) : (finish s).cBuf = s.cBuf := rfl
@[simp] theorem finish_srcRest (s : State.Of HS cb) : (finish s).srcRest = s.srcRest := rfl
@[simp] theorem finish_snkData (s : State.Of HS cb) : (finish s).snkData = s.snkData := rfl
@[simp] theorem finish_hostIn (s : State.Of HS cb) : (finish s).hostIn = s.hostIn := rfl
@[simp] theorem finish_hostData (s : State.Of HS cb) : (finish s).hostData = s.hostData := rfl
@[simp] theorem finish_snkReqs (s : State.Of HS cb) : (finish s).snkReqs = s.snkReqs := rfl
@[simp] theorem finish_freeCtr (s : State.Of HS cb) : (finish s).freeCtr = s.freeCtr := rfl

@[simp] theorem setBlockSize_cfgBsid (id : BitVec 4) (s : State.Of HS cb) : (setBlockSize id s).cfgBsid = s.cfgBsid := rfl
@[simp] theorem setBlockSize_phase (id : BitVec 4) (s : State.Of HS cb) : (setBlockSize id s).phase = s.phase := rfl
@[simp] theorem setBlockSize_mode (id : BitVec 4) (s : State.Of HS cb) : (setBlockSize id s).mode = s.mode := rfl
@[simp] theorem setBlockSize_errClass (id : BitVec 4) (s : State.Of HS cb) : (setBlockSize id s).errClass = s.errClass := rfl
@[simp] theorem setBlockSize_errSite (id : BitVec 4) (s : State.Of HS cb) : (setBlockSize id s).errSite = s.errSite := rfl
@[simp] theorem setBlockSize_inCount (id : BitVec 4) (s : State.Of HS cb) : (setBlockSize id s).inCount = s.inCount := rfl
@[simp] theorem setBlockSize_outCount (id : BitVec 4) (s : State.Of HS cb) : (setBlockSize id s).outCount = s.outCount := rfl
@[simp] theorem setBlockSize_ckStored (id : BitVec 4) (s : State.Of HS cb) : (setBlockSize id s).ckStored = s.ckStored := rfl
@[simp] theorem setBlockSize_ckCalc (id : BitVec 4) (s : State.Of HS cb) : (setBlockSize id s).ckCalc = s.ckCalc := rfl
@[simp] theorem setBlockSize_fsm (id : BitVec 4) (s : State.Of HS cb) : (setBlockSize id s).fsm = s.fsm := rfl
@[simp] theorem setBlockSize_bsidF (id : BitVec 4) (s : State.Of HS cb) : (setBlockSize id s).bsidF = id := rfl
@[simp] theorem setBlockSize_blkSize (id : BitVec 4) (s : State.Of HS cb) : (setBlockSize id s).blkSize = blockSize id := rfl
@[simp] theorem setBlockSize_hdr (id : BitVec 4) (s : State.Of HS cb) : (setBlockSize id s).hdr = s.hdr := rfl
@[simp] theorem setBlockSize_typeTag (id : BitVec 4) (s : State.Of HS cb) : (setBlockSize id s).typeTag = s.typeTag := rfl
@[simp] theorem setBlockSize_len (id : BitVec 4) (s : State.Of HS cb) : (setBlockSize id s).len = s.len := rfl
@[simp] theorem setBlockSize_inSize (id : BitVec 4) (s : State.Of HS cb) : (setBlockSize id s).inSize = inSizeWithin (blockSize id) s := rfl
@[simp] theorem setBlockSize_cSize (id : BitVec 4) (s : State.Of HS cb) : (setBlockSize id s).cSize = s.cSize := rfl
@[simp] theorem setBlockSize_rSize (id : BitVec 4) (s : State.Of HS cb) : (setBlockSize id s).rSize = s.rSize := rfl
@[simp] theorem setBlockSize_rleByte (id : BitVec 4) (s : State.Of HS cb) : (setBlockSize id s).rleByte = s.rleByte := rfl
@[simp] theorem setBlockSize_paySel (id : BitVec 4) (s : State.Of HS cb) : (setBlockSize id s).paySel = s.paySel := rfl
@[simp] theorem setBlockSize_h (id : BitVec 4) (s : State.Of HS cb) : (setBlockSize id s).h = s.h := rfl
@[simp] theorem setBlockSize_rawBuf (id : BitVec 4) (s : State.Of HS cb) : (setBlockSize id s).rawBuf = s.rawBuf := rfl
@[simp] theorem setBlockSize_cBuf (id : BitVec 4) (s : State.Of HS cb) : (setBlockSize id s).cBuf = s.cBuf := rfl
@[simp] theorem setBlockSize_srcRest (id : BitVec 4) (s : State.Of HS cb) : (setBlockSize id s).srcRest = s.srcRest := rfl
@[simp] theorem setBlockSize_snkData (id : BitVec 4) (s : State.Of HS cb) : (setBlockSize id s).snkData = s.snkData := rfl
@[simp] theorem setBlockSize_hostIn (id : BitVec 4) (s : State.Of HS cb) : (setBlockSize id s).hostIn = s.hostIn := rfl
@[simp] theorem setBlockSize_hostData (id : BitVec 4) (s : State.Of HS cb) : (setBlockSize id s).hostData = s.hostData := rfl
@[simp] theorem setBlockSize_snkReqs (id : BitVec 4) (s : State.Of HS cb) : (setBlockSize id s).snkReqs = s.snkReqs := rfl
@[simp] theorem setBlockSize_freeCtr (id : BitVec 4) (s : State.Of HS cb) : (setBlockSize id s).freeCtr = s.freeCtr + 1 := rfl

@[simp] theorem setTypeLen_cfgBsid (tag : BitVec 2) (f : BitVec 22) (s : State.Of HS cb) : (setTypeLen tag f s).cfgBsid = s.cfgBsid := rfl
@[simp] theorem setTypeLen_phase (tag : BitVec 2) (f : BitVec 22) (s : State.Of HS cb) : (setTypeLen tag f s).phase = s.phase := rfl
@[simp] theorem setTypeLen_mode (tag : BitVec 2) (f : BitVec 22) (s : State.Of HS cb) : (setTypeLen tag f s).mode = s.mode := rfl
@[simp] theorem setTypeLen_errClass (tag : BitVec 2) (f : BitVec 22) (s : State.Of HS cb) : (setTypeLen tag f s).errClass = s.errClass := rfl
@[simp] theorem setTypeLen_errSite (tag : BitVec 2) (f : BitVec 22) (s : State.Of HS cb) : (setTypeLen tag f s).errSite = s.errSite := rfl
@[simp] theorem setTypeLen_inCount (tag : BitVec 2) (f : BitVec 22) (s : State.Of HS cb) : (setTypeLen tag f s).inCount = s.inCount := rfl
@[simp] theorem setTypeLen_outCount (tag : BitVec 2) (f : BitVec 22) (s : State.Of HS cb) : (setTypeLen tag f s).outCount = s.outCount := rfl
@[simp] theorem setTypeLen_ckStored (tag : BitVec 2) (f : BitVec 22) (s : State.Of HS cb) : (setTypeLen tag f s).ckStored = s.ckStored := rfl
@[simp] theorem setTypeLen_ckCalc (tag : BitVec 2) (f : BitVec 22) (s : State.Of HS cb) : (setTypeLen tag f s).ckCalc = s.ckCalc := rfl
@[simp] theorem setTypeLen_fsm (tag : BitVec 2) (f : BitVec 22) (s : State.Of HS cb) : (setTypeLen tag f s).fsm = s.fsm := rfl
@[simp] theorem setTypeLen_bsidF (tag : BitVec 2) (f : BitVec 22) (s : State.Of HS cb) : (setTypeLen tag f s).bsidF = s.bsidF := rfl
@[simp] theorem setTypeLen_blkSize (tag : BitVec 2) (f : BitVec 22) (s : State.Of HS cb) : (setTypeLen tag f s).blkSize = s.blkSize := rfl
@[simp] theorem setTypeLen_hdr (tag : BitVec 2) (f : BitVec 22) (s : State.Of HS cb) : (setTypeLen tag f s).hdr = s.hdr := rfl
@[simp] theorem setTypeLen_typeTag (tag : BitVec 2) (f : BitVec 22) (s : State.Of HS cb) : (setTypeLen tag f s).typeTag = tag := rfl
@[simp] theorem setTypeLen_len (tag : BitVec 2) (f : BitVec 22) (s : State.Of HS cb) : (setTypeLen tag f s).len = f := rfl
@[simp] theorem setTypeLen_inSize (tag : BitVec 2) (f : BitVec 22) (s : State.Of HS cb) : (setTypeLen tag f s).inSize = s.inSize := rfl
@[simp] theorem setTypeLen_cSize (tag : BitVec 2) (f : BitVec 22) (s : State.Of HS cb) : (setTypeLen tag f s).cSize = s.cSize := rfl
@[simp] theorem setTypeLen_rSize (tag : BitVec 2) (f : BitVec 22) (s : State.Of HS cb) : (setTypeLen tag f s).rSize = s.rSize := rfl
@[simp] theorem setTypeLen_rleByte (tag : BitVec 2) (f : BitVec 22) (s : State.Of HS cb) : (setTypeLen tag f s).rleByte = s.rleByte := rfl
@[simp] theorem setTypeLen_paySel (tag : BitVec 2) (f : BitVec 22) (s : State.Of HS cb) : (setTypeLen tag f s).paySel = s.paySel := rfl
@[simp] theorem setTypeLen_h (tag : BitVec 2) (f : BitVec 22) (s : State.Of HS cb) : (setTypeLen tag f s).h = s.h := rfl
@[simp] theorem setTypeLen_rawBuf (tag : BitVec 2) (f : BitVec 22) (s : State.Of HS cb) : (setTypeLen tag f s).rawBuf = s.rawBuf := rfl
@[simp] theorem setTypeLen_cBuf (tag : BitVec 2) (f : BitVec 22) (s : State.Of HS cb) : (setTypeLen tag f s).cBuf = s.cBuf := rfl
@[simp] theorem setTypeLen_srcRest (tag : BitVec 2) (f : BitVec 22) (s : State.Of HS cb) : (setTypeLen tag f s).srcRest = s.srcRest := rfl
@[simp] theorem setTypeLen_snkData (tag : BitVec 2) (f : BitVec 22) (s : State.Of HS cb) : (setTypeLen tag f s).snkData = s.snkData := rfl
@[simp] theorem setTypeLen_hostIn (tag : BitVec 2) (f : BitVec 22) (s : State.Of HS cb) : (setTypeLen tag f s).hostIn = s.hostIn := rfl
@[simp] theorem setTypeLen_hostData (tag : BitVec 2) (f : BitVec 22) (s : State.Of HS cb) : (setTypeLen tag f s).hostData = s.hostData := rfl
@[simp] theorem setTypeLen_snkReqs (tag : BitVec 2) (f : BitVec 22) (s : State.Of HS cb) : (setTypeLen tag f s).snkReqs = s.snkReqs := rfl
@[simp] theorem setTypeLen_freeCtr (tag : BitVec 2) (f : BitVec 22) (s : State.Of HS cb) : (setTypeLen tag f s).freeCtr = s.freeCtr := rfl

@[simp] theorem hInit_cfgBsid (p : Params HS cb) (s : State.Of HS cb) : (hInit p s).cfgBsid = s.cfgBsid := rfl
@[simp] theorem hInit_phase (p : Params HS cb) (s : State.Of HS cb) : (hInit p s).phase = s.phase := rfl
@[simp] theorem hInit_mode (p : Params HS cb) (s : State.Of HS cb) : (hInit p s).mode = s.mode := rfl
@[simp] theorem hInit_errClass (p : Params HS cb) (s : State.Of HS cb) : (hInit p s).errClass = s.errClass := rfl
@[simp] theorem hInit_errSite (p : Params HS cb) (s : State.Of HS cb) : (hInit p s).errSite = s.errSite := rfl
@[simp] theorem hInit_inCount (p : Params HS cb) (s : State.Of HS cb) : (hInit p s).inCount = s.inCount := rfl
@[simp] theorem hInit_outCount (p : Params HS cb) (s : State.Of HS cb) : (hInit p s).outCount = s.outCount := rfl
@[simp] theorem hInit_ckStored (p : Params HS cb) (s : State.Of HS cb) : (hInit p s).ckStored = s.ckStored := rfl
@[simp] theorem hInit_ckCalc (p : Params HS cb) (s : State.Of HS cb) : (hInit p s).ckCalc = s.ckCalc := rfl
@[simp] theorem hInit_fsm (p : Params HS cb) (s : State.Of HS cb) : (hInit p s).fsm = s.fsm := rfl
@[simp] theorem hInit_bsidF (p : Params HS cb) (s : State.Of HS cb) : (hInit p s).bsidF = s.bsidF := rfl
@[simp] theorem hInit_blkSize (p : Params HS cb) (s : State.Of HS cb) : (hInit p s).blkSize = s.blkSize := rfl
@[simp] theorem hInit_hdr (p : Params HS cb) (s : State.Of HS cb) : (hInit p s).hdr = s.hdr := rfl
@[simp] theorem hInit_typeTag (p : Params HS cb) (s : State.Of HS cb) : (hInit p s).typeTag = s.typeTag := rfl
@[simp] theorem hInit_len (p : Params HS cb) (s : State.Of HS cb) : (hInit p s).len = s.len := rfl
@[simp] theorem hInit_inSize (p : Params HS cb) (s : State.Of HS cb) : (hInit p s).inSize = s.inSize := rfl
@[simp] theorem hInit_cSize (p : Params HS cb) (s : State.Of HS cb) : (hInit p s).cSize = s.cSize := rfl
@[simp] theorem hInit_rSize (p : Params HS cb) (s : State.Of HS cb) : (hInit p s).rSize = s.rSize := rfl
@[simp] theorem hInit_rleByte (p : Params HS cb) (s : State.Of HS cb) : (hInit p s).rleByte = s.rleByte := rfl
@[simp] theorem hInit_paySel (p : Params HS cb) (s : State.Of HS cb) : (hInit p s).paySel = s.paySel := rfl
@[simp] theorem hInit_h (p : Params HS cb) (s : State.Of HS cb) : (hInit p s).h = p.hash.fresh s.freeCtr := rfl
@[simp] theorem hInit_rawBuf (p : Params HS cb) (s : State.Of HS cb) : (hInit p s).rawBuf = s.rawBuf := rfl
@[simp] theorem hInit_cBuf (p : Params HS cb) (s : State.Of HS cb) : (hInit p s).cBuf = s.cBuf := rfl
@[simp] theorem hInit_srcRest (p : Params HS cb) (s : State.Of HS cb) : (hInit p s).srcRest = s.srcRest := rfl
@[simp] theorem hInit_snkData (p : Params HS cb) (s : State.Of HS cb) : (hInit p s).snkData = s.snkData := rfl
@[simp] theorem hInit_hostIn (p : Params HS cb) (s : State.Of HS cb) : (hInit p s).hostIn = s.hostIn := rfl
@[simp] theorem hInit_hostData (p : Params HS cb) (s : State.Of HS cb) : (hInit p s).hostData = s.hostData := rfl
@[simp] theorem hInit_snkReqs (p : Params HS cb) (s : State.Of HS cb) : (hInit p s).snkReqs = s.snkReqs := rfl
@[simp] theorem hInit_freeCtr (p : Params HS cb) (s : State.Of HS cb) : (hInit p s).freeCtr = s.freeCtr + 1 := rfl

@[simp] theorem hUpdate_cfgBsid (p : Params HS cb) (bs : Bytes) (s : State.Of HS cb) : (hUpdate p bs s).cfgBsid = s.cfgBsid := rfl
@[simp] theorem hUpdate_phase (p : Params HS cb) (bs : Bytes) (s : State.Of HS cb) : (hUpdate p bs s).phase = s.phase := rfl
@[simp] theorem hUpdate_mode (p : Params HS cb) (bs : Bytes) (s : State.Of HS cb) : (hUpdate p bs s).mode = s.mode := rfl
@[simp] theorem hUpdate_errClass (p : Params HS cb) (bs : Bytes) (s : State.Of HS cb) : (hUpdate p bs s).errClass = s.errClass := rfl
@[simp] theorem hUpdate_errSite (p : Params HS cb) (bs : Bytes) (s : State.Of HS cb) : (hUpdate p bs s).errSite = s.errSite := rfl
@[simp] theorem hUpdate_inCount (p : Params HS cb) (bs : Bytes) (s : State.Of HS cb) : (hUpdate p bs s).inCount = s.inCount := rfl
@[simp] theorem hUpdate_outCount (p : Params HS cb) (bs : Bytes) (s : State.Of HS cb) : (hUpdate p bs s).outCount = s.outCount := rfl
@[simp] theorem hUpdate_ckStored (p : Params HS cb) (bs : Bytes) (s : State.Of HS cb) : (hUpdate p bs s).ckStored = s.ckStored := rfl
@[simp] theorem hUpdate_ckCalc (p : Params HS cb) (bs : Bytes) (s : State.Of HS cb) : (hUpdate p bs s).ckCalc = s.ckCalc := rfl
@[simp] theorem hUpdate_fsm (p : Params HS cb) (bs : Bytes) (s : State.Of HS cb) : (hUpdate p bs s).fsm = s.fsm := rfl
@[simp] theorem hUpdate_bsidF (p : Params HS cb) (bs : Bytes) (s : State.Of HS cb) : (hUpdate p bs s).bsidF = s.bsidF := rfl
@[simp] theorem hUpdate_blkSize (p : Params HS cb) (bs : Bytes) (s : State.Of HS cb) : (hUpdate p bs s).blkSize = s.blkSize := rfl
@[simp] theorem hUpdate_hdr (p : Params HS cb) (bs : Bytes) (s : State.Of HS cb) : (hUpdate p bs s).hdr = s.hdr := rfl
@[simp] theorem hUpdate_typeTag (p : Params HS cb) (bs : Bytes) (s : State.Of HS cb) : (hUpdate p bs s).typeTag = s.typeTag := rfl
@[simp] theorem hUpdate_len (p : Params HS cb) (bs : Bytes) (s : State.Of HS cb) : (hUpdate p bs s).len = s.len := rfl
@[simp] theorem hUpdate_inSize (p : Params HS cb) (bs : Bytes) (s : State.Of HS cb) : (hUpdate p bs s).inSize = s.inSize := rfl
@[simp] theorem hUpdate_cSize (p : Params HS cb) (bs : Bytes) (s : State.Of HS cb) : (hUpdate p bs s).cSize = s.cSize := rfl
@[simp] theorem hUpdate_rSize (p : Params HS cb) (bs : Bytes) (s : State.Of HS cb) : (hUpdate p bs s).rSize = s.rSize := rfl
@[simp] theorem hUpdate_rleByte (p : Params HS cb) (bs : Bytes) (s : State.Of HS cb) : (hUpdate p bs s).rleByte = s.rleByte := rfl
@[simp] theorem hUpdate_paySel (p : Params HS cb) (bs : Bytes) (s : State.Of HS cb) : (hUpdate p bs s).paySel = s.paySel := rfl
@[simp] theorem hUpdate_h (p : Params HS cb) (bs : Bytes) (s : State.Of HS cb) : (hUpdate p bs s).h = p.hash.update s.h bs := rfl
@[simp] theorem hUpdate_rawBuf (p : Params HS cb) (bs : Bytes) (s : State.Of HS cb) : (hUpdate p bs s).rawBuf = s.rawBuf := rfl
@[simp] theorem hUpdate_cBuf (p : Params HS cb) (bs : Bytes) (s : State.Of HS cb) : (hUpdate p bs s).cBuf = s.cBuf := rfl
@[simp] theorem hUpdate_srcRest (p : Params HS cb) (bs : Bytes) (s : State.Of HS cb) : (hUpdate p bs s).srcRest = s.srcRest := rfl
@[simp] theorem hUpdate_snkData (p : Params HS cb) (bs : Bytes) (s : State.Of HS cb) : (hUpdate p bs s).snkData = s.snkData := rfl
@[simp] theorem hUpdate_hostIn (p : Params HS cb) (bs : Bytes) (s : State.Of HS cb) : (hUpdate p bs s).hostIn = s.hostIn := rfl
@[simp] theorem hUpdate_hostData (p : Params HS cb) (bs : Bytes) (s : State.Of HS cb) : (hUpdate p bs s).hostData = s.hostData := rfl
@[simp] theorem hUpdate_snkReqs (p : Params HS cb) (bs : Bytes) (s : State.Of HS cb) : (hUpdate p bs s).snkReqs = s.snkReqs := rfl
@[simp] theorem hUpdate_freeCtr (p : Params HS cb) (bs : Bytes) (s : State.Of HS cb) : (hUpdate p bs s).freeCtr = s.freeCtr := rfl

@[simp] theorem srcRead_cfgBsid (n : Nat) (s : State.Of HS cb) : (srcRead n s).2.cfgBsid = s.cfgBsid := rfl
@[simp] theorem srcRead_phase (n : Nat) (s : State.Of HS cb) : (srcRead n s).2.phase = s.phase := rfl
@[simp] theorem srcRead_mode (n : Nat) (s : State.Of HS cb) : (srcRead n s).2.mode = s.mode := rfl
@[simp] theorem srcRead_errClass (n : Nat) (s : State.Of HS cb) : (srcRead n s).2.errClass = s.errClass := rfl
@[simp] theorem srcRead_errSite (n : Nat) (s : State.Of HS cb) : (srcRead n s).2.errSite = s.errSite := rfl
@[simp] theorem srcRead_inCount (n : Nat) (s : State.Of HS cb) : (srcRead n s).2.inCount = s.inCount + BitVec.ofNat cb (s.srcRest.take n).length := rfl
@[simp] theorem srcRead_outCount (n : Nat) (s : State.Of HS cb) : (srcRead n s).2.outCount = s.outCount := rfl
@[simp] theorem srcRead_ckStored (n : Nat) (s : State.Of HS cb) : (srcRead n s).2.ckStored = s.ckStored := rfl
@[simp] theorem srcRead_ckCalc (n : Nat) (s : State.Of HS cb) : (srcRead n s).2.ckCalc = s.ckCalc := rfl
@[simp] theorem srcRead_fsm (n : Nat) (s : State.Of HS cb) : (srcRead n s).2.fsm = s.fsm := rfl
@[simp] theorem srcRead_bsidF (n : Nat) (s : State.Of HS cb) : (srcRead n s).2.bsidF = s.bsidF := rfl
@[simp] theorem srcRead_blkSize (n : Nat) (s : State.Of HS cb) : (srcRead n s).2.blkSize = s.blkSize := rfl
@[simp] theorem srcRead_hdr (n : Nat) (s : State.Of HS cb) : (srcRead n s).2.hdr = s.hdr := rfl
@[simp] theorem srcRead_typeTag (n : Nat) (s : State.Of HS cb) : (srcRead n s).2.typeTag = s.typeTag := rfl
@[simp] theorem srcRead_len (n : Nat) (s : State.Of HS cb) : (srcRead n s).2.len = s.len := rfl
@[simp] theorem srcRead_inSize (n : Nat) (s : State.Of HS cb) : (srcRead n s).2.inSize = s.inSize := rfl
@[simp] theorem srcRead_cSize (n : Nat) (s : State.Of HS cb) : (srcRead n s).2.cSize = s.cSize := rfl
@[simp] theorem srcRead_rSize (n : Nat) (s : State.Of HS cb) : (srcRead n s).2.rSize = s.rSize := rfl
@[simp] theorem srcRead_rleByte (n : Nat) (s : State.Of HS cb) : (srcRead n s).2.rleByte = s.rleByte := rfl
@[simp] theorem srcRead_paySel (n : Nat) (s : State.Of HS cb) : (srcRead n s).2.paySel = s.paySel := rfl
@[simp] theorem srcRead_h (n : Nat) (s : State.Of HS cb) : (srcRead n s).2.h = s.h := rfl
@[simp] theorem srcRead_rawBuf (n : Nat) (s : State.Of HS cb) : (srcRead n s).2.rawBuf = s.rawBuf := rfl
@[simp] theorem srcRead_cBuf (n : Nat) (s : State.Of HS cb) : (srcRead n s).2.cBuf = s.cBuf := rfl
@[simp] theorem srcRead_srcRest (n : Nat) (s : State.Of HS cb) : (srcRead n s).2.srcRest = s.srcRest.drop n := rfl
@[simp] theorem srcRead_snkData (n : Nat) (s : State.Of HS cb) : (srcRead n s).2.snkData = s.snkData := rfl
@[simp] theorem srcRead_hostIn (n : Nat) (s : State.Of HS cb) : (srcRead n s).2.hostIn = s.hostIn := rfl
@[simp] theorem srcRead_hostData (n : Nat) (s : State.Of HS cb) : (srcRead n s).2.hostData = s.hostData := rfl
@[simp] theorem srcRead_snkReqs (n : Nat) (s : State.Of HS cb) : (srcRead n s).2.snkReqs = s.snkReqs := rfl
@[simp] theorem srcRead_freeCtr (n : Nat) (s : State.Of HS cb) : (srcRead n s).2.freeCtr = s.freeCtr := rfl

@[simp] theorem snkWrite_cfgBsid (p : Params HS cb) (bs : Bytes) (s : State.Of HS cb) : (snkWrite p bs s).2.cfgBsid = s.cfgBsid := rfl
@[simp] theorem snkWrite_phase (p : Params HS cb) (bs : Bytes) (s : State.Of HS cb) : (snkWrite p bs s).2.phase = s.phase := rfl
@[simp] theorem snkWrite_mode (p : Params HS cb) (bs : Bytes) (s : State.Of HS cb) : (snkWrite p bs s).2.mode = s.mode := rfl
@[simp] theorem snkWrite_errClass (p : Params HS cb) (bs : Bytes) (s : State.Of HS cb) : (snkWrite p bs s).2.errClass = s.errClass := rfl
@[simp] theorem snkWrite_errSite (p : Params HS cb) (bs : Bytes) (s : State.Of HS cb) : (snkWrite p bs s).2.errSite = s.errSite := rfl
@[simp] theorem snkWrite_inCount (p : Params HS cb) (bs : Bytes) (s : State.Of HS cb) : (snkWrite p bs s).2.inCount = s.inCount := rfl
@[simp] theorem snkWrite_outCount (p : Params HS cb) (bs : Bytes) (s : State.Of HS cb) : (snkWrite p bs s).2.outCount = s.outCount + BitVec.ofNat cb (snkAccepts p bs s) := rfl
@[simp] theorem snkWrite_ckStored (p : Params HS cb) (bs : Bytes) (s : State.Of HS cb) : (snkWrite p bs s).2.ckStored = s.ckStored := rfl
@[simp] theorem snkWrite_ckCalc (p : Params HS cb) (bs : Bytes) (s : State.Of HS cb) : (snkWrite p bs s).2.ckCalc = s.ckCalc := rfl
@[simp] theorem snkWrite_fsm (p : Params HS cb) (bs : Bytes) (s : State.Of HS cb) : (snkWrite p bs s).2.fsm = s.fsm := rfl
@[simp] theorem snkWrite_bsidF (p : Params HS cb) (bs : Bytes) (s : State.Of HS cb) : (snkWrite p bs s).2.bsidF = s.bsidF := rfl
@[simp] theorem snkWrite_blkSize (p : Params HS cb) (bs : Bytes) (s : State.Of HS cb) : (snkWrite p bs s).2.blkSize = s.blkSize := rfl
@[simp] theorem snkWrite_hdr (p : Params HS cb) (bs : Bytes) (s : State.Of HS cb) : (snkWrite p bs s).2.hdr = s.hdr := rfl
@[simp] theorem snkWrite_typeTag (p : Params HS cb) (bs : Bytes) (s : State.Of HS cb) : (snkWrite p bs s).2.typeTag = s.typeTag := rfl
@[simp] theorem snkWrite_len (p : Params HS cb) (bs : Bytes) (s : State.Of HS cb) : (snkWrite p bs s).2.len = s.len := rfl
@[simp] theorem snkWrite_inSize (p : Params HS cb) (bs : Bytes) (s : State.Of HS cb) : (snkWrite p bs s).2.inSize = s.inSize := rfl
@[simp] theorem snkWrite_cSize (p : Params HS cb) (bs : Bytes) (s : State.Of HS cb) : (snkWrite p bs s).2.cSize = s.cSize := rfl
@[simp] theorem snkWrite_rSize (p : Params HS cb) (bs : Bytes) (s : State.Of HS cb) : (snkWrite p bs s).2.rSize = s.rSize := rfl
@[simp] theorem snkWrite_rleByte (p : Params HS cb) (bs : Bytes) (s : State.Of HS cb) : (snkWrite p bs s).2.rleByte = s.rleByte := rfl
@[simp] theorem snkWrite_paySel (p : Params HS cb) (bs : Bytes) (s : State.Of HS cb) : (snkWrite p bs s).2.paySel = s.paySel := rfl
@[simp] theorem snkWrite_h (p : Params HS cb) (bs : Bytes) (s : State.Of HS cb) : (snkWrite p bs s).2.h = s.h := rfl
@[simp] theorem snkWrite_rawBuf (p : Params HS cb) (bs : Bytes) (s : State.Of HS cb) : (snkWrite p bs s).2.rawBuf = s.rawBuf := rfl
@[simp] theorem snkWrite_cBuf (p : Params HS cb) (bs : Bytes) (s : State.Of HS cb) : (snkWrite p bs s).2.cBuf = s.cBuf := rfl
@[simp] theorem snkWrite_srcRest (p : Params HS cb) (bs : Bytes) (s : State.Of HS cb) : (snkWrite p bs s).2.srcRest = s.srcRest := rfl
@[simp] theorem snkWrite_snkData (p : Params HS cb) (bs : Bytes) (s : State.Of HS cb) : (snkWrite p bs s).2.snkData = s.snkData ++ bs.take (snkAccepts p bs s) := rfl
@[simp] theorem snkWrite_hostIn (p : Params HS cb) (bs : Bytes) (s : State.Of HS cb) : (snkWrite p bs s).2.hostIn = s.hostIn := rfl
@[simp] theorem snkWrite_hostData (p : Params HS cb) (bs : Bytes) (s : State.Of HS cb) : (snkWrite p bs s).2.hostData = s.hostData := rfl
@[simp] theorem snkWrite_snkReqs (p : Params HS cb) (bs : Bytes) (s : State.Of HS cb) : (snkWrite p bs s).2.snkReqs = if bs.length = 0 then s.snkReqs else s.snkReqs + 1 := rfl
@[simp] theorem snkWrite_freeCtr (p : Params HS cb) (bs : Bytes) (s : State.Of HS cb) : (snkWrite p bs s).2.freeCtr = s.freeCtr := rfl

@[simp] theorem freeBuffers_cfgBsid (p : Params HS cb) (s : State.Of HS cb) : (freeBuffers p s).cfgBsid = s.cfgBsid := rfl
@[simp] theorem freeBuffers_phase (p : Params HS cb) (s : State.Of HS cb) : (freeBuffers p s).phase = s.phase := rfl
@[simp] theorem freeBuffers_mode (p : Params HS cb) (s : State.Of HS cb) : (freeBuffers p s).mode = s.mode := rfl
@[simp] theorem freeBuffers_errClass (p : Params HS cb) (s : State.Of HS cb) : (freeBuffers p s).errClass = s.errClass := rfl
@[simp] theorem freeBuffers_errSite (p : Params HS cb) (s : State.Of HS cb) : (freeBuffers p s).errSite = s.errSite := rfl
@[simp] theorem freeBuffers_inCount (p : Params HS cb) (s : State.Of HS cb) : (freeBuffers p s).inCount = s.inCount := rfl
@[simp] theorem freeBuffers_outCount (p : Params HS cb) (s : State.Of HS cb) : (freeBuffers p s).outCount = s.outCount := rfl
@[simp] theorem freeBuffers_ckStored (p : Params HS cb) (s : State.Of HS cb) : (freeBuffers p s).ckStored = s.ckStored := rfl
@[simp] theorem freeBuffers_ckCalc (p : Params HS cb) (s : State.Of HS cb) : (freeBuffers p s).ckCalc = s.ckCalc := rfl
@[simp] theorem freeBuffers_fsm (p : Params HS cb) (s : State.Of HS cb) : (freeBuffers p s).fsm = s.fsm := rfl
@[simp] theorem freeBuffers_bsidF (p : Params HS cb) (s : State.Of HS cb) : (freeBuffers p s).bsidF = s.bsidF := rfl
@[simp] theorem freeBuffers_blkSize (p : Params HS cb) (s : State.Of HS cb) : (freeBuffers p s).blkSize = s.blkSize := rfl
@[simp] theorem freeBuffers_hdr (p : Params HS cb) (s : State.Of HS cb) : (freeBuffers p s).hdr = s.hdr := rfl
@[simp] theorem freeBuffers_typeTag (p : Params HS cb) (s : State.Of HS cb) : (freeBuffers p s).typeTag = s.typeTag := rfl
@[simp] theorem freeBuffers_len (p : Params HS cb) (s : State.Of HS cb) : (freeBuffers p s).len = s.len := rfl
@[simp] theorem freeBuffers_inSize (p : Params HS cb) (s : State.Of HS cb) : (freeBuffers p s).inSize = s.inSize := rfl
@[simp] theorem freeBuffers_cSize (p : Params HS cb) (s : State.Of HS cb) : (freeBuffers p s).cSize = s.cSize := rfl
@[simp] theorem freeBuffers_rSize (p : Params HS cb) (s : State.Of HS cb) : (freeBuffers p s).rSize = s.rSize := rfl
@[simp] theorem freeBuffers_rleByte (p : Params HS cb) (s : State.Of HS cb) : (freeBuffers p s).rleByte = s.rleByte := rfl
@[simp] theorem freeBuffers_paySel (p : Params HS cb) (s : State.Of HS cb) : (freeBuffers p s).paySel = s.paySel := rfl
@[simp] theorem freeBuffers_h (p : Params HS cb) (s : State.Of HS cb) : (freeBuffers p s).h = s.h := rfl
@[simp] theorem freeBuffers_srcRest (p : Params HS cb) (s : State.Of HS cb) : (freeBuffers p s).srcRest = s.srcRest := rfl
@[simp] theorem freeBuffers_snkData (p : Params HS cb) (s : State.Of HS cb) : (freeBuffers p s).snkData = s.snkData := rfl
@[simp] theorem freeBuffers_hostIn (p : Params HS cb) (s : State.Of HS cb) : (freeBuffers p s).hostIn = s.hostIn := rfl
@[simp] theorem freeBuffers_hostData (p : Params HS cb) (s : State.Of HS cb) : (freeBuffers p s).hostData = s.hostData := rfl
@[simp] theorem freeBuffers_snkReqs (p : Params HS cb) (s : State.Of HS cb) : (freeBuffers p s).snkReqs = s.snkReqs := rfl
@[simp] theorem freeBuffers_freeCtr (p : Params HS cb) (s : State.Of HS cb) : (freeBuffers p s).freeCtr = s.freeCtr + 1 := rfl

@[simp] theorem startFrame_cfgBsid (p : Params HS cb) (m : Mode) (arm : Fsm) (s : State.Of HS cb) : (startFrame p m arm s).cfgBsid = s.cfgBsid := rfl
@[simp] theorem startFrame_phase (p : Params HS cb) (m : Mode) (arm : Fsm) (s : State.Of HS cb) : (startFrame p m arm s).phase = .busy := rfl
@[simp] theorem startFrame_mode (p : Params HS cb) (m : Mode) (arm : Fsm) (s : State.Of HS cb) : (startFrame p m arm s).mode = m := rfl
@[simp] theorem startFrame_errClass (p : Params HS cb) (m : Mode) (arm : Fsm) (s : State.Of HS cb) : (startFrame p m arm s).errClass = .none := rfl
@[simp] theorem startFrame_errSite (p : Params HS cb) (m : Mode) (arm : Fsm) (s : State.Of HS cb) : (startFrame p m arm s).errSite = .none := rfl
@[simp] theorem startFrame_inCount (p : Params HS cb) (m : Mode) (arm : Fsm) (s : State.Of HS cb) : (startFrame p m arm s).inCount = 0#cb := rfl
@[simp] theorem startFrame_outCount (p : Params HS cb) (m : Mode) (arm : Fsm) (s : State.Of HS cb) : (startFrame p m arm s).outCount = 0#cb := rfl
@[simp] theorem startFrame_ckStored (p : Params HS cb) (m : Mode) (arm : Fsm) (s : State.Of HS cb) : (startFrame p m arm s).ckStored = 0#22 := rfl
@[simp] theorem startFrame_ckCalc (p : Params HS cb) (m : Mode) (arm : Fsm) (s : State.Of HS cb) : (startFrame p m arm s).ckCalc = 0#22 := rfl
@[simp] theorem startFrame_fsm (p : Params HS cb) (m : Mode) (arm : Fsm) (s : State.Of HS cb) : (startFrame p m arm s).fsm = arm := rfl
@[simp] theorem startFrame_bsidF (p : Params HS cb) (m : Mode) (arm : Fsm) (s : State.Of HS cb) : (startFrame p m arm s).bsidF = s.bsidF := rfl
@[simp] theorem startFrame_blkSize (p : Params HS cb) (m : Mode) (arm : Fsm) (s : State.Of HS cb) : (startFrame p m arm s).blkSize = s.blkSize := rfl
@[simp] theorem startFrame_hdr (p : Params HS cb) (m : Mode) (arm : Fsm) (s : State.Of HS cb) : (startFrame p m arm s).hdr = s.hdr := rfl
@[simp] theorem startFrame_typeTag (p : Params HS cb) (m : Mode) (arm : Fsm) (s : State.Of HS cb) : (startFrame p m arm s).typeTag = s.typeTag := rfl
@[simp] theorem startFrame_len (p : Params HS cb) (m : Mode) (arm : Fsm) (s : State.Of HS cb) : (startFrame p m arm s).len = s.len := rfl
@[simp] theorem startFrame_inSize (p : Params HS cb) (m : Mode) (arm : Fsm) (s : State.Of HS cb) : (startFrame p m arm s).inSize = s.inSize := rfl
@[simp] theorem startFrame_cSize (p : Params HS cb) (m : Mode) (arm : Fsm) (s : State.Of HS cb) : (startFrame p m arm s).cSize = s.cSize := rfl
@[simp] theorem startFrame_rSize (p : Params HS cb) (m : Mode) (arm : Fsm) (s : State.Of HS cb) : (startFrame p m arm s).rSize = s.rSize := rfl
@[simp] theorem startFrame_rleByte (p : Params HS cb) (m : Mode) (arm : Fsm) (s : State.Of HS cb) : (startFrame p m arm s).rleByte = s.rleByte := rfl
@[simp] theorem startFrame_paySel (p : Params HS cb) (m : Mode) (arm : Fsm) (s : State.Of HS cb) : (startFrame p m arm s).paySel = s.paySel := rfl
@[simp] theorem startFrame_h (p : Params HS cb) (m : Mode) (arm : Fsm) (s : State.Of HS cb) : (startFrame p m arm s).h = s.h := rfl
@[simp] theorem startFrame_rawBuf (p : Params HS cb) (m : Mode) (arm : Fsm) (s : State.Of HS cb) : (startFrame p m arm s).rawBuf = (freeBuffers p s).rawBuf := rfl
@[simp] theorem startFrame_cBuf (p : Params HS cb) (m : Mode) (arm : Fsm) (s : State.Of HS cb) : (startFrame p m arm s).cBuf = (freeBuffers p s).cBuf := rfl
@[simp] theorem startFrame_srcRest (p : Params HS cb) (m : Mode) (arm : Fsm) (s : State.Of HS cb) : (startFrame p m arm s).srcRest = s.srcRest := rfl
@[simp] theorem startFrame_snkData (p : Params HS cb) (m : Mode) (arm : Fsm) (s : State.Of HS cb) : (startFrame p m arm s).snkData = s.snkData := rfl
@[simp] theorem startFrame_hostIn (p : Params HS cb) (m : Mode) (arm : Fsm) (s : State.Of HS cb) : (startFrame p m arm s).hostIn = s.hostIn := rfl
@[simp] theorem startFrame_hostData (p : Params HS cb) (m : Mode) (arm : Fsm) (s : State.Of HS cb) : (startFrame p m arm s).hostData = s.hostData := rfl
@[simp] theorem startFrame_snkReqs (p : Params HS cb) (m : Mode) (arm : Fsm) (s : State.Of HS cb) : (startFrame p m arm s).snkReqs = s.snkReqs := rfl
@[simp] theorem startFrame_freeCtr (p : Params HS cb) (m : Mode) (arm : Fsm) (s : State.Of HS cb) : (startFrame p m arm s).freeCtr = s.freeCtr + 1 := rfl

@[simp] theorem csrRead_cfgBsid (n : Word32) (s : State.Of HS cb) : (csrRead n s).cfgBsid = s.cfgBsid := rfl
@[simp] theorem csrRead_phase (n : Word32) (s : State.Of HS cb) : (csrRead n s).phase = s.phase := rfl
@[simp] theorem csrRead_mode (n : Word32) (s : State.Of HS cb) : (csrRead n s).mode = s.mode := rfl
@[simp] theorem csrRead_errClass (n : Word32) (s : State.Of HS cb) : (csrRead n s).errClass = s.errClass := rfl
@[simp] theorem csrRead_errSite (n : Word32) (s : State.Of HS cb) : (csrRead n s).errSite = s.errSite := rfl
@[simp] theorem csrRead_inCount (n : Word32) (s : State.Of HS cb) : (csrRead n s).inCount = s.inCount := rfl
@[simp] theorem csrRead_outCount (n : Word32) (s : State.Of HS cb) : (csrRead n s).outCount = s.outCount := rfl
@[simp] theorem csrRead_ckStored (n : Word32) (s : State.Of HS cb) : (csrRead n s).ckStored = s.ckStored := rfl
@[simp] theorem csrRead_ckCalc (n : Word32) (s : State.Of HS cb) : (csrRead n s).ckCalc = s.ckCalc := rfl
@[simp] theorem csrRead_fsm (n : Word32) (s : State.Of HS cb) : (csrRead n s).fsm = s.fsm := rfl
@[simp] theorem csrRead_bsidF (n : Word32) (s : State.Of HS cb) : (csrRead n s).bsidF = s.bsidF := rfl
@[simp] theorem csrRead_blkSize (n : Word32) (s : State.Of HS cb) : (csrRead n s).blkSize = s.blkSize := rfl
@[simp] theorem csrRead_hdr (n : Word32) (s : State.Of HS cb) : (csrRead n s).hdr = s.hdr := rfl
@[simp] theorem csrRead_typeTag (n : Word32) (s : State.Of HS cb) : (csrRead n s).typeTag = s.typeTag := rfl
@[simp] theorem csrRead_len (n : Word32) (s : State.Of HS cb) : (csrRead n s).len = s.len := rfl
@[simp] theorem csrRead_inSize (n : Word32) (s : State.Of HS cb) : (csrRead n s).inSize = s.inSize := rfl
@[simp] theorem csrRead_cSize (n : Word32) (s : State.Of HS cb) : (csrRead n s).cSize = s.cSize := rfl
@[simp] theorem csrRead_rSize (n : Word32) (s : State.Of HS cb) : (csrRead n s).rSize = s.rSize := rfl
@[simp] theorem csrRead_rleByte (n : Word32) (s : State.Of HS cb) : (csrRead n s).rleByte = s.rleByte := rfl
@[simp] theorem csrRead_paySel (n : Word32) (s : State.Of HS cb) : (csrRead n s).paySel = s.paySel := rfl
@[simp] theorem csrRead_h (n : Word32) (s : State.Of HS cb) : (csrRead n s).h = s.h := rfl
@[simp] theorem csrRead_rawBuf (n : Word32) (s : State.Of HS cb) : (csrRead n s).rawBuf = s.rawBuf := rfl
@[simp] theorem csrRead_cBuf (n : Word32) (s : State.Of HS cb) : (csrRead n s).cBuf = s.cBuf := rfl
@[simp] theorem csrRead_srcRest (n : Word32) (s : State.Of HS cb) : (csrRead n s).srcRest = s.srcRest := rfl
@[simp] theorem csrRead_snkData (n : Word32) (s : State.Of HS cb) : (csrRead n s).snkData = s.snkData := rfl
@[simp] theorem csrRead_hostIn (n : Word32) (s : State.Of HS cb) : (csrRead n s).hostIn = s.hostIn := rfl
@[simp] theorem csrRead_hostData (n : Word32) (s : State.Of HS cb) : (csrRead n s).hostData = csrValue n s := rfl
@[simp] theorem csrRead_snkReqs (n : Word32) (s : State.Of HS cb) : (csrRead n s).snkReqs = s.snkReqs := rfl
@[simp] theorem csrRead_freeCtr (n : Word32) (s : State.Of HS cb) : (csrRead n s).freeCtr = s.freeCtr := rfl

@[simp] theorem srcRead_fst (n : Nat) (s : State.Of HS cb) : (srcRead n s).1 = s.srcRest.take n := rfl
@[simp] theorem snkWrite_fst (p : Params HS cb) (bs : Bytes) (s : State.Of HS cb) : (snkWrite p bs s).1 = snkAccepts p bs s := rfl

end Sys2Proof.Machine
end

