-- ==== Sys2Proof/Laws/Ops.lean ====
section
/-! SUPPORT. One lemma per shared operation that says everything it can do: the ports, the buffer slices, the operands
that select a buffer, and the record a header stands for. Later proofs cite these and do not unfold the operations. -/

namespace Sys2Proof.Machine

variable {HS : Type} {cb : Nat}

/-! ## The source port -/

/-- A read that gets all it asked for. -/
theorem srcRead_full {n : Nat} {s : State.Of HS cb} (h : n ≤ s.srcRest.length) :
    srcRead n s = (s.srcRest.take n,
      { s with srcRest := s.srcRest.drop n, inCount := s.inCount + BitVec.ofNat cb n }) := by
  simp only [srcRead, List.length_take, Nat.min_eq_left h]

/-- A short read takes what is left. -/
theorem srcRead_short {n : Nat} {s : State.Of HS cb} (h : s.srcRest.length < n) :
    srcRead n s = (s.srcRest,
      { s with srcRest := [], inCount := s.inCount + BitVec.ofNat cb s.srcRest.length }) := by
  simp only [srcRead, List.take_of_length_le h.le, List.drop_eq_nil_of_le h.le]

@[simp] theorem srcRead_fst_length (n : Nat) (s : State.Of HS cb) :
    (srcRead n s).1.length = min n s.srcRest.length := by simp [srcRead]

/-! ## The sink port -/

theorem snkAccepts_le (p : Params HS cb) (bs : Bytes) (s : State.Of HS cb) : snkAccepts p bs s ≤ bs.length := by
  unfold snkAccepts
  split
  · exact Nat.zero_le _
  · exact p.snkFailLe _ _

/-- The count does not look at anything but the request, the sink's history and the request index. -/
theorem snkAccepts_congr {p : Params HS cb} {bs : Bytes} {s t : State.Of HS cb} (h1 : t.snkReqs = s.snkReqs)
    (h2 : t.snkData = s.snkData) : snkAccepts p bs t = snkAccepts p bs s := by
  unfold snkAccepts; rw [h1, h2]

/-- A sink that never fails takes the whole request. -/
theorem snkAccepts_total {p : Params HS cb} (hp : ∀ hist bs, p.snkFail hist bs = bs.length) (bs : Bytes)
    (s : State.Of HS cb) :
    snkAccepts p bs s = bs.length := by
  unfold snkAccepts
  split
  · simp_all
  · exact hp _ _

/-! ## Buffer slices -/

theorem writeRaw_fits {base : Nat} {bs : Bytes} (h : base + bs.length ≤ rawBufSize) (s : State.Of HS cb) :
    writeRaw base bs s = some { s with rawBuf := Memory.write s.rawBuf base bs } := if_pos h

theorem writeRaw_over {base : Nat} {bs : Bytes} (h : rawBufSize < base + bs.length)
    (s : State.Of HS cb) :
    writeRaw base bs s = none := if_neg (Nat.not_le.mpr h)

theorem writeC_fits {p : Params HS cb} {base : Nat} {bs : Bytes} (h : base + bs.length ≤ cBufSize p)
    (s : State.Of HS cb) :
    writeC p base bs s = some { s with cBuf := Memory.write s.cBuf base bs } := if_pos h

theorem writeC_over {p : Params HS cb} {base : Nat} {bs : Bytes} (h : cBufSize p < base + bs.length)
    (s : State.Of HS cb) :
    writeC p base bs s = none := if_neg (Nat.not_le.mpr h)

theorem readRaw_fits {base n : Nat} (h : base + n ≤ rawBufSize) (s : State.Of HS cb) :
    readRaw base n s = some (Memory.slice s.rawBuf base n) := if_pos h

theorem readRaw_over {base n : Nat} (h : rawBufSize < base + n) (s : State.Of HS cb) : readRaw base n s = none :=
  if_neg (Nat.not_le.mpr h)

theorem readC_fits {p : Params HS cb} {base n : Nat} (h : base + n ≤ cBufSize p)
    (s : State.Of HS cb) :
    readC p base n s = some (Memory.slice s.cBuf base n) := if_pos h

theorem readC_over {p : Params HS cb} {base n : Nat} (h : cBufSize p < base + n) (s : State.Of HS cb) :
    readC p base n s = none :=
  if_neg (Nat.not_le.mpr h)

@[simp] theorem orOverrun_some {α : Type} (x : α) (f : α → Host.Outcome (State.Of HS cb) Fault Refusal) :
    orOverrun (some x) f = f x := rfl

@[simp] theorem orOverrun_none {α : Type} (f : α → Host.Outcome (State.Of HS cb) Fault Refusal) :
    orOverrun none f = .fault .bufferOverrun := rfl

/-- MC1 and MC2 of R8: a whole block fits CBUF. -/
theorem blkSize_le_cBufSize (p : Params HS cb) {n : Nat} (h : n ≤ 2097152) : n ≤ cBufSize p := by
  unfold cBufSize MAX_BLKSIZE
  have := p.mc1 2097152 (by decide) (Nat.le_refl _)
  omega

/-- MC2 of R8: the bound of any legal block size fits CBUF behind the three header bytes. -/
theorem maxCompressed_le_cBufSize (p : Params HS cb) {n : Nat} (h : n ≤ 2097152) :
    p.maxCompressed n + 3 ≤ cBufSize p := by
  unfold cBufSize MAX_BLKSIZE
  have := p.mc2 n 2097152 h
  omega

/-- MC2 and MC3 of R8: the bound of any legal block size fits the 22-bit field. -/
theorem maxCompressed_lt_field (p : Params HS cb) {n : Nat} (h : n ≤ 2097152) : p.maxCompressed n < 4194304 := by
  have := p.mc2 n 2097152 h
  have := p.mc3
  omega

/-! ## The block size -/

/-- R96, R147 (d): a legal block size fits the 22-bit register. -/
theorem blockSize_toNat :
    ∀ id : BitVec 4, id.toNat ≤ 11 → (blockSize id).toNat = 1024 <<< id.toNat ∧ (blockSize id).toNat ≤ 2097152 := by
  decide

/-! ## The range of INSIZE -/

/-- I5 of R45: whatever INSIZE was, it is then in its range. -/
theorem inSizeWithin_le (size : BitVec 22) (s : State.Of HS cb) : (inSizeWithin size s).toNat ≤ size.toNat := by
  unfold inSizeWithin
  split
  · assumption
  · have hs := size.isLt
    have hm : Config.freeInSize s.freeCtr % (size.toNat + 1) < size.toNat + 1 := Nat.mod_lt _ (Nat.succ_pos _)
    rw [BitVec.toNat_ofNat, Nat.mod_eq_of_lt] <;> omega

/-- An INSIZE in its range is kept. -/
theorem inSizeWithin_keeps {size : BitVec 22} {s : State.Of HS cb} (h : s.inSize.toNat ≤ size.toNat) :
    inSizeWithin size s = s.inSize := if_pos h

end Sys2Proof.Machine
end

