-- ==== Sys2Proof/Laws/Arms.lean ====
section
/-! SUPPORT. One lemma per arm that says everything the arm can do, in every state: which next state it answers under
which condition, and where it stops. An invariant or a run is proved from these by cases; no later proof unfolds an
arm. -/

namespace Sys2Proof.Machine

variable {HS : Type} {cb : Nat}

/-! ## The decoder's arms -/

/-- D_FRAMEHDR (R181): an error of the table of R252, or the record FRAME with a legal `blockSizeId`. -/
theorem armDFrameHdr_cases (ex : Exec HS cb) (s : State.Of HS cb) :
    (∃ site, siteClass site ≠ .none ∧
      armDFrameHdr ex s = .next (raise (siteClass site) site (srcRead 5 s).2)) ∨
    (∃ id : BitVec 4, id.toNat ≤ 11 ∧ 5 ≤ s.srcRest.length ∧ s.srcRest.take 5 = packFrameHdr id ∧
      armDFrameHdr ex s = ex (.frame id) (srcRead 5 s).2) := by
  have hl : (srcRead 5 s).1 = s.srcRest.take 5 := rfl
  unfold armDFrameHdr
  rw [hl]
  rcases decodeFH_cases (s.srcRest.take 5) with ⟨_, e⟩ | ⟨_, _, e⟩ | ⟨_, _, _, e⟩ | ⟨_, _, _, e⟩ | ⟨id, h5, _, _, hid, e⟩
  · rw [e]; exact .inl ⟨.dRdFrameHdr, by decide, rfl⟩
  · rw [e]; exact .inl ⟨.dMagic, by decide, rfl⟩
  · rw [e]; exact .inl ⟨.dReserved, by decide, rfl⟩
  · rw [e]; exact .inl ⟨.dBsid, by decide, rfl⟩
  · right
    obtain ⟨j, hj, hji, hb⟩ := (decodeFH_ok _ _ _).mp e
    cases hji
    have h5' : 5 ≤ s.srcRest.length := by simp at h5; exact h5
    have hd : (s.srcRest.take 5).drop 5 = [] := by simp
    rw [hd, List.append_nil] at hb
    rw [e]
    exact ⟨id, hid, h5', hb, rfl⟩

/-- D_AWAITHDR (R182). -/
theorem armDAwaitHdr_cases (s : State.Of HS cb) :
    (s.srcRest.length < 3 ∧ armDAwaitHdr s = .next (raise .ioError .dRdBlkHdr
      { s with srcRest := [], inCount := s.inCount + BitVec.ofNat cb s.srcRest.length })) ∨
    (3 ≤ s.srcRest.length ∧ armDAwaitHdr s = .next
      { s with
          srcRest := s.srcRest.drop 3, inCount := s.inCount + 3#cb
          hdr := hdrOfBytes (s.srcRest.take 3), fsm := .dDispatch }) := by
  unfold armDAwaitHdr
  rcases Nat.lt_or_ge s.srcRest.length 3 with h | h
  · left; rw [srcRead_short h]; exact ⟨h, if_pos h⟩
  · right; rw [srcRead_full h]
    exact ⟨h, if_neg (by simp [h])⟩

/-- FRAME (R181). -/
theorem frameRecord_cases (p : Params HS cb) (id : BitVec 4) (s : State.Of HS cb) :
    (11 < id.toNat ∧ frameRecord p id s = .next (raise .formatError .dBsid s)) ∨
    (id.toNat ≤ 11 ∧ frameRecord p id s = .next { hInit p (setBlockSize id s) with fsm := .dAwaitHdr }) := by
  unfold frameRecord
  rcases Nat.lt_or_ge 11 id.toNat with h | h
  · exact .inl ⟨h, if_pos h⟩
  · exact .inr ⟨h, if_neg (Nat.not_lt.mpr h)⟩

/-- D_DISPATCH of a data block (R183). -/
theorem dispatchData_cases (tag : BitVec 2) (field : BitVec 22) (bound : Nat) (site : ErrSite) (arm : Fsm)
    (s : State.Of HS cb) :
    (bound < field.toNat ∧
      dispatchData tag field bound site arm s = raise .formatError site { s with typeTag := tag, len := field }) ∨
    (field.toNat ≤ bound ∧
      dispatchData tag field bound site arm s = { s with typeTag := tag, len := field, fsm := arm }) := by
  unfold dispatchData
  rcases Nat.lt_or_ge bound field.toNat with h | h
  · exact .inl ⟨h, if_pos h⟩
  · exact .inr ⟨h, if_neg (Nat.not_lt.mpr h)⟩

/-- D_READBODY (R185). -/
theorem readBody_cases (p : Params HS cb) (s : State.Of HS cb) :
    (s.srcRest.length < s.len.toNat ∧ readBody p s = .next (raise .ioError .dRdRaw
      { s with srcRest := [], inCount := s.inCount + BitVec.ofNat cb s.srcRest.length })) ∨
    (s.len.toNat ≤ s.srcRest.length ∧ cBufSize p < s.len.toNat ∧ readBody p s = .fault .bufferOverrun) ∨
    (s.len.toNat ≤ s.srcRest.length ∧ s.len.toNat ≤ cBufSize p ∧ readBody p s = .next
      { s with
          srcRest := s.srcRest.drop s.len.toNat
          inCount := s.inCount + BitVec.ofNat cb s.len.toNat
          cBuf := Memory.write s.cBuf 0 (s.srcRest.take s.len.toNat)
          rSize := s.len, paySel := .c, fsm := .dEmit }) := by
  unfold readBody
  rcases Nat.lt_or_ge s.srcRest.length s.len.toNat with h | h
  · left; rw [srcRead_short h]; exact ⟨h, if_pos h⟩
  · right; rw [srcRead_full h]
    have hl : (s.srcRest.take s.len.toNat).length = s.len.toNat := by simp [h]
    simp only [hl, Nat.lt_irrefl, if_false]
    rcases Nat.lt_or_ge (cBufSize p) s.len.toNat with hc | hc
    · left; rw [writeC_over (by omega)]; exact ⟨h, hc, rfl⟩
    · right; rw [writeC_fits (by omega)]; exact ⟨h, hc, rfl⟩

/-- D_SYNTH (R186). -/
theorem synth_cases (s : State.Of HS cb) :
    (s.srcRest = [] ∧ synth s = .next (raise .ioError .dRdRle s)) ∨
    (∃ b rest, s.srcRest = b :: rest ∧ rawBufSize < s.len.toNat ∧ synth s = .fault .bufferOverrun) ∨
    (∃ b rest, s.srcRest = b :: rest ∧ s.len.toNat ≤ rawBufSize ∧ synth s = .next
      { s with
          srcRest := rest, inCount := s.inCount + 1#cb, rleByte := b
          rawBuf := Memory.write s.rawBuf 0 (rep b s.len.toNat)
          rSize := s.len, paySel := .r, fsm := .dEmit }) := by
  unfold synth
  cases h : s.srcRest with
  | nil =>
    left; refine ⟨rfl, ?_⟩
    simp only [srcRead, h, List.take_nil, List.drop_nil, List.length_nil, Nat.lt_one_iff, if_true]
    congr 2
    rw [← h]; simp
  | cons b rest =>
    right
    have hr : (rep b s.len.toNat).length = s.len.toNat := by simp [rep]
    have hb : byteAt [b] 0 = b := rfl
    simp only [srcRead, h, List.take_succ_cons, List.take_zero, List.drop_succ_cons, List.drop_zero, List.length_cons,
      List.length_nil, Nat.zero_add, Nat.lt_irrefl, if_false, hb]
    rcases Nat.lt_or_ge rawBufSize s.len.toNat with hc | hc
    · left; rw [writeRaw_over (by omega)]; exact ⟨b, rest, rfl, hc, rfl⟩
    · right; rw [writeRaw_fits (by omega)]; exact ⟨b, rest, rfl, hc, rfl⟩

/-- The answer of the decompressor (R187, R232). -/
theorem takeDecoded_cases (a : DRes) (t : State.Of HS cb) :
    (∃ e, a = .err e ∧ takeDecoded a t = .next (raise .decoderError .dDecomp t)) ∨
    (∃ q, a = .len q ∧ t.blkSize.toNat < q.length ∧ takeDecoded a t = .next (raise .decoderError .dRSize t)) ∨
    (∃ q, a = .len q ∧ q.length ≤ t.blkSize.toNat ∧ rawBufSize < q.length ∧
      takeDecoded a t = .fault .bufferOverrun) ∨
    (∃ q, a = .len q ∧ q.length ≤ t.blkSize.toNat ∧ q.length ≤ rawBufSize ∧ takeDecoded a t = .next
      { t with
          rawBuf := Memory.write t.rawBuf 0 q, rSize := BitVec.ofNat 22 q.length, paySel := .r, fsm := .dEmit }) := by
  cases a with
  | err e => exact .inl ⟨e, rfl, rfl⟩
  | len q =>
    right
    rcases Nat.lt_or_ge t.blkSize.toNat q.length with h | h
    · exact .inl ⟨q, rfl, h, if_pos h⟩
    · right
      have e : takeDecoded (.len q) t = orOverrun (writeRaw 0 q t) fun u =>
          .next { u with rSize := BitVec.ofNat 22 q.length, paySel := .r, fsm := .dEmit } :=
        if_neg (Nat.not_lt.mpr h)
      rw [e]
      rcases Nat.lt_or_ge rawBufSize q.length with hc | hc
      · left; rw [writeRaw_over (by omega)]; exact ⟨q, rfl, h, hc, rfl⟩
      · right; rw [writeRaw_fits (by omega)]; exact ⟨q, rfl, h, hc, rfl⟩

/-- D_ENTROPY up to the decompressor's answer (R187). -/
theorem entropy_cases (p : Params HS cb) (s : State.Of HS cb) :
    (s.srcRest.length < s.len.toNat ∧ entropy p s = .next (raise .ioError .dRdComp
      { s with srcRest := [], inCount := s.inCount + BitVec.ofNat cb s.srcRest.length })) ∨
    (s.len.toNat ≤ s.srcRest.length ∧ cBufSize p < s.len.toNat ∧ entropy p s = .fault .bufferOverrun) ∨
    (s.len.toNat ≤ s.srcRest.length ∧ s.len.toNat ≤ cBufSize p ∧ entropy p s =
      takeDecoded (p.entDecompress s.blkSize.toNat (s.srcRest.take s.len.toNat))
        { s with
            srcRest := s.srcRest.drop s.len.toNat
            inCount := s.inCount + BitVec.ofNat cb s.len.toNat
            cBuf := Memory.write s.cBuf 0 (s.srcRest.take s.len.toNat) }) := by
  unfold entropy
  rcases Nat.lt_or_ge s.srcRest.length s.len.toNat with h | h
  · left; rw [srcRead_short h]; exact ⟨h, if_pos h⟩
  · right; rw [srcRead_full h]
    have hl : (s.srcRest.take s.len.toNat).length = s.len.toNat := by simp [h]
    simp only [hl, Nat.lt_irrefl, if_false]
    rcases Nat.lt_or_ge (cBufSize p) s.len.toNat with hc | hc
    · left; rw [writeC_over (by omega)]; exact ⟨h, hc, rfl⟩
    · right; rw [writeC_fits (by omega)]; exact ⟨h, hc, rfl⟩

/-- The payload D_EMIT writes (R188). -/
theorem payload_cases (p : Params HS cb) (s : State.Of HS cb) :
    (s.paySel = .c ∧ cBufSize p < s.rSize.toNat ∧ payload p s = none) ∨
    (s.paySel = .r ∧ rawBufSize < s.rSize.toNat ∧ payload p s = none) ∨
    (s.paySel = .c ∧ s.rSize.toNat ≤ cBufSize p ∧ payload p s = some (Memory.slice s.cBuf 0 s.rSize.toNat)) ∨
    (s.paySel = .r ∧ s.rSize.toNat ≤ rawBufSize ∧ payload p s = some (Memory.slice s.rawBuf 0 s.rSize.toNat)) := by
  unfold payload
  cases s.paySel with
  | c =>
    rcases Nat.lt_or_ge (cBufSize p) s.rSize.toNat with h | h
    · exact .inl ⟨rfl, h, readC_over (by omega) s⟩
    · exact .inr (.inr (.inl ⟨rfl, h, readC_fits (by omega) s⟩))
  | r =>
    rcases Nat.lt_or_ge rawBufSize s.rSize.toNat with h | h
    · exact .inr (.inl ⟨rfl, h, readRaw_over (by omega) s⟩)
    · exact .inr (.inr (.inr ⟨rfl, h, readRaw_fits (by omega) s⟩))

/-- D_EMIT once the payload is known (R188). -/
theorem emitPayload_some {p : Params HS cb} {s : State.Of HS cb} {pay : Bytes} (h : payload p s = some pay)
    (site : ErrSite) :
    emitPayload p site s = .next
      (if snkAccepts p pay s < s.rSize.toNat then raise .ioError site (snkWrite p pay s).2
       else { hUpdate p pay (snkWrite p pay s).2 with fsm := .dAwaitHdr }) := by
  unfold emitPayload
  rw [h]
  show (if _ then _ else _) = _
  split <;> rename_i hk
  · exact congrArg _ (if_pos hk).symm
  · exact congrArg _ (if_neg hk).symm

theorem emitPayload_none {p : Params HS cb} {s : State.Of HS cb} (h : payload p s = none) (site : ErrSite) :
    emitPayload p site s = .fault .bufferOverrun := by
  unfold emitPayload; rw [h]; rfl

/-- D_VERIFY (R189). -/
theorem verify_cases (p : Params HS cb) (s : State.Of HS cb) :
    (checksum p s ≠ s.ckStored ∧
      verify p s = raise .checksumError .dChecksum { s with ckCalc := checksum p s }) ∨
    (checksum p s = s.ckStored ∧ verify p s = finish { s with ckCalc := checksum p s }) := by
  unfold verify
  by_cases h : checksum p s = s.ckStored
  · exact .inr ⟨h, if_neg (by simpa using h)⟩
  · exact .inl ⟨h, if_pos h⟩

/-! ## The encoder's arms -/

/-- E_HEADER (R161). -/
theorem armEHeader_cases (p : Params HS cb) (s : State.Of HS cb) :
    (11 < s.cfgBsid.toNat ∧ armEHeader p s = .refused .packDescAbove11) ∨
    (s.cfgBsid.toNat ≤ 11 ∧ armEHeader p s = .next
      (if snkAccepts p (packFrameHdr s.cfgBsid) s < 5
       then raise .ioError .eWrFrameHdr (snkWrite p (packFrameHdr s.cfgBsid) (setBlockSize s.cfgBsid s)).2
       else { hInit p (snkWrite p (packFrameHdr s.cfgBsid) (setBlockSize s.cfgBsid s)).2 with fsm := .eRead })) := by
  unfold armEHeader
  rcases Nat.lt_or_ge 11 s.cfgBsid.toNat with h | h
  · exact .inl ⟨h, if_pos h⟩
  · right
    refine ⟨h, (if_neg (Nat.not_lt.mpr h)).trans ?_⟩
    show (if snkAccepts p (packFrameHdr s.cfgBsid) s < 5 then _ else _) = _
    split <;> rfl

/-- E_READ (R162). -/
theorem armERead_cases (s : State.Of HS cb) :
    (rawBufSize < min s.blkSize.toNat s.srcRest.length ∧ armERead s = .fault .bufferOverrun) ∨
    (min s.blkSize.toNat s.srcRest.length ≤ rawBufSize ∧ armERead s = .next
      { s with
          srcRest := s.srcRest.drop s.blkSize.toNat
          inCount := s.inCount + BitVec.ofNat cb (min s.blkSize.toNat s.srcRest.length)
          rawBuf := Memory.write s.rawBuf 0 (s.srcRest.take s.blkSize.toNat)
          inSize := BitVec.ofNat 22 (min s.blkSize.toNat s.srcRest.length)
          fsm := if min s.blkSize.toNat s.srcRest.length = 0 then .eTrailer else .eCompress }) := by
  unfold armERead
  have hl : (srcRead s.blkSize.toNat s).1.length = min s.blkSize.toNat s.srcRest.length := by simp
  rcases Nat.lt_or_ge rawBufSize (min s.blkSize.toNat s.srcRest.length) with h | h
  · left
    refine ⟨h, ?_⟩
    show orOverrun (writeRaw 0 (srcRead s.blkSize.toNat s).1 _) _ = _
    rw [writeRaw_over (by omega)]; rfl
  · right
    refine ⟨h, ?_⟩
    show orOverrun (writeRaw 0 (srcRead s.blkSize.toNat s).1 _) _ = _
    rw [writeRaw_fits (by omega)]
    simp only [orOverrun_some, hl]
    simp only [srcRead, List.length_take]

/-- The answer of the compressor (R163 to R166, R231). -/
theorem takeCompressed_cases (p : Params HS cb) (a : CRes) (t : State.Of HS cb) :
    (∃ e, a = .err e ∧ takeCompressed p a t = .next (raise .encoderError .eCompress t)) ∨
    (a = .code0 ∧ takeCompressed p a t = .next { t with typeTag := 1#2, len := t.inSize, fsm := .eEmit }) ∨
    (a = .code1 ∧ takeCompressed p a t = .next
      { t with typeTag := 2#2, len := t.inSize, rleByte := Memory.read t.rawBuf 0, fsm := .eEmit }) ∨
    (∃ body, a = .size body ∧ (4194304 ≤ body.length ∨ p.maxCompressed t.inSize.toNat < body.length) ∧
      takeCompressed p a t = .next (raise .encoderError .eBound t)) ∨
    (∃ body, a = .size body ∧ body.length < 4194304 ∧ body.length ≤ p.maxCompressed t.inSize.toNat ∧
      cBufSize p < 3 + body.length ∧ takeCompressed p a t = .fault .bufferOverrun) ∨
    (∃ body, a = .size body ∧ body.length < 4194304 ∧ body.length ≤ p.maxCompressed t.inSize.toNat ∧
      3 + body.length ≤ cBufSize p ∧ takeCompressed p a t = .next
        { t with
            cBuf := Memory.write t.cBuf 3 body, cSize := BitVec.ofNat 22 body.length, typeTag := 0#2
            len := BitVec.ofNat 22 body.length, fsm := .eEmit }) := by
  cases a with
  | err e => exact .inl ⟨e, rfl, rfl⟩
  | code0 => exact .inr (.inl ⟨rfl, rfl⟩)
  | code1 => exact .inr (.inr (.inl ⟨rfl, rfl⟩))
  | size body =>
    right; right; right
    by_cases h : 4194304 ≤ body.length ∨ p.maxCompressed t.inSize.toNat < body.length
    · exact .inl ⟨body, rfl, h, if_pos h⟩
    · right
      have e : takeCompressed p (.size body) t = orOverrun (writeC p 3 body t) fun u =>
          .next { u with
            cSize := BitVec.ofNat 22 body.length
            typeTag := 0#2
            len := BitVec.ofNat 22 body.length
            fsm := .eEmit } := if_neg h
      rw [e]
      rcases Nat.lt_or_ge (cBufSize p) (3 + body.length) with hc | hc
      · left; rw [writeC_over hc]; exact ⟨body, rfl, by omega, by omega, hc, rfl⟩
      · right; rw [writeC_fits hc]; exact ⟨body, rfl, by omega, by omega, hc, rfl⟩

/-- E_COMPRESS up to the compressor's answer (R163). -/
theorem armECompress_cases (p : Params HS cb) (s : State.Of HS cb) :
    (s.inSize = 0#22 ∧ armECompress p s = .refused .entCompressEmpty) ∨
    (s.inSize ≠ 0#22 ∧ rawBufSize < s.inSize.toNat ∧ armECompress p s = .fault .bufferOverrun) ∨
    (s.inSize ≠ 0#22 ∧ s.inSize.toNat ≤ rawBufSize ∧ armECompress p s =
      takeCompressed p (p.entCompress (Memory.slice s.rawBuf 0 s.inSize.toNat))
        (hUpdate p (Memory.slice s.rawBuf 0 s.inSize.toNat) s)) := by
  unfold armECompress
  by_cases h : s.inSize = 0#22
  · exact .inl ⟨h, if_pos h⟩
  · right
    rw [if_neg h]
    rcases Nat.lt_or_ge rawBufSize s.inSize.toNat with hc | hc
    · left; rw [readRaw_over (by omega)]; exact ⟨h, hc, rfl⟩
    · right; rw [readRaw_fits (by omega)]; exact ⟨h, hc, rfl⟩

/-- The body E_EMIT writes (R167). -/
theorem emitBody_cases (p : Params HS cb) (s : State.Of HS cb) :
    (s.typeTag = 1#2 ∧ emitBody p s = some (readRaw 0 s.inSize.toNat s)) ∨
    (s.typeTag = 2#2 ∧ emitBody p s = some (some [s.rleByte])) ∨
    (s.typeTag = 0#2 ∧ emitBody p s = some (readC p 3 s.cSize.toNat s)) ∨
    (s.typeTag = 3#2 ∧ emitBody p s = none) := by
  unfold emitBody
  generalize s.typeTag = t
  revert t
  have key : ∀ t : BitVec 2, t = 1#2 ∨ t = 2#2 ∨ t = 0#2 ∨ t = 3#2 := by decide
  intro t
  rcases key t with h | h | h | h <;> subst h <;> simp

/-- E_EMIT once its body is known (R167). -/
theorem armEEmit_body {p : Params HS cb} {s : State.Of HS cb} {body : Bytes}
    (hb : emitBody p { s with cBuf := Memory.write s.cBuf 0 (packHdr s.typeTag s.len).toBytes } = some (some body)) :
    armEEmit p s = .next
      (if snkAccepts p ((packHdr s.typeTag s.len).toBytes ++ body) s < 3 + body.length
       then raise .ioError (emitSite s.typeTag) (snkWrite p ((packHdr s.typeTag s.len).toBytes ++ body)
         { s with cBuf := Memory.write s.cBuf 0 (packHdr s.typeTag s.len).toBytes }).2
       else { (snkWrite p ((packHdr s.typeTag s.len).toBytes ++ body)
         { s with cBuf := Memory.write s.cBuf 0 (packHdr s.typeTag s.len).toBytes }).2 with fsm := .eRead }) := by
  have h3 : 0 + (packHdr s.typeTag s.len).toBytes.length ≤ cBufSize p := by
    have : (packHdr s.typeTag s.len).toBytes.length = 3 := rfl
    unfold cBufSize; omega
  unfold armEEmit
  rw [writeC_fits h3, orOverrun_some, hb]
  show (if snkAccepts p ((packHdr s.typeTag s.len).toBytes ++ body) s < 3 + body.length then _ else _) = _
  split <;> rfl

/-- E_TRAILER (R168). -/
theorem armETrailer_eq (p : Params HS cb) (s : State.Of HS cb) :
    armETrailer p s = .next
      (if snkAccepts p (packTrailer (checksum p s)) s < 3
       then raise .ioError .eWrTrailer (snkWrite p (packTrailer (checksum p s)) { s with ckCalc := checksum p s }).2
       else finish (snkWrite p (packTrailer (checksum p s)) { s with ckCalc := checksum p s }).2) := by
  unfold armETrailer
  show (if snkAccepts p (packTrailer (checksum p s)) s < 3 then _ else _) = _
  split <;> rfl

/-! ## The CODEC's turn -/

/-- In BUSY the arm at which FSM stands runs (R29). -/
theorem codecStep_busy (p : Params HS cb) (ex : Exec HS cb) {s : State.Of HS cb} (h : s.phase = .busy) :
    codecStep p ex s =
      match s.fsm with
      | .none => .next s
      | .eHeader => armEHeader p s
      | .eRead => armERead s
      | .eCompress => armECompress p s
      | .eEmit => armEEmit p s
      | .eTrailer => armETrailer p s
      | .dFrameHdr => armDFrameHdr ex s
      | .dAwaitHdr => armDAwaitHdr s
      | .dDispatch => ex (decodeHdr s.hdr) s
      | .dReadBody => ex (.raw s.len) s
      | .dSynth => ex (.rle s.len) s
      | .dEntropy => ex (.comp s.len) s
      | .dEmit => ex (recordOf s.typeTag s.len) s
      | .dVerify => ex (.crc s.ckStored) s := if_pos h

/-- A step in which the HOST leaves the turn to the CODEC (R16). -/
theorem stepWith_codec (p : Params HS cb) (ex : Exec HS cb) {s : State.Of HS cb}
    (h : s.hostIn = [] ∨ s.hostIn.head? = some .run) :
    stepWith p ex s = codecStep p ex { s with hostIn := s.hostIn.tail } := by
  rcases s with ⟨⟩
  rename_i q _ _ _
  unfold stepWith
  cases q with
  | nil => rfl
  | cons o q =>
    have ho : o = .run := by simpa using h
    subst ho; rfl

/-- Outside BUSY the CODEC does nothing (R66). -/
theorem codecStep_idle (p : Params HS cb) (ex : Exec HS cb) {s : State.Of HS cb} (h : s.phase ≠ .busy) :
    codecStep p ex s = .next s :=
  if_neg h

/-- ENCODE in each phase (R214, R217). -/
theorem encodeCommand_cases (p : Params HS cb) (s : State.Of HS cb) :
    (s.phase = .idle ∧ encodeCommand p s = .next (startFrame p .enc .eHeader s)) ∨
    (s.phase ≠ .idle ∧ encodeCommand p s = .next s) := by
  rcases em (s.phase = .idle) with h | h
  · exact .inl ⟨h, congrArg _ (if_pos h)⟩
  · exact .inr ⟨h, congrArg _ (if_neg h)⟩

/-- DECODE in each phase (R215, R217). -/
theorem decodeCommand_cases (p : Params HS cb) (s : State.Of HS cb) :
    (s.phase = .idle ∧ decodeCommand p s = .next (startFrame p .dec .dFrameHdr s)) ∨
    (s.phase ≠ .idle ∧ decodeCommand p s = .next s) := by
  rcases em (s.phase = .idle) with h | h
  · exact .inl ⟨h, congrArg _ (if_pos h)⟩
  · exact .inr ⟨h, congrArg _ (if_neg h)⟩

/-- CLEAR in each phase (R216). -/
theorem clearCommand_cases (s : State.Of HS cb) :
    ((s.phase = .done ∨ s.phase = .error) ∧
      clearCommand s = .next { s with phase := .idle, errClass := .none, errSite := .none }) ∨
    (¬(s.phase = .done ∨ s.phase = .error) ∧ clearCommand s = .next s) := by
  rcases em (s.phase = .done ∨ s.phase = .error) with h | h
  · exact .inl ⟨h, congrArg _ (if_pos h)⟩
  · exact .inr ⟨h, congrArg _ (if_neg h)⟩

/-- The record a type tag stands for (R97). -/
theorem recordOf_cases (tag : BitVec 2) (field : BitVec 22) :
    (tag = 0#2 ∧ recordOf tag field = .comp field) ∨ (tag = 1#2 ∧ recordOf tag field = .raw field) ∨
    (tag = 2#2 ∧ recordOf tag field = .rle field) ∨ (tag = 3#2 ∧ recordOf tag field = .crc field) := by
  have key : ∀ t : BitVec 2, t = 0#2 ∨ t = 1#2 ∨ t = 2#2 ∨ t = 3#2 := by decide
  rcases key tag with h | h | h | h <;> subst h <;> simp [recordOf]

/-- Writing `CFG` (R212). -/
theorem writeCfg_cases (v : Word32) (s : State.Of HS cb) :
    (s.phase ≠ .busy ∧ (v.extractLsb' 0 4).toNat ≤ 11 ∧ writeCfg v s = { s with cfgBsid := v.extractLsb' 0 4 }) ∨
    ((s.phase = .busy ∨ 11 < (v.extractLsb' 0 4).toNat) ∧ writeCfg v s = s) := by
  unfold writeCfg
  by_cases h : s.phase ≠ .busy ∧ (v.extractLsb' 0 4).toNat ≤ MAX_BSID
  · exact .inl ⟨h.1, h.2, if_pos h⟩
  · refine .inr ⟨?_, if_neg h⟩
    by_cases hb : s.phase = .busy
    · exact .inl hb
    · exact .inr (Nat.lt_of_not_le fun hv => h ⟨hb, hv⟩)

end Sys2Proof.Machine
end

