-- ==== Sys2Proof/Laws/Checksum.lean ====
section
/-! SUPPORT. Small laws of the accumulator: what the decided instance's fields are, and what an accumulator begun by
H_INIT holds after any pieces. -/

namespace Sys2Proof.Machine

@[simp] theorem params_hash : Config.params.hash = XXH32 := rfl

@[simp] theorem params_hashReset : Config.params.hashReset = HashRegs.reset := rfl

theorem XXH32_update {cb : Nat} (h : HashRegs cb) (bs : Bytes) : XXH32.update h bs = xxhUpdate h bs := rfl

theorem XXH32_final {cb : Nat} (h : HashRegs cb) : XXH32.final h = xxhFinal h := rfl

theorem XXH32_fresh {cb : Nat} (n : Nat) : (XXH32 (cb := cb)).fresh n = xxhInit (Config.freeHashMem n) := rfl

/-- The final value depends only on the concatenation of everything absorbed (R144), one piece at least. -/
theorem final_update_pieces {HS : Type} (u : HashUnit HS) (h : HS) (pieces : List Bytes) :
    ∀ a : Bytes, u.final (pieces.foldl u.update (u.update h a)) = u.final (u.update h (a ++ pieces.flatten)) := by
  induction pieces with
  | nil => intro a; simp
  | cons b l ih =>
    intro a
    rw [List.foldl_cons, u.chunking, ih, List.flatten_cons, List.append_assoc]

/-- The same for any number of pieces. -/
theorem final_pieces {HS : Type} (u : HashUnit HS) (h : HS) (pieces : List Bytes) :
    u.final (pieces.foldl u.update h) = u.final (u.update h pieces.flatten) := by
  cases pieces with
  | nil => exact (u.emptyUpdate h).symm
  | cons a l => exact final_update_pieces u h l a

/-- What an accumulator begun by H_INIT holds after any pieces is the hash of their concatenation (R144, R149). -/
theorem final_fresh {HS : Type} (u : HashUnit HS) (n : Nat) (pieces : List Bytes) :
    u.final (pieces.foldl u.update (u.fresh n)) = u.hash pieces.flatten :=
  (final_pieces u _ pieces).trans (u.freshHash _ _)

end Sys2Proof.Machine
end

