-- ==== Sys2Proof/Laws/PerInstr.lean ====
section
/-! SUPPORT. Statements made per instruction, one family each. Family `TableRow`: the encoding of a well-formed
instruction, read as the number spec/opcode_table.json numbers, fits the row of its mnemonic. -/

namespace Sys2Proof.Laws.TableRow

/-- A row of spec/opcode_table.json: width, match, mask. -/
structure Row where
  width : Nat
  fixed : Nat
  mask : Nat
  deriving DecidableEq, Repr

/-- The row of each instruction's mnemonic. -/
def row : Instr → Row
  | .frame _ => ⟨40, 0x08233E1800, 0xFFFFFFFFF0⟩
  | .comp _ => ⟨24, 0x000000, 0xC00000⟩
  | .raw _ => ⟨24, 0x400000, 0xC00000⟩
  | .rle _ => ⟨24, 0x800000, 0xC00000⟩
  | .crc _ => ⟨24, 0xC00000, 0xC00000⟩
  | .nop => ⟨32, 0, 3⟩
  | .encode => ⟨32, 1, 3⟩
  | .decode => ⟨32, 2, 3⟩
  | .clear => ⟨32, 3, 3⟩

/-- A code as one number: the stream bytes with the first most significant (R92, R94), a command as its value. -/
def word : Code → Nat
  | .fh b => b.foldl (fun n x => n * 256 + x.toNat) 0
  | .bh b => b.foldl (fun n x => n * 256 + x.toNat) 0
  | .cmd v => v.toNat

/-- How many bits a code has. -/
def width : Code → Nat
  | .fh b => 8 * b.length
  | .bh b => 8 * b.length
  | .cmd _ => 32

/-- The encoding has the row's width and its fixed bits. -/
def Statement (i : Instr) : Prop :=
  i.wellFormed = true → width (encode i) = (row i).width ∧ word (encode i) &&& (row i).mask = (row i).fixed

theorem frame (bsid : BitVec 4) : Statement (.frame bsid) := by
  revert bsid; unfold Statement; decide

/-- The type tag stands in the top two bits of a block header, whatever the field is. -/
theorem header_word (t : BitVec 2) (f : BitVec 22) :
    word (.bh (packHdr t f).toBytes) &&& 0xC00000 = t.toNat * 4194304 := by
  have h0 : (packHdr t f).b0.toNat = t.toNat * 64 + f.toNat / 65536 := by
    have hf := f.isLt
    simp only [packHdr, BitVec.toNat_append, BitVec.extractLsb'_toNat]
    rw [← Nat.shiftLeft_add_eq_or_of_lt (Nat.mod_lt _ (by decide))]
    simp only [Nat.shiftLeft_eq, Nat.shiftRight_eq_div_pow]
    omega
  have h1 := (packHdr t f).b1.isLt
  have h2 := (packHdr t f).b2.isLt
  have hf := f.isLt
  have ht := t.isLt
  have hw : word (.bh (packHdr t f).toBytes) =
      t.toNat <<< 22 + (f.toNat / 65536 * 65536 + (packHdr t f).b1.toNat * 256 + (packHdr t f).b2.toNat) := by
    simp only [word, HdrBytes.toBytes, List.foldl_cons, List.foldl_nil, h0, Nat.shiftLeft_eq]
    omega
  have hlow : f.toNat / 65536 * 65536 + (packHdr t f).b1.toNat * 256 + (packHdr t f).b2.toNat < 2 ^ 22 := by omega
  rw [hw, Nat.shiftLeft_add_eq_or_of_lt hlow]
  apply Nat.eq_of_testBit_eq
  intro k
  have hm : (0xC00000 : Nat) = 3 <<< 22 := by decide
  have hr : t.toNat * 4194304 = t.toNat <<< 22 := by rw [Nat.shiftLeft_eq]
  rw [hm, hr, Nat.testBit_and, Nat.testBit_or, Nat.testBit_shiftLeft, Nat.testBit_shiftLeft]
  by_cases hk : 22 ≤ k
  · rw [Nat.testBit_lt_two_pow (Nat.lt_of_lt_of_le hlow (Nat.pow_le_pow_right (by decide) hk))]
    have h3 : (t.toNat &&& 3) = t.toNat := by
      have := Nat.and_two_pow_sub_one_eq_mod t.toNat 2
      simp only [Nat.reducePow, Nat.reduceSub] at this
      omega
    have := congrArg (fun x => x.testBit (k - 22)) h3
    simp only [Nat.testBit_and] at this
    simp [hk, this]
  · simp [hk]

theorem comp (len : BitVec 22) : Statement (.comp len) := fun _ => ⟨rfl, header_word 0#2 len⟩
theorem raw (len : BitVec 22) : Statement (.raw len) := fun _ => ⟨rfl, header_word 1#2 len⟩
theorem rle (len : BitVec 22) : Statement (.rle len) := fun _ => ⟨rfl, header_word 2#2 len⟩
theorem crc (ck : BitVec 22) : Statement (.crc ck) := fun _ => ⟨rfl, header_word 3#2 ck⟩
theorem nop : Statement .nop := by unfold Statement; decide
theorem encode : Statement .encode := by unfold Statement; decide
theorem decode : Statement .decode := by unfold Statement; decide
theorem clear : Statement .clear := by unfold Statement; decide

end Sys2Proof.Laws.TableRow
end

