-- ==== Sys2Proof/Laws/Reference.lean ====
section
/-! SUPPORT. What the frame builders of the reference can do: a record or a frame exists exactly where the packer's
preconditions hold (R95, R122, R124), and is then what the packer makes. Later proofs cite these. -/

namespace Sys2Proof.Machine

/-- A record exists exactly for a field below 2^22, and has it whole in its header. -/
theorem record_eq_some {tag : BitVec 2} {n : Nat} {body b : Bytes} :
    record tag n body = some b ↔ n < FIELD_LIMIT ∧ b = (packHdr tag (BitVec.ofNat 22 n)).toBytes ++ body := by
  unfold record
  split <;> simp_all [eq_comm]

/-- No record has a field of 2^22 or more (R95, U23). -/
theorem record_over (tag : BitVec 2) {n : Nat} (body : Bytes) (h : FIELD_LIMIT ≤ n) : record tag n body = none :=
  if_neg (Nat.not_lt.mpr h)

/-- A frame exists exactly for an id up to 11. -/
theorem frameOf_eq_some {id : BitVec 4} {blocks fr : Bytes} {ck : BitVec 22} :
    frameOf id blocks ck = some fr ↔ id.toNat ≤ MAX_BSID ∧ fr = packFrameHdr id ++ blocks ++ packTrailer ck := by
  unfold frameOf
  split <;> simp_all [eq_comm]

/-- No frame has an id above 11 (U23). -/
theorem frameOf_over {id : BitVec 4} (blocks : Bytes) (ck : BitVec 22) (h : MAX_BSID < id.toNat) :
    frameOf id blocks ck = none :=
  if_neg (Nat.not_le.mpr h)

end Sys2Proof.Machine
end

