-- ==== Sys2Proof/Tests/Slice0.lean ====
section
/-! SUPPORT. Tests of single definitions against values the spec gives (the vectors of 95_test_vectors.md, the worked
values of R141 to R143, the bit layouts of R92, R94 and R103), and for each statement with hypotheses a witness that
meets them. `ENT_T` and the sink with a capacity are those of 95_test_vectors.md; `maxCompressed` is the example of
R8. Nothing about `Config.params` follows from these parameters. -/

namespace Sys2Proof.Tests

open Sys2Proof Sys2Proof.Machine

/-! ## Test parameters and states -/

def abc : Bytes := [0x61#8, 0x62#8, 0x63#8]
def abab : Bytes := [0x61#8, 0x62#8, 0x61#8, 0x62#8, 0x61#8, 0x62#8, 0x61#8, 0x62#8]
def dead : Bytes := [0xDE#8, 0xAD#8, 0xBE#8]

/-- `ENT_T`, compress side: one repeated byte, the block of eight bytes with a short form, or nothing. -/
def entC (q : Bytes) : CRes :=
  if 2 ≤ q.length ∧ ∀ b ∈ q, b = byteAt q 0 then .code1 else if q = abab then .size dead else .code0

/-- `ENT_T`, decompress side. -/
def entD (cap : Nat) (b : Bytes) : DRes := if b = dead ∧ 8 ≤ cap then .len abab else .err 1

theorem entC_size (q body : Bytes) (h : entC q = .size body) : q = abab ∧ body = dead := by
  unfold entC at h
  split at h
  · cases h
  · split at h
    · exact ⟨by assumption, by cases h; rfl⟩
    · cases h

/-- A sink that takes `cap` bytes in all. -/
def params (cap : Nat) : Params (HashRegs Config.countBits) Config.countBits where
  hash := XXH32
  hashReset := HashRegs.reset
  entCompress := entC
  entSize := fun q body h => by rw [(entC_size q body h).2]; decide
  entDecompress := entD
  snkFail := fun hist bs => min bs.length (cap - hist.accepted.length)
  snkFailLe := fun _ _ => Nat.min_le_left _ _

/-- The same with a sink that never fails. -/
def total : Params (HashRegs Config.countBits) Config.countBits where
  hash := XXH32
  hashReset := HashRegs.reset
  entCompress := entC
  entSize := fun q body h => by rw [(entC_size q body h).2]; decide
  entDecompress := entD

/-- The machine after reset, put into a frame at one arm. -/
def busyAt (f : Fsm) : State := { State.reset with phase := .busy, fsm := f }

/-- A state with an empty hash started. -/
def hashed (f : Fsm) : State := { busyAt f with h := XXH32.init }

/-- The next state, if there is one. -/
def nextOf {HS : Type} {cb : Nat} : Host.Outcome (State.Of HS cb) Fault Refusal → Option (State.Of HS cb)
  | .next t => some t
  | _ => none

theorem of_nextOf {HS : Type} {cb : Nat} {o : Host.Outcome (State.Of HS cb) Fault Refusal} {t : State.Of HS cb}
    (h : nextOf o = some t) : o = .next t := by
  cases o <;> simp_all [nextOf]

/-- Compare one view of the next state. -/
def view {HS α : Type} {cb : Nat} (f : State.Of HS cb → α) (o : Host.Outcome (State.Of HS cb) Fault Refusal) :
    Option α :=
  (nextOf o).map f

/-! ## Encodings (R92, R94, R103) -/

/-- 12 is above `MAX_BSID` (R93); 11 is the last legal value. -/
theorem test_wf_frame : (Instr.frame 12#4).wellFormed = false ∧ (Instr.frame 11#4).wellFormed = true := by decide

/-- R92: 08 23 3E 18, then the descriptor; and each rejection of R101. -/
theorem test_decode_frame :
    decode (.fh [0x08#8, 0x23#8, 0x3E#8, 0x18#8, 0x05#8, 0xAA#8]) = .ok (.frame 5#4, [0xAA#8]) ∧
    decode (.fh [0x08#8, 0x23#8, 0x3E#8, 0x18#8]) = .error .short ∧
    decode (.fh [0x18#8, 0x3E#8, 0x23#8, 0x08#8, 0x05#8]) = .error .badMagic ∧
    decode (.fh [0x08#8, 0x23#8, 0x3E#8, 0x18#8, 0x1C#8]) = .error .badReserved ∧
    decode (.fh [0x08#8, 0x23#8, 0x3E#8, 0x18#8, 0x0C#8]) = .error .badId := by
  decide +kernel

/-- R94: type 0 in bits 23..22, then 000001 00100011 01000101. -/
theorem test_decode_comp : decode (.bh [0x01#8, 0x23#8, 0x45#8]) = .ok (.comp 0x12345#22, []) := by decide +kernel

/-- R94: 01 000000 00000000 00000011, vector "abc". -/
theorem test_decode_raw : decode (.bh ([0x40#8, 0x00#8, 0x03#8] ++ abc)) = .ok (.raw 3#22, abc) := by decide +kernel

/-- R94: 10 000000 00000100 00000000. -/
theorem test_decode_rle : decode (.bh [0x80#8, 0x04#8, 0x00#8]) = .ok (.rle 1024#22, []) := by decide +kernel

/-- R94: 11 010110 01100010 11101000, and the field of ones. -/
theorem test_decode_crc :
    decode (.bh [0xD6#8, 0x62#8, 0xE8#8]) = .ok (.crc 0x1662E8#22, []) ∧
    decode (.bh [0xFF#8, 0xFF#8, 0xFF#8]) = .ok (.crc 0x3FFFFF#22, []) ∧
    decode (.bh [0xFF#8, 0xFF#8]) = .error .short := by
  decide +kernel

/-- R103: bits 1..0 of the value; bits 31..2 ignored. -/
theorem test_decode_commands :
    decode (.cmd 0x00000000#32) = .ok (.nop, []) ∧ decode (.cmd 0x00000001#32) = .ok (.encode, []) ∧
    decode (.cmd 0x80000002#32) = .ok (.decode, []) ∧ decode (.cmd 0x00000007#32) = .ok (.clear, []) := by
  decide

/-- The rows' words as spec/opcode_table.json numbers them. -/
theorem test_table_words :
    decodeTableWord 40 0x08233E180B = some (.frame 11#4) ∧ decodeTableWord 40 0x08233E180C = none ∧
    decodeTableWord 24 0x012345 = some (.comp 0x12345#22) ∧ decodeTableWord 24 0x400003 = some (.raw 3#22) ∧
    decodeTableWord 24 0x800400 = some (.rle 1024#22) ∧ decodeTableWord 24 0xD662E8 = some (.crc 0x1662E8#22) ∧
    decodeTableWord 32 1 = some .encode := by
  decide +kernel

/-- The very next step runs the placed instruction as the first one after reset. -/
theorem test_fetch_word :
    view (fun t => (t.bsidF, t.fsm)) (step (State.reset.withFetchWord 40 0x08233E180B)) = some (11#4, .dAwaitHdr) ∧
    view (fun t => (t.len, t.fsm)) (step (State.reset.withFetchWord 24 0x800400)) = some (1024#22, .dSynth) ∧
    view (fun t => (t.ckStored, t.fsm)) (step (State.reset.withFetchWord 24 0xD662E8)) = some (0x1662E8#22, .dVerify) ∧
    view (fun t => (t.mode, t.fsm)) (step (State.reset.withFetchWord 32 2)) = some (.dec, .dFrameHdr) := by
  decide +kernel

/-- R97 and the vector of "abc": the bit-packer against bytes written out by hand. -/
theorem test_pack :
    packMagic = [0x08#8, 0x23#8, 0x3E#8, 0x18#8] ∧ (packHdr 1#2 3#22).toBytes = [0x40#8, 0x00#8, 0x03#8] ∧
    packTrailer 0x168A9F#22 = [0xD6#8, 0x8A#8, 0x9F#8] := by
  decide +kernel

/-! ## The checksum (95_test_vectors.md) -/

/-- `SEED + P1 + P2` and `SEED - P1` (R142) are the values the definition writes out. -/
theorem test_hash_seed :
    xxhSeed + xxhP1 + xxhP2 = 0x24234428#32 ∧ xxhSeed - xxhP1 = 0x61C8864F#32 := by decide

/-- H1: the empty input, its reduction, and "abc". -/
theorem test_hash_short :
    total.hash.hash [] = 0x02CC5D05#32 ∧ ck22 0x02CC5D05#32 = 0x1662E8#22 ∧
    total.hash.hash abc = 0x32D153FF#32 := by
  decide +kernel

/-- Seventeen bytes in two pieces: a stripe, and one byte of tail. -/
theorem test_hash_pieces :
    let u := total.hash
    u.final (u.update (u.update u.init (abab ++ abc)) (abc ++ abc)) = u.hash (abab ++ abc ++ abc ++ abc) := by
  decide +kernel

/-- Another `HASH` over another state type: all bytes absorbed are kept, and their number is the final value. -/
def toyHash : HashUnit Bytes where
  init := []
  update := fun h bs => h ++ bs
  final := fun h => BitVec.ofNat 32 h.length
  chunking := fun h a b further => by simp only [List.append_assoc]
  emptyUpdate := fun h => by simp only [List.append_nil]

/-- `toyHash` as `HASH`, and 4 as `COUNT_BITS` (R7). -/
def toy : Params Bytes 4 := { total.toOpenParams with hash := toyHash, hashReset := [] }

/-- `HASH` is a parameter of the step (R149): the encoder's trailer takes CK22 of whatever it is given. -/
theorem test_hash_parameter :
    view (fun t => (t.phase, t.ckCalc, t.snkData))
        (stepAt toy { (State.Of.reset (rep 0x61#8 64) : State.Of Bytes 4) with phase := .busy, fsm := .eTrailer })
      = some (.done, 2#22, [0xC0#8, 0x00#8, 0x02#8]) := by
  decide +kernel

/-- `COUNT_BITS` is a parameter of the step (R7): counters of four bits wrap at 16, those of this machine do not. -/
theorem test_count_bits_parameter :
    view (fun t => (t.outCount, t.snkData.length))
        (stepAt toy { (State.Of.reset [] : State.Of Bytes 4) with phase := .busy, fsm := .eTrailer, outCount := 14#4 })
      = some (1#4, 3) ∧
    view (fun t => (t.outCount, t.snkData.length))
        (stepAt total { busyAt .eTrailer with outCount := 14#64 }) = some (17#64, 3) := by
  decide +kernel

/-- R45 (I5): BLKSIZE falls to 1 KiB under an INSIZE of 2 MiB; an INSIZE in range is kept. -/
theorem test_insize_range :
    (∀ f, view (fun t => decide (t.inSize.toNat ≤ t.blkSize.toNat))
        (exec (.frame 0#4) { busyAt f with blkSize := 2097152#22, inSize := 2097152#22 }) = some true) ∧
    view (fun t => (t.inSize, t.blkSize)) (exec (.frame 0#4) { State.reset with inSize := 1024#22 })
      = some (1024#22, 1024#22) :=
  ⟨fun _ => congrArg some (decide_eq_true (inSizeWithin_le _ _)), by decide +kernel⟩

/-! ## One step of each instruction -/

/-- R181: block size 32 KiB and a started hash. -/
theorem test_frame :
    view (fun t => (t.bsidF, t.blkSize, t.h.v4, t.h.total, t.fsm)) (exec (.frame 5#4) State.reset)
      = some (5#4, 32768#22, 0x61C8864F#32, 0#64, .dAwaitHdr) := by
  decide +kernel

/-- R183 with the example bound: `maxCompressed(1024) = 1544`, one more is refused. -/
theorem test_comp_bound :
    view (fun t => (t.errSite, t.fsm)) (execWith total (.comp 1544#22) (busyAt .dDispatch)) = some (.none, .dEntropy) ∧
    view (fun t => (t.errClass, t.errSite, t.len)) (execWith total (.comp 1545#22) (busyAt .dDispatch))
      = some (.formatError, .dLenComp, 1545#22) := by
  decide +kernel

/-- R187: the vector body DE AD BE becomes eight bytes of RAWBUF. -/
theorem test_comp_body :
    view (fun t => (Memory.slice t.rawBuf 0 9, t.rSize, t.paySel, t.srcRest))
        (execWith total (.comp 3#22) { busyAt .dEntropy with len := 3#22, srcRest := dead ++ abc })
      = some (abab ++ [0#8], 8#22, .r, abc) := by
  decide +kernel

/-- R185: the body goes to `CBUF[0..3]`. -/
theorem test_raw_body :
    view (fun t => (t.cBuf, t.rSize, t.paySel, t.inCount))
        (execWith total (.raw 3#22) { busyAt .dReadBody with len := 3#22, srcRest := abc })
      = some ([(0, 0x61#8), (1, 0x62#8), (2, 0x63#8)], 3#22, .c, 3#64) := by
  decide +kernel

/-- R188: a sink with room for two bytes of three: counted, then IOError at the RAW site. -/
theorem test_raw_short_write :
    view (fun t => (t.snkData, t.outCount, t.errClass, t.errSite, t.h.total))
        (execWith (params 2) (.raw 3#22)
          { hashed .dEmit with rSize := 3#22, paySel := .c, cBuf := [(0, 0x61#8), (1, 0x62#8), (2, 0x63#8)] })
      = some ([0x61#8, 0x62#8], 2#64, .ioError, .dWrRaw, 0#64) := by
  decide +kernel

/-- R183: the bound for RLE is the block size itself, inclusive. -/
theorem test_rle_bound :
    view (fun t => (t.errSite, t.fsm)) (exec (.rle 1024#22) (busyAt .dDispatch)) = some (.none, .dSynth) ∧
    view (fun t => (t.errSite, t.fsm)) (exec (.rle 1025#22) (busyAt .dDispatch)) = some (.dLenRle, .none) := by
  decide +kernel

/-- R186: five copies of the one body byte. -/
theorem test_rle_synth :
    view (fun t => (Memory.slice t.rawBuf 0 6, t.rleByte, t.rSize, t.srcRest))
        (exec (.rle 5#22) { busyAt .dSynth with len := 5#22, srcRest := [0x7A#8, 0x01#8] })
      = some (rep 0x7A#8 5 ++ [0#8], 0x7A#8, 5#22, [0x01#8]) := by
  decide +kernel

/-- R189: the trailer of the empty frame against its hash, and against another value. -/
theorem test_crc_verify :
    view (fun t => (t.phase, t.ckCalc)) (exec (.crc 0#22) { hashed .dVerify with ckStored := 0x1662E8#22 })
      = some (.done, 0x1662E8#22) ∧
    view (fun t => (t.phase, t.ckCalc, t.errClass)) (exec (.crc 0#22) { hashed .dVerify with ckStored := 0#22 })
      = some (.error, 0x1662E8#22, .checksumError) := by
  decide +kernel

/-- R213. -/
theorem test_nop : exec .nop (busyAt .eRead) = .next (busyAt .eRead) := rfl

/-- R214, R217: accepted from IDLE, dropped from DONE. -/
theorem test_encode :
    view (fun t => (t.phase, t.mode, t.fsm, t.inCount)) (exec .encode { State.reset with inCount := 9#64 })
      = some (.busy, .enc, .eHeader, 0#64) ∧
    view (fun t => (t.phase, t.inCount)) (exec .encode { State.reset with phase := .done, inCount := 9#64 })
      = some (.done, 9#64) := by
  decide

/-- R215. -/
theorem test_decode :
    view (fun t => (t.phase, t.mode, t.fsm)) (exec .decode State.reset) = some (.busy, .dec, .dFrameHdr) := by decide

/-- R216: the counters stay readable after CLEAR. -/
theorem test_clear :
    view (fun t => (t.phase, t.errClass, t.errSite, t.outCount))
        (exec .clear (raise .ioError .eWrRaw { State.reset with outCount := 7#64 }))
      = some (.idle, .none, .none, 7#64) := by
  decide

/-! ## Frames of 95_test_vectors.md, as functions -/

/-- The frame of "abc" at `blockSizeId` 5. -/
def abcFrame : Bytes :=
  [0x08#8, 0x23#8, 0x3E#8, 0x18#8, 0x05#8] ++ ([0x40#8, 0x00#8, 0x03#8] ++ abc) ++ [0xD6#8, 0x8A#8, 0x9F#8]

theorem test_encode_frame : encodeFrame total 5#4 abc = some abcFrame := by decide +kernel

/-- The listing of E3 in 95_test_vectors.md (R104), and no frame for an id of 12. -/
theorem test_listing :
    listingBytes 5#4 [.raw abc] 0x168A9F#22 = some abcFrame ∧ listingBytes 12#4 [.raw abc] 0x168A9F#22 = none := by
  decide +kernel

/-- The bytes after the trailer are not consumed (R192), and a changed trailer is a ChecksumError. -/
theorem test_decode_frame_bytes :
    decodeFrame total (abcFrame ++ dead) = .ok abc 14 ∧
    decodeFrame total (abcFrame.take 13 ++ [0x9E#8]) = .fail .checksumError abc ∧
    decodeFrame total (abcFrame.take 11) = .fail .ioError abc := by
  decide +kernel

/-- R123, R24: error words as the host reads them. -/
theorem test_error_word :
    csrValue 3#32 (raise .formatError .dReserved State.reset) = 0x1202#32 ∧
    csrValue 2#32 (raise .formatError .dReserved { State.reset with mode := .dec }) = 7#32 := by
  decide

/-! ## Witnesses: the hypotheses of each statement are met

Each theorem names the statement and shows values that meet its hypotheses, a boundary value for each clause. -/

theorem witness_DecodeInvertsEncode :
    (Instr.frame 11#4).wellFormed = true ∧
    encode (.frame 11#4) = .fh [0x08#8, 0x23#8, 0x3E#8, 0x18#8, 0x0B#8] ∧
    (Instr.crc 0x3FFFFF#22).wellFormed = true ∧ encode (.crc 0x3FFFFF#22) = .bh [0xFF#8, 0xFF#8, 0xFF#8] := by
  decide +kernel

theorem witness_EncodeInvertsDecode :
    decode (.fh [0x08#8, 0x23#8, 0x3E#8, 0x18#8, 0x00#8, 0xAA#8]) = .ok (.frame 0#4, [0xAA#8]) ∧
    decode (.bh [0x3F#8, 0xFF#8, 0xFF#8, 0xAA#8]) = .ok (.comp 0x3FFFFF#22, [0xAA#8]) := by
  decide +kernel

/-- The largest field a header holds, and the first one that has no record (R95). -/
theorem witness_HeaderBytesArithmetic_record :
    record 1#2 4194303 abc = some ([0x7F#8, 0xFF#8, 0xFF#8] ++ abc) ∧ record 1#2 4194304 abc = none := by
  decide +kernel

/-- A primitive that answers Code0 to everything. -/
def rawOnly : Params (HashRegs Config.countBits) Config.countBits :=
  { total with entCompress := fun _ => .code0, entSize := fun _ _ h => nomatch h }

theorem witness_HeaderBytesArithmetic_block :
    4194304 ≤ (List.replicate 4194304 0#8).length ∧
    (∀ q, rawOnly.entCompress q = .code0 ∨ rawOnly.entCompress q = .code1) :=
  ⟨Nat.le_of_eq List.length_replicate.symm, fun _ => .inl rfl⟩

theorem witness_PackerLaws : (0#4).toNat ≤ 11 ∧ (11#4).toNat ≤ 11 := by decide

theorem witness_ChunkingLaw :
    (let h : HashRegs Config.countBits := HashRegs.reset
     h.memSize.toNat = h.total.toNat % 16) ∧
    (let h : HashRegs Config.countBits := { State.reset.h with total := 31#64, memSize := 15#4 }
     h.memSize.toNat = h.total.toNat % 16) := by
  decide

/-- Fifteen bytes in all: the last length that is only staged. -/
theorem witness_ShortUpdateOnlyStages :
    ({ State.reset.h with memSize := 5#4 }).memSize.toNat + (rep 0x61#8 10).length < 16 := by decide

theorem witness_StripeFoldsFourLanes :
    State.reset.h.memSize = 0#4 ∧ (abab ++ abab).length = 16 := by decide

/-- In an error, in the middle of a frame's streams. -/
theorem witness_ResetEventRestores :
    ({ raise .ioError .dRdRaw { State.reset with srcRest := abc } with hostIn := [.reset, .run] }).hostIn
      = .reset :: [.run] := rfl

theorem witness_RegisterReadMap_each :
    ∀ n, n ≤ 11 → ({ State.reset with hostIn := [.csrRead (BitVec.ofNat 32 n)] }).hostIn
        = [.csrRead (BitVec.ofNat 32 n)] ∧ (BitVec.ofNat 32 n).toNat = n := by
  intro n h
  exact ⟨rfl, by simp; omega⟩

theorem witness_ConfigWrite_taken :
    ({ State.reset with hostIn := [.csrWrite 0#32 0xFFFFFF0B#32] }).hostIn = [.csrWrite 0#32 0xFFFFFF0B#32] ∧
    State.reset.phase ≠ .busy ∧ (0xFFFFFF0B#32).toNat % 16 ≤ 11 := by decide

theorem witness_ConfigWrite_dropped :
    ({ State.reset with hostIn := [.csrWrite 0#32 0x0C#32] }).hostIn = [.csrWrite 0#32 0x0C#32] ∧
    11 < (0x0C#32).toNat % 16 ∧ (busyAt .eRead).phase = .busy := by decide

theorem witness_OtherWritesIgnored :
    ({ busyAt .eRead with hostIn := [.csrWrite 2#32 3#32] }).hostIn = [.csrWrite 2#32 3#32] ∧
    2 ≤ (2#32).toNat ∧ 2 ≤ (0xFFFFFFFF#32).toNat := by decide

theorem witness_LevelOutputs :
    doneOut { State.reset with phase := .done } = true ∧ errorOut (raise .ioError .eWrRaw State.reset) = true := by
  decide

/-- Each phase a command can meet. -/
theorem witness_Commands :
    State.reset.phase = .idle ∧ (busyAt .eRead).phase = .busy ∧ ({ State.reset with phase := .done }).phase = .done ∧
    (raise .ioError .eWrRaw State.reset).phase = .error := by decide

theorem witness_FrameRecord : (11#4).toNat ≤ 11 ∧ (0#4).toNat ≤ 11 := by decide

/-- D_FRAMEHDR, one source for each of its five outcomes. -/
theorem witness_FrameHeaderArm :
    (busyAt .dFrameHdr).phase = .busy ∧ (busyAt .dFrameHdr).fsm = .dFrameHdr ∧
    (abcFrame.take 4).length < 5 ∧
    (5 ≤ abab.length ∧ abab.take 4 ≠ [0x08#8, 0x23#8, 0x3E#8, 0x18#8]) ∧
    (let f := abcFrame.take 4 ++ [0x1C#8]
     5 ≤ f.length ∧ f.take 4 = [0x08#8, 0x23#8, 0x3E#8, 0x18#8] ∧ (byteAt f 4).toNat / 16 ≠ 0) ∧
    (let f := abcFrame.take 4 ++ [0x0C#8]
     5 ≤ f.length ∧ f.take 4 = [0x08#8, 0x23#8, 0x3E#8, 0x18#8] ∧ (byteAt f 4).toNat / 16 = 0 ∧
       11 < (byteAt f 4).toNat % 16) ∧
    (let f := abcFrame.take 4 ++ [0x0B#8]
     5 ≤ f.length ∧ f.take 4 = [0x08#8, 0x23#8, 0x3E#8, 0x18#8] ∧ (byteAt f 4).toNat ≤ 11) := by
  decide

theorem witness_AwaitHeaderArm :
    (busyAt .dAwaitHdr).phase = .busy ∧ (busyAt .dAwaitHdr).fsm = .dAwaitHdr ∧
    ({ busyAt .dAwaitHdr with srcRest := abc }).srcRest = [0x61#8, 0x62#8, 0x63#8] ∧
    ({ busyAt .dAwaitHdr with srcRest := abc.take 2 }).srcRest.length < 3 := by decide

/-- D_DISPATCH with each type tag. -/
theorem witness_DispatchByType :
    (busyAt .dDispatch).phase = .busy ∧ (busyAt .dDispatch).fsm = .dDispatch ∧
    (unpackHdr ⟨0xFF#8, 0xFF#8, 0xFF#8⟩).1 = 3#2 ∧ (unpackHdr ⟨0x40#8, 0x06#8, 0x08#8⟩).1 = 1#2 ∧
    (unpackHdr ⟨0x80#8, 0x04#8, 0x01#8⟩).1 = 2#2 ∧ (unpackHdr ⟨0x00#8, 0x06#8, 0x09#8⟩).1 = 0#2 := by
  decide

theorem witness_RecordDispatch : (busyAt .dDispatch).fsm = .dDispatch := rfl

/-- A body of three bytes with two there, and with three there. -/
theorem witness_RawReadsBody :
    (let s := { busyAt .dReadBody with len := 3#22, srcRest := abc.take 2 }
     s.fsm = .dReadBody ∧ s.srcRest.length < s.len.toNat) ∧
    (let s := { busyAt .dReadBody with len := 3#22, srcRest := abc }
     s.fsm = .dReadBody ∧ s.len.toNat ≤ s.srcRest.length ∧ s.len.toNat ≤ cBufSize Config.params) :=
  ⟨by decide, by decide, by decide, blkSize_le_cBufSize _ (by decide)⟩

/-- The longest run, 2 MiB. -/
theorem witness_RleSynthesizes :
    (busyAt .dSynth).fsm = .dSynth ∧ (busyAt .dSynth).srcRest = [] ∧
    (let s := { busyAt .dSynth with len := 2097152#22, srcRest := abc }
     s.srcRest = 0x61#8 :: [0x62#8, 0x63#8] ∧ s.len.toNat ≤ 2097152) := by decide

theorem witness_CompDecompresses :
    (let s := { busyAt .dEntropy with len := 3#22, srcRest := abc.take 2 }
     s.fsm = .dEntropy ∧ s.srcRest.length < s.len.toNat) ∧
    (let s := { busyAt .dEntropy with len := 3#22, srcRest := dead, blkSize := 2097152#22 }
     s.fsm = .dEntropy ∧ s.len.toNat ≤ s.srcRest.length ∧ s.len.toNat ≤ cBufSize Config.params ∧
       s.blkSize.toNat ≤ 2097152) :=
  ⟨by decide, by decide, by decide, blkSize_le_cBufSize _ (by decide), by decide⟩

/-- A payload in CBUF and one in RAWBUF. -/
theorem witness_PayloadEmitted :
    (let s := { busyAt .dEmit with paySel := .c, rSize := 3#22, cBuf := [(0, 0x61#8), (1, 0x62#8), (2, 0x63#8)] }
     s.fsm = .dEmit ∧ (s.paySel = .c → abc = Memory.slice s.cBuf 0 s.rSize.toNat ∧
       s.rSize.toNat ≤ cBufSize Config.params) ∧
     (s.paySel = .r → abc = Memory.slice s.rawBuf 0 s.rSize.toNat ∧ s.rSize.toNat ≤ 2097152)) ∧
    (let s := { busyAt .dEmit with paySel := .r, rSize := 3#22, rawBuf := [(0, 0x61#8), (1, 0x62#8), (2, 0x63#8)] }
     s.fsm = .dEmit ∧ (s.paySel = .c → abc = Memory.slice s.cBuf 0 s.rSize.toNat ∧
       s.rSize.toNat ≤ cBufSize Config.params) ∧
     (s.paySel = .r → abc = Memory.slice s.rawBuf 0 s.rSize.toNat ∧ s.rSize.toNat ≤ 2097152)) :=
  ⟨⟨rfl, fun _ => ⟨rfl, blkSize_le_cBufSize _ (by decide)⟩, fun h => absurd h (by decide)⟩,
    ⟨rfl, fun h => absurd h (by decide), fun _ => ⟨rfl, by decide⟩⟩⟩

theorem witness_CrcVerifies :
    (hashed .dVerify).fsm = .dVerify ∧
    ck22 (XXH32.final (hashed .dVerify).h) ≠ (hashed .dVerify).ckStored ∧
    ck22 (XXH32.final ({ hashed .dVerify with ckStored := 0x1662E8#22 }).h) = 0x1662E8#22 := by
  decide +kernel

theorem witness_EncoderHeaderArm :
    (busyAt .eHeader).phase = .busy ∧ (busyAt .eHeader).fsm = .eHeader ∧
    ({ busyAt .eHeader with cfgBsid := 11#4 }).cfgBsid.toNat ≤ 11 := by decide

theorem witness_ReadBlockArm :
    (busyAt .eRead).phase = .busy ∧ (busyAt .eRead).fsm = .eRead ∧
    ({ busyAt .eRead with blkSize := 2097152#22 }).blkSize.toNat ≤ 2097152 := by decide

theorem witness_CompressArm :
    (busyAt .eCompress).phase = .busy ∧ (busyAt .eCompress).fsm = .eCompress ∧
    (let s := { busyAt .eCompress with inSize := 1#22 }
     1 ≤ s.inSize.toNat ∧ s.inSize.toNat ≤ 2097152) ∧
    (let s := { busyAt .eCompress with inSize := 2097152#22 }
     1 ≤ s.inSize.toNat ∧ s.inSize.toNat ≤ 2097152) := by decide

/-- Each of the three types with a body. -/
theorem witness_EmitRecordArm :
    (busyAt .eEmit).phase = .busy ∧ (busyAt .eEmit).fsm = .eEmit ∧
    (let s := { busyAt .eEmit with typeTag := 1#2, inSize := 3#22, rawBuf := [(0, 0x61#8), (1, 0x62#8), (2, 0x63#8)] }
     s.typeTag = 1#2 ∧ s.inSize.toNat ≤ 2097152 ∧ abc = Memory.slice s.rawBuf 0 s.inSize.toNat) ∧
    (let s := { busyAt .eEmit with typeTag := 2#2, rleByte := 0x61#8 }
     s.typeTag = 2#2 ∧ [0x61#8] = [s.rleByte]) ∧
    (let s := { busyAt .eEmit with typeTag := 0#2, cSize := 3#22, cBuf := [(3, 0xDE#8), (4, 0xAD#8), (5, 0xBE#8)] }
     s.typeTag = 0#2 ∧ 3 + s.cSize.toNat ≤ cBufSize total ∧ dead = Memory.slice s.cBuf 3 s.cSize.toNat) := by
  decide +kernel

theorem witness_TrailerArm : (hashed .eTrailer).phase = .busy ∧ (hashed .eTrailer).fsm = .eTrailer := by decide

theorem witness_StepRunsDecodedInstruction :
    (({ State.reset with hostIn := [.csrWrite 1#32 1#32] }).hostIn = [.csrWrite 1#32 1#32] ∧
      decode (.cmd 1#32) = .ok (.encode, [])) ∧
    (let s := { busyAt .dDispatch with hostIn := [.run], hdr := ⟨0x40#8, 0x00#8, 0x03#8⟩ }
     s.hostIn.head? = some .run ∧ s.phase = .busy ∧ s.fsm = .dDispatch ∧
       decode (.bh s.hdr.toBytes) = .ok (.raw 3#22, [])) ∧
    (let s := { busyAt .dFrameHdr with srcRest := abcFrame }
     s.hostIn = [] ∧ s.phase = .busy ∧ s.fsm = .dFrameHdr ∧
       decode (.fh s.srcRest) = .ok (.frame 5#4, abcFrame.drop 5)) := by
  decide +kernel

/-- Each arm after D_DISPATCH, with a HOST that has nothing to do and one that says `run`, and each type at D_EMIT. -/
theorem witness_StepContinuesRecord :
    (∀ f ∈ [Fsm.dReadBody, .dSynth, .dEntropy, .dEmit, .dVerify],
      (busyAt f).hostIn = [] ∧ ({ busyAt f with hostIn := [.run, .reset] }).hostIn.head? = some .run ∧
        (busyAt f).phase = .busy ∧ (busyAt f).fsm = f) ∧
    (∀ ty : BitVec 2, ({ busyAt .dEmit with typeTag := ty }).typeTag = ty) :=
  ⟨by decide, fun _ => rfl⟩

/-- The invariant at the first arm of an encoding, whatever the HOST does next. -/
theorem start_inv (p : Params (HashRegs Config.countBits) Config.countBits) (q : List HostOp) :
    Inv p { busyAt .eHeader with hostIn := q } := by
  refine ⟨⟨?_, ?_, ?_, rfl, fun _ h => absurd rfl h, ?_, rfl, ?_, ?_⟩, ⟨?_, ?_, ?_, ?_, ?_, ?_⟩,
    ⟨rfl, rfl, rfl, rfl⟩⟩ <;> simp [busyAt, State.reset, State.Of.reset, Fsm.isDec, DEFAULT_BSID, MAX_BSID]

theorem witness_StepKeepsInv :
    Inv Config.params { busyAt .eHeader with hostIn := [.csrRead 2#32] } ∧
    step { busyAt .eHeader with hostIn := [.csrRead 2#32] } = .next { busyAt .eHeader with hostData := 1#32 } :=
  ⟨start_inv _ _, of_nextOf (by decide +kernel)⟩

theorem witness_InvStatesNeverStop :
    Inv Config.params (busyAt .eHeader) ∧ hostReady (busyAt .eHeader) = true ∧
    hostReady { State.reset with hostIn := [.connect abc []] } = true :=
  ⟨start_inv _ [], by decide, by decide⟩

/-- A step of the CODEC that consumes three bytes. -/
theorem witness_CountersFollowStreams :
    codecStep total (execWith total) { busyAt .dAwaitHdr with srcRest := abc } = .next
      { busyAt .dDispatch with inCount := 3#64, hdr := ⟨0x61#8, 0x62#8, 0x63#8⟩ } :=
  of_nextOf (by decide +kernel)

theorem witness_QuiescentOutsideFrames :
    (State.reset.phase ≠ .busy ∧ (∀ src snk q, State.reset.hostIn ≠ .connect src snk :: q) ∧
      step State.reset = .next State.reset) ∧
    (let s := { State.reset with phase := .done, hostIn := [.csrWrite 1#32 3#32] }
     s.phase ≠ .busy ∧ (∀ src snk q, s.hostIn ≠ .connect src snk :: q) ∧ step s = .next State.reset) :=
  ⟨⟨by decide, by intros; simp [State.reset, State.Of.reset], rfl⟩,
    ⟨by decide, by intros; simp, of_nextOf (by decide +kernel)⟩⟩

/-- D_VERIFY with equal checksums, and a state already in DONE. -/
theorem witness_DoneOnlyThroughTrailer :
    (let s := { hashed .dVerify with ckStored := 0x1662E8#22 }
     let t := { s with phase := .done, fsm := .none, ckCalc := 0x1662E8#22 }
     step s = .next t ∧ t.phase = .done) ∧
    (let s := { State.reset with phase := .done }
     step s = .next s ∧ s.phase = .done) :=
  ⟨⟨of_nextOf (by decide +kernel), rfl⟩, rfl, rfl⟩

/-- An error, and a command that is not CLEAR. -/
theorem witness_ErrorIsSticky :
    (let s := { raise .ioError .dRdRaw State.reset with hostIn := [.csrWrite 1#32 2#32] }
     s.phase = .error ∧ step s = .next (raise .ioError .dRdRaw State.reset) ∧
     (∀ v q, s.hostIn = .csrWrite 1#32 v :: q → v.toNat % 4 ≠ 3) ∧ (∀ q, s.hostIn ≠ .reset :: q)) :=
  ⟨rfl, of_nextOf (by decide +kernel), by
    intro v q h
    cases h
    decide, by intros; simp⟩

/-- Every arm of the decoder, and an arm that answers a next state. -/
theorem witness_DecoderIgnoresConfig :
    (∀ f ∈ [Fsm.dFrameHdr, .dAwaitHdr, .dDispatch, .dReadBody, .dSynth, .dEntropy, .dEmit, .dVerify],
      (busyAt f).fsm.isDec = true) ∧
    codecStep total (execWith total) (busyAt .eRead) = .next (busyAt .eTrailer) :=
  ⟨by decide, of_nextOf (by decide +kernel)⟩

/-- A body one byte longer than CBUF under the example bound of R8, which is 2114051 bytes. -/
theorem witness_StopsByName_body :
    cBufSize total = 2114051 ∧
    (∀ f, let s := { busyAt f with len := 2114052#22, srcRest := List.replicate (2114052#22).toNat 0#8 }
      s.fsm = f ∧ s.len.toNat ≤ s.srcRest.length ∧ cBufSize total < s.len.toNat) :=
  ⟨by decide, fun _ => ⟨rfl, Nat.le_of_eq List.length_replicate.symm,
    (by decide : cBufSize total < (2114052#22).toNat)⟩⟩

theorem witness_StopsByName_rle :
    (let s := { busyAt .dSynth with len := 2097153#22, srcRest := abc }
     s.fsm = .dSynth ∧ s.srcRest ≠ [] ∧ 2097152 < s.len.toNat) := by decide

/-- A decompressor that answers one byte more than 2 MiB, whatever it is given. -/
def tooLong : Params (HashRegs Config.countBits) Config.countBits :=
  { total with entDecompress := fun _ _ => .len (List.replicate (2097153#22).toNat 0#8) }

theorem witness_StopsByName_decoded :
    (let s := { busyAt .dEntropy with len := 3#22, srcRest := dead, blkSize := 2097153#22 }
     let q := List.replicate (2097153#22).toNat 0#8
     s.fsm = .dEntropy ∧ s.len.toNat ≤ s.srcRest.length ∧ s.len.toNat ≤ cBufSize tooLong ∧
       tooLong.entDecompress s.blkSize.toNat (s.srcRest.take s.len.toNat) = .len q ∧
       q.length ≤ s.blkSize.toNat ∧ 2097152 < q.length) :=
  ⟨rfl, by decide, by decide, rfl, Nat.le_of_eq List.length_replicate,
    Nat.lt_of_lt_of_eq (by decide) List.length_replicate.symm⟩

theorem witness_StopsByName_payload :
    (let s := { busyAt .dEmit with paySel := .c, rSize := 2114052#22 }
     s.fsm = .dEmit ∧ s.paySel = .c ∧ cBufSize total < s.rSize.toNat) ∧
    (let s := { busyAt .dEmit with paySel := .r, rSize := 2097153#22 }
     s.fsm = .dEmit ∧ s.paySel = .r ∧ 2097152 < s.rSize.toNat) := by decide

/-- One byte past RAWBUF at E_READ and E_COMPRESS; past RAWBUF, past CBUF, and type 3 at E_EMIT. -/
theorem witness_StopsByName_encoder :
    (let s := { busyAt .eRead with blkSize := 2097153#22, srcRest := List.replicate (2097153#22).toNat 0#8 }
     s.phase = .busy ∧ s.fsm = .eRead ∧ 2097152 < min s.blkSize.toNat s.srcRest.length) ∧
    (let s := { busyAt .eCompress with inSize := 2097153#22 }
     s.phase = .busy ∧ s.fsm = .eCompress ∧ 2097152 < s.inSize.toNat) ∧
    (let s := { busyAt .eEmit with typeTag := 1#2, inSize := 2097153#22 }
     s.phase = .busy ∧ s.fsm = .eEmit ∧ s.typeTag = 1#2 ∧ 2097152 < s.inSize.toNat) ∧
    (let s := { busyAt .eEmit with typeTag := 0#2, cSize := 2114049#22 }
     s.typeTag = 0#2 ∧ cBufSize total < 3 + s.cSize.toNat) ∧
    ({ busyAt .eEmit with typeTag := 3#2 }).typeTag = 3#2 :=
  ⟨⟨rfl, rfl, by
      show 2097152 < min (2097153#22).toNat (List.replicate (2097153#22).toNat 0#8).length
      rw [List.length_replicate]; decide⟩,
    by decide, by decide, by decide, rfl⟩

theorem witness_StopsByName_others :
    (busyAt .dEmit).fsm = .dEmit ∧
    (let s := { busyAt .eHeader with cfgBsid := 12#4 }
     s.phase = .busy ∧ s.fsm = .eHeader ∧ 11 < s.cfgBsid.toNat) ∧
    (let s := busyAt .eCompress
     s.phase = .busy ∧ s.fsm = .eCompress ∧ s.inSize = 0#22) ∧
    (let s := { busyAt .eRead with hostIn := [.connect abc []] }
     s.phase = .busy ∧ s.hostIn = [.connect abc []]) := by decide

/-! ### The named premises hold of the test parameters -/

theorem total_sink : SnkTotal total := fun _ _ => rfl

theorem total_rle_sound : EntRleSound total := by
  intro q h
  unfold total entC at h
  simp only at h
  split at h
  · exact (by assumption : _ ∧ _).2
  · split at h <;> cases h

theorem total_rle_complete : EntRleComplete total := by
  intro q h h2
  unfold total entC
  exact if_pos ⟨h2, h⟩

theorem total_roundtrip : EntRoundtrip total := by
  intro q body cap h hq
  obtain ⟨rfl, rfl⟩ := entC_size q body h
  exact if_pos ⟨rfl, hq⟩

theorem witness_EncodeRunMatchesReference :
    (let s := { State.reset with hostIn := [.csrWrite 1#32 1#32], srcRest := abc }
     SnkTotal total ∧ s.phase = .idle ∧ s.cfgBsid.toNat ≤ 11 ∧ s.hostIn = [.csrWrite 1#32 1#32] ∧
       encodeFrame total s.cfgBsid s.srcRest = some abcFrame) :=
  ⟨total_sink, rfl, by decide, rfl, test_encode_frame⟩

theorem witness_DecodeRunMatchesReference :
    (let s := { State.reset with hostIn := [.csrWrite 1#32 2#32], srcRest := abcFrame ++ dead }
     SnkTotal total ∧ s.phase = .idle ∧ s.hostIn = [.csrWrite 1#32 2#32] ∧ decodeFrame total s.srcRest = .ok abc 14) :=
  ⟨total_sink, rfl, rfl, test_decode_frame_bytes.1⟩

/-- For RoundTrip and EncodedFrameIsValid. -/
theorem witness_RoundTrip :
    EntRoundtrip total ∧ EntRleSound total ∧ (5#4).toNat ≤ 11 ∧ encodeFrame total 5#4 abc = some abcFrame :=
  ⟨total_roundtrip, total_rle_sound, by decide, test_encode_frame⟩

theorem witness_ValidFrameDecodes : ValidFrame total 5#4 abcFrame abc := by
  refine ⟨by decide, [0x40#8, 0x00#8, 0x03#8] ++ abc, ?_, by decide +kernel⟩
  exact ValidBlocks.cons ([0x40#8, 0x00#8, 0x03#8] ++ abc) abc [] []
    ⟨1#2, 3#22, abc, by decide, by decide, by decide, by decide, by decide⟩ ValidBlocks.nil

/-- Two bytes, and a full block. -/
theorem witness_SingleSymbolFrame :
    EntRleComplete total ∧ (0#4).toNat ≤ 11 ∧ 2 ≤ 1024 ∧ 1024 ≤ 1024 <<< (0#4).toNat ∧ 2 ≤ 1024 <<< (0#4).toNat :=
  ⟨total_rle_complete, by decide, by decide, by decide, by decide⟩

end Sys2Proof.Tests
end

section
/-! PROOFS. The machine as the instance of the parametrised machine at `Config.params`. -/

namespace Sys2Proof.Machine

/-- The meanings at the machine's own parameters: a statement for every record of parameters carries over to `exec`
by this equation. -/
theorem exec_eq_execWith_params : exec = execWith Config.params := by
  funext i s
  cases i <;> rfl

/-- `step` runs instructions by `exec`, so it is `stepAt` once `exec` is `execWith` at the same parameters. -/
theorem step_eq_stepAt_params : step = stepAt Config.params := by
  funext s
  rw [step, stepAt, exec_eq_execWith_params]

/-- Settles O42: each meaning of the dispatch is its record or command at `Config.params`. -/
theorem stepRunsAtConfigParams : Obligations.StepRunsAtConfigParams :=
  ⟨fun i s => congrFun₂ exec_eq_execWith_params i s, fun s => congrFun step_eq_stepAt_params s⟩

end Sys2Proof.Machine
end

section
/-! PROOFS. Which arm of a record runs: `execWith` of each record at each later arm of it, at D_DISPATCH and at
D_EMIT. -/

namespace Sys2Proof.Machine

variable {HS : Type} {cb : Nat} (p : Params HS cb) {s : State.Of HS cb}

theorem execWith_raw_dReadBody (n : BitVec 22) (h : s.fsm = .dReadBody) : execWith p (.raw n) s = readBody p s := by
  simp only [execWith, rawRecord, h]

theorem execWith_rle_dSynth (n : BitVec 22) (h : s.fsm = .dSynth) : execWith p (.rle n) s = synth s := by
  simp only [execWith, rleRecord, h]

theorem execWith_comp_dEntropy (n : BitVec 22) (h : s.fsm = .dEntropy) : execWith p (.comp n) s = entropy p s := by
  simp only [execWith, compRecord, h]

theorem execWith_crc_dVerify (ck : BitVec 22) (h : s.fsm = .dVerify) :
    execWith p (.crc ck) s = .next (verify p s) := by
  simp only [execWith, crcRecord, h]

theorem execWith_raw_dEmit (n : BitVec 22) (h : s.fsm = .dEmit) :
    execWith p (.raw n) s = emitPayload p .dWrRaw s := by
  simp only [execWith, rawRecord, h]

theorem execWith_rle_dEmit (n : BitVec 22) (h : s.fsm = .dEmit) :
    execWith p (.rle n) s = emitPayload p .dWrRle s := by
  simp only [execWith, rleRecord, h]

theorem execWith_comp_dEmit (n : BitVec 22) (h : s.fsm = .dEmit) :
    execWith p (.comp n) s = emitPayload p .dWrComp s := by
  simp only [execWith, compRecord, h]

theorem execWith_crc_dEmit (ck : BitVec 22) (h : s.fsm = .dEmit) : execWith p (.crc ck) s = .fault .emitCrc := by
  simp only [execWith, crcRecord, h]

/-- D_EMIT for the record TYPE names: a CRC stops, every other record writes its payload and has a site of class
IoError for a short write (R188, R252). -/
theorem execWith_recordOf_dEmit (h : s.fsm = .dEmit) :
    (s.typeTag = 3#2 ∧ execWith p (recordOf s.typeTag s.len) s = .fault .emitCrc) ∨
    (∃ site, siteClass site = .ioError ∧ execWith p (recordOf s.typeTag s.len) s = emitPayload p site s) := by
  rcases recordOf_cases s.typeTag s.len with ⟨_, e⟩ | ⟨_, e⟩ | ⟨_, e⟩ | ⟨h3, e⟩ <;> rw [e]
  · exact .inr ⟨.dWrComp, rfl, execWith_comp_dEmit p _ h⟩
  · exact .inr ⟨.dWrRaw, rfl, execWith_raw_dEmit p _ h⟩
  · exact .inr ⟨.dWrRle, rfl, execWith_rle_dEmit p _ h⟩
  · exact .inl ⟨h3, execWith_crc_dEmit p _ h⟩

/-- D_DISPATCH of the header in HDR, by its type (R183, R184). -/
theorem execWith_decodeHdr_dDispatch (h : s.fsm = .dDispatch) : ∃ field : BitVec 22,
    execWith p (decodeHdr s.hdr) s = .next (dispatchData 0#2 field (bodyBound p s) .dLenComp .dEntropy s) ∨
    execWith p (decodeHdr s.hdr) s = .next (dispatchData 1#2 field (bodyBound p s) .dLenRaw .dReadBody s) ∨
    execWith p (decodeHdr s.hdr) s = .next (dispatchData 2#2 field s.blkSize.toNat .dLenRle .dSynth s) ∨
    execWith p (decodeHdr s.hdr) s = .next { setTypeLen 3#2 field s with ckStored := field, fsm := .dVerify } := by
  refine ⟨(unpackHdr s.hdr).2, ?_⟩
  unfold decodeHdr
  rcases recordOf_cases (unpackHdr s.hdr).1 (unpackHdr s.hdr).2 with ⟨_, e⟩ | ⟨_, e⟩ | ⟨_, e⟩ | ⟨_, e⟩ <;> rw [e]
  · exact .inl (by simp only [execWith, compRecord, h])
  · exact .inr (.inl (by simp only [execWith, rawRecord, h]))
  · exact .inr (.inr (.inl (by simp only [execWith, rleRecord, h])))
  · exact .inr (.inr (.inr (by simp only [execWith, crcRecord, h])))

/-! ## Where E_EMIT stops -/

/-- The three header bytes fit CBUF (R44). -/
theorem header_le_cBufSize (h : HdrBytes) : 0 + h.toBytes.length ≤ cBufSize p := by
  rw [toBytes_length]; unfold cBufSize; omega

theorem armEEmit_noBody
    (h : emitBody p { s with cBuf := Memory.write s.cBuf 0 (packHdr s.typeTag s.len).toBytes } = none) :
    armEEmit p s = .fault .emitCrc := by
  unfold armEEmit
  rw [writeC_fits (header_le_cBufSize p _), orOverrun_some, h]

theorem armEEmit_overrun
    (h : emitBody p { s with cBuf := Memory.write s.cBuf 0 (packHdr s.typeTag s.len).toBytes } = some none) :
    armEEmit p s = .fault .bufferOverrun := by
  unfold armEEmit
  rw [writeC_fits (header_le_cBufSize p _), orOverrun_some, h]
  rfl

/-! ## The HOST's writes -/

/-- `CMD` names one of the four commands (R103). -/
theorem decodeCmd_cases (v : Word32) :
    decodeCmd v = .nop ∨ decodeCmd v = .encode ∨ decodeCmd v = .decode ∨ decodeCmd v = .clear := by
  unfold decodeCmd
  split
  · exact .inl rfl
  split
  · exact .inr (.inl rfl)
  split
  · exact .inr (.inr (.inl rfl))
  · exact .inr (.inr (.inr rfl))

/-- What a write of a register can do: nothing, a new CFG, the start of a frame, or CLEAR (R211 to R217). -/
theorem csrWrite_cases (n v : Word32) (s : State.Of HS cb) : ∃ t, csrWrite (execWith p) n v s = .next t ∧
    (t = s ∨ (∃ c : BitVec 4, s.phase ≠ .busy ∧ c.toNat ≤ 11 ∧ t = { s with cfgBsid := c }) ∨
      (s.phase = .idle ∧ (t = startFrame p .enc .eHeader s ∨ t = startFrame p .dec .dFrameHdr s)) ∨
      ((s.phase = .done ∨ s.phase = .error) ∧ t = { s with phase := .idle, errClass := .none, errSite := .none })) := by
  unfold csrWrite
  split
  · refine ⟨_, rfl, ?_⟩
    rcases writeCfg_cases v s with ⟨hb, hc, e⟩ | ⟨_, e⟩
    · exact .inr (.inl ⟨_, hb, hc, e⟩)
    · exact .inl e
  split
  · rcases decodeCmd_cases v with e | e | e | e <;> rw [e]
    · exact ⟨s, rfl, .inl rfl⟩
    · rcases encodeCommand_cases p s with ⟨hi, e⟩ | ⟨_, e⟩
      · exact ⟨_, e, .inr (.inr (.inl ⟨hi, .inl rfl⟩))⟩
      · exact ⟨s, e, .inl rfl⟩
    · rcases decodeCommand_cases p s with ⟨hi, e⟩ | ⟨_, e⟩
      · exact ⟨_, e, .inr (.inr (.inl ⟨hi, .inr rfl⟩))⟩
      · exact ⟨s, e, .inl rfl⟩
    · rcases clearCommand_cases s with ⟨hd, e⟩ | ⟨_, e⟩
      · exact ⟨_, e, .inr (.inr (.inr ⟨hd, rfl⟩))⟩
      · exact ⟨s, e, .inl rfl⟩
  · exact ⟨s, rfl, .inl rfl⟩

end Sys2Proof.Machine
end

section
/-! PROOFS. The invariant of reachable states (R45): how each operation keeps its data half, what its control half asks
at each arm, and that every arm and every operation of the HOST answers a state that meets it. -/

namespace Sys2Proof.Machine

/-! ## The two halves of the invariant -/

/-- What the invariant says of the registers and buffers whatever PHASE, FSM and ERR hold: I1, I5, I6 and R44. -/
structure DataInv (p : Params (HashRegs Config.countBits) Config.countBits) (s : State) : Prop where
  cfg : s.cfgBsid.toNat ≤ MAX_BSID
  inSize : s.inSize.toNat ≤ s.blkSize.toNat
  hash : s.h.memSize.toNat = s.h.total.toNat % 16
  rawWf : Memory.wf s.rawBuf = true
  rawIn : Memory.within rawBufSize s.rawBuf = true
  cWf : Memory.wf s.cBuf = true
  cIn : Memory.within (cBufSize p) s.cBuf = true

/-- What holds between the arms of one frame once its header is known: no error yet (I3) and a legal block size
(I4). -/
structure FrameInv (s : State) : Prop where
  phase : s.phase = .busy
  noErr : s.errClass = .none
  site : s.errClass = siteClass s.errSite
  bsid : s.bsidF.toNat ≤ MAX_BSID
  blk : s.blkSize = blockSize s.bsidF

/-- `ArmInv` read at the one arm where FSM stands. -/
def ArmBound {HS : Type} {cb : Nat} (p : Params HS cb) (s : State.Of HS cb) : Prop :=
  match s.fsm with
  | .eCompress => 1 ≤ s.inSize.toNat
  | .eEmit => s.typeTag ≠ 3#2 ∧ (s.typeTag = 0#2 → s.cSize.toNat ≤ p.maxCompressed s.blkSize.toNat)
  | .dReadBody => s.typeTag = 1#2 ∧ s.len.toNat ≤ p.maxCompressed s.blkSize.toNat
  | .dSynth => s.typeTag = 2#2 ∧ s.len.toNat ≤ s.blkSize.toNat
  | .dEntropy => s.typeTag = 0#2 ∧ s.len.toNat ≤ p.maxCompressed s.blkSize.toNat
  | .dEmit => s.typeTag ≠ 3#2 ∧ (s.paySel = .c → s.rSize.toNat ≤ p.maxCompressed s.blkSize.toNat)
      ∧ (s.paySel = .r → s.rSize.toNat ≤ s.blkSize.toNat)
  | _ => True

/-- No arm belongs to both units (R29). -/
theorem Fsm.not_isEnc_and_isDec (f : Fsm) : ¬(f.isEnc = true ∧ f.isDec = true) := by cases f <;> decide

theorem ArmBound.armInv {HS : Type} {cb : Nat} {p : Params HS cb} {s : State.Of HS cb} (h : ArmBound p s) :
    ArmInv p s := by
  unfold ArmBound at h
  constructor <;> intro hf <;> rw [hf] at h <;> exact h

section
variable {p : Params (HashRegs Config.countBits) Config.countBits} {s t : State}

theorem Inv.data (h : Inv p s) : DataInv p s :=
  ⟨h.reg.cfg, h.reg.inSize, h.reg.hash, h.buf.rawWf, h.buf.rawIn, h.buf.cWf, h.buf.cIn⟩

theorem Inv.noErr (h : Inv p s) (hb : s.phase = .busy) : s.errClass = .none := by
  by_contra hn
  exact absurd (h.reg.err.mp hn) (by rw [hb]; decide)

theorem Inv.frame (h : Inv p s) (hb : s.phase = .busy) (h1 : s.fsm ≠ .eHeader) (h2 : s.fsm ≠ .dFrameHdr) :
    FrameInv s := by
  obtain ⟨hid, hblk⟩ := h.reg.blk (h.reg.busy.mp hb) h1 h2
  exact ⟨hb, h.noErr hb, h.reg.site, hid, hblk⟩

theorem DataInv.buf (d : DataInv p s) : BufInv p s := ⟨d.rawWf, d.rawIn, d.cWf, d.cIn⟩

/-- A legal block fits RAWBUF (R44, R96). -/
theorem FrameInv.blkSize_le (f : FrameInv s) : s.blkSize.toNat ≤ 2097152 := by
  rw [f.blk]; exact (blockSize_toNat _ f.bsid).2

/-! ## From the halves to the invariant -/

/-- In a phase other than BUSY, FSM is NONE and no arm asks for anything. -/
theorem Inv.ofQuiet (d : DataInv p t) (hb : t.phase ≠ .busy) (hf : t.fsm = .none)
    (he : t.errClass ≠ .none ↔ t.phase = .error) (hs : t.errClass = siteClass t.errSite) : Inv p t where
  reg :=
    { cfg := d.cfg, busy := ⟨fun h => absurd h hb, fun h => absurd hf h⟩, err := he, site := hs
      blk := fun h => absurd hf h, inSize := d.inSize, hash := d.hash
      modeEnc := fun h => by rw [hf] at h; exact absurd h (by decide)
      modeDec := fun h => by rw [hf] at h; exact absurd h (by decide) }
  arm := ArmBound.armInv (by unfold ArmBound; rw [hf]; trivial)
  buf := d.buf

/-- An error of the table of R252 ends the frame (R262). -/
theorem DataInv.inv_raise {cls : ErrClass} {site : ErrSite} (d : DataInv p s) (hc : siteClass site = cls)
    (hn : cls ≠ .none) : Inv p (raise cls site s) :=
  .ofQuiet ⟨d.cfg, d.inSize, d.hash, d.rawWf, d.rawIn, d.cWf, d.cIn⟩ (by simp) rfl (by simpa using hn) hc.symm

/-- Completion ends the frame (R168, R189). -/
theorem DataInv.inv_finish (d : DataInv p s) (f : FrameInv s) : Inv p (finish s) :=
  .ofQuiet ⟨d.cfg, d.inSize, d.hash, d.rawWf, d.rawIn, d.cWf, d.cIn⟩ (by simp) rfl (by simp [f.noErr]) f.site

/-- The frame goes on at an arm of the unit MODE names (R23). -/
theorem Inv.ofFrame (d : DataInv p t) (f : FrameInv t)
    (hm : t.mode = .enc ∧ t.fsm.isEnc = true ∨ t.mode = .dec ∧ t.fsm.isDec = true) (a : ArmBound p t) : Inv p t where
  reg :=
    { cfg := d.cfg
      busy := ⟨fun _ hf => by rw [hf] at hm; simp [Fsm.isEnc, Fsm.isDec] at hm, fun _ => f.phase⟩
      err := by simp [f.noErr, f.phase]
      site := f.site, blk := fun _ _ _ => ⟨f.bsid, f.blk⟩, inSize := d.inSize, hash := d.hash
      modeEnc := fun he => hm.elim And.left fun hd => absurd ⟨he, hd.2⟩ t.fsm.not_isEnc_and_isDec
      modeDec := fun hd => hm.elim (fun he => absurd ⟨he.2, hd⟩ t.fsm.not_isEnc_and_isDec) And.left }
  arm := a.armInv
  buf := d.buf

/-! ## The operations keep the data half -/

theorem DataInv.setBlockSize {id : BitVec 4} (d : DataInv p s) : DataInv p (setBlockSize id s) :=
  { d with inSize := inSizeWithin_le _ _ }

theorem DataInv.snkWrite (d : DataInv p s) (bs : Bytes) : DataInv p (snkWrite p bs s).2 := { d with }

/-- I6 after H_INIT (R142). -/
theorem DataInv.hInit (d : DataInv p s) (hp : p.hash = XXH32) : DataInv p (hInit p s) :=
  { d with hash := by rw [hInit_h, hp, XXH32_fresh]; rfl }

/-- I6 after H_UPDATE (R143). -/
theorem DataInv.hUpdate (d : DataInv p s) (hp : p.hash = XXH32) (bs : Bytes) : DataInv p (hUpdate p bs s) :=
  { d with
    hash := by
      have h := d.hash
      have ht : (xxhUpdate s.h bs).total.toNat = (s.h.total.toNat + bs.length % 2 ^ 64) % 2 ^ 64 :=
        BitVec.toNat_add _ _
      rw [hUpdate_h, hp, XXH32_update, update_memSize, ht]
      omega }

theorem DataInv.writeRaw (d : DataInv p s) {base : Nat} {bs : Bytes} (h : base + bs.length ≤ rawBufSize) :
    DataInv p { s with rawBuf := Memory.write s.rawBuf base bs } :=
  { d with rawWf := Memory.wf_write d.rawWf _ _, rawIn := Memory.within_write d.rawIn h }

theorem DataInv.writeC (d : DataInv p s) {base : Nat} {bs : Bytes} (h : base + bs.length ≤ cBufSize p) :
    DataInv p { s with cBuf := Memory.write s.cBuf base bs } :=
  { d with cWf := Memory.wf_write d.cWf _ _, cIn := Memory.within_write d.cIn h }

/-- The invariant says nothing of what the HOST and the environment hold, and of CFG only its bound. -/
theorem Inv.env (h : Inv p s) {c : BitVec 4} (hc : c.toNat ≤ MAX_BSID) (q : List HostOp) (v : Word32)
    (src snk : Bytes) (k n : Nat) :
    Inv p { s with
      cfgBsid := c, hostIn := q, hostData := v, srcRest := src, snkData := snk, snkReqs := k, freeCtr := n } where
  reg := { h.reg with cfg := hc }
  arm := { h.arm with }
  buf := { h.buf with }

/-! ## Every arm answers a state that meets the invariant -/

/-- The outcome is a next state, and that state meets the invariant. -/
def AnswersInv (p : Params (HashRegs Config.countBits) Config.countBits) (o : Host.Outcome State Fault Refusal) :
    Prop :=
  ∃ t, o = .next t ∧ Inv p t

theorem armEHeader_answersInv (hp : p.hash = XXH32) (h : Inv p s) (hb : s.phase = .busy) (hf : s.fsm = .eHeader) :
    AnswersInv p (armEHeader p s) := by
  rcases armEHeader_cases p s with ⟨hc, _⟩ | ⟨hid, e⟩
  · exact absurd h.reg.cfg (Nat.not_le.mpr hc)
  · refine ⟨_, e, ?_⟩
    have d := (h.data.setBlockSize (id := s.cfgBsid)).snkWrite (packFrameHdr s.cfgBsid)
    have hm : s.mode = .enc := h.reg.modeEnc (by rw [hf]; rfl)
    split
    · exact d.inv_raise rfl (by decide)
    · exact .ofFrame { d.hInit hp with } ⟨hb, h.noErr hb, h.reg.site, hid, rfl⟩ (.inl ⟨hm, rfl⟩) trivial

/-- R162: the bytes read are at most a block, and E_COMPRESS follows only if there are any. -/
theorem armERead_answersInv (d : DataInv p s) (f : FrameInv s) (hm : s.mode = .enc) :
    AnswersInv p (armERead s) := by
  have hblk := f.blkSize_le
  rcases armERead_cases s with ⟨hc, _⟩ | ⟨hfit, e⟩
  · exact absurd hc (by unfold rawBufSize MAX_BLKSIZE; omega)
  · refine ⟨_, e, ?_⟩
    have hn : (BitVec.ofNat 22 (min s.blkSize.toNat s.srcRest.length)).toNat =
        min s.blkSize.toNat s.srcRest.length := by rw [BitVec.toNat_ofNat]; omega
    have dr := d.writeRaw (base := 0) (bs := s.srcRest.take s.blkSize.toNat)
      (by rw [List.length_take, Nat.zero_add]; exact hfit)
    refine .ofFrame { dr with inSize := hn.trans_le (Nat.min_le_left _ _) } { f with } (.inl ⟨hm, ?_⟩) ?_
    · dsimp only; split <;> rfl
    · unfold ArmBound
      by_cases h0 : min s.blkSize.toNat s.srcRest.length = 0
      · simp only [h0, if_true]
      · simp only [h0, if_false, hn]; omega

/-- R163 to R166: every answer of the compressor is an error or a record whose body fits CBUF. -/
theorem takeCompressed_answersInv (d : DataInv p t) (f : FrameInv t) (hm : t.mode = .enc) (a : CRes) :
    AnswersInv p (takeCompressed p a t) := by
  have hfits := maxCompressed_le_cBufSize p f.blkSize_le
  have hmono := p.mc2 _ _ d.inSize
  rcases takeCompressed_cases p a t with ⟨_, _, e⟩ | ⟨_, e⟩ | ⟨_, e⟩ | ⟨_, _, _, e⟩ | ⟨body, _, _, hl, hc, _⟩ |
    ⟨body, _, h22, hl, hc, e⟩
  · exact ⟨_, e, d.inv_raise rfl (by decide)⟩
  · exact ⟨_, e, .ofFrame { d with } { f with } (.inl ⟨hm, rfl⟩) ⟨by simp, by simp⟩⟩
  · exact ⟨_, e, .ofFrame { d with } { f with } (.inl ⟨hm, rfl⟩) ⟨by simp, by simp⟩⟩
  · exact ⟨_, e, d.inv_raise rfl (by decide)⟩
  · omega
  · have hs : (BitVec.ofNat 22 body.length).toNat = body.length := by rw [BitVec.toNat_ofNat]; omega
    refine ⟨_, e, .ofFrame { d.writeC hc with } { f with } (.inl ⟨hm, rfl⟩) ⟨by simp, fun _ => ?_⟩⟩
    exact hs.trans_le (hl.trans hmono)

theorem armECompress_answersInv (hp : p.hash = XXH32) (d : DataInv p s) (f : FrameInv s) (hm : s.mode = .enc)
    (h1 : 1 ≤ s.inSize.toNat) : AnswersInv p (armECompress p s) := by
  rcases armECompress_cases p s with ⟨h0, _⟩ | ⟨_, hc, _⟩ | ⟨_, _, e⟩
  · simp [h0] at h1
  · exact absurd hc (Nat.not_lt.mpr (d.inSize.trans f.blkSize_le))
  · rw [e]
    exact takeCompressed_answersInv (d.hUpdate hp _) { f with } hm _

/-- A short write of E_EMIT is an IoError (R167, R252). -/
theorem siteClass_emitSite : ∀ tag, siteClass (emitSite tag) = .ioError := by decide

/-- R167: in a frame the body E_EMIT writes is inside its buffer. -/
theorem emitBody_fits (d : DataInv p s) (f : FrameInv s)
    (a : s.typeTag ≠ 3#2 ∧ (s.typeTag = 0#2 → s.cSize.toNat ≤ p.maxCompressed s.blkSize.toNat)) :
    ∃ body, emitBody p s = some (some body) := by
  obtain ⟨h3, h0⟩ := a
  rcases emitBody_cases p s with ⟨_, e⟩ | ⟨_, e⟩ | ⟨ht, e⟩ | ⟨ht, _⟩
  · rw [readRaw_fits (by rw [Nat.zero_add]; exact d.inSize.trans f.blkSize_le)] at e; exact ⟨_, e⟩
  · exact ⟨_, e⟩
  · rw [readC_fits (by have := h0 ht; have := maxCompressed_le_cBufSize p f.blkSize_le; omega)] at e; exact ⟨_, e⟩
  · exact absurd ht h3

theorem armEEmit_answersInv (d : DataInv p s) (f : FrameInv s) (hm : s.mode = .enc)
    (a : s.typeTag ≠ 3#2 ∧ (s.typeTag = 0#2 → s.cSize.toNat ≤ p.maxCompressed s.blkSize.toNat)) :
    AnswersInv p (armEEmit p s) := by
  have dw := d.writeC (base := 0) (header_le_cBufSize p (packHdr s.typeTag s.len))
  obtain ⟨body, hbody⟩ := emitBody_fits dw { f with } a
  refine ⟨_, armEEmit_body hbody, ?_⟩
  have dk := dw.snkWrite ((packHdr s.typeTag s.len).toBytes ++ body)
  split
  · exact dk.inv_raise (siteClass_emitSite _) (by decide)
  · exact .ofFrame { dk with } { f with } (.inl ⟨hm, rfl⟩) trivial

theorem armETrailer_answersInv (d : DataInv p s) (f : FrameInv s) : AnswersInv p (armETrailer p s) := by
  have dc : DataInv p { s with ckCalc := checksum p s } := { d with }
  refine ⟨_, armETrailer_eq p s, ?_⟩
  split
  · exact (dc.snkWrite _).inv_raise rfl (by decide)
  · exact (dc.snkWrite _).inv_finish { f with }

theorem armDFrameHdr_answersInv (hp : p.hash = XXH32) (h : Inv p s) (hb : s.phase = .busy)
    (hf : s.fsm = .dFrameHdr) : AnswersInv p (armDFrameHdr (execWith p) s) := by
  have d : DataInv p (srcRead 5 s).2 := { h.data with }
  rcases armDFrameHdr_cases (execWith p) s with ⟨site, hs, e⟩ | ⟨id, hid, _, _, e⟩
  · exact ⟨_, e, d.inv_raise rfl hs⟩
  · rw [e]
    rcases frameRecord_cases p id (srcRead 5 s).2 with ⟨hc, _⟩ | ⟨_, e'⟩
    · exact absurd hid (Nat.not_le.mpr hc)
    · exact ⟨_, e', .ofFrame { d.setBlockSize.hInit hp with } ⟨hb, h.noErr hb, h.reg.site, hid, rfl⟩
        (.inr ⟨h.reg.modeDec (by rw [hf]; rfl), rfl⟩) trivial⟩

theorem armDAwaitHdr_answersInv (d : DataInv p s) (f : FrameInv s) (hm : s.mode = .dec) :
    AnswersInv p (armDAwaitHdr s) := by
  rcases armDAwaitHdr_cases s with ⟨_, e⟩ | ⟨_, e⟩
  · exact ⟨_, e, DataInv.inv_raise { d with } rfl (by decide)⟩
  · exact ⟨_, e, .ofFrame { d with } { f with } (.inr ⟨hm, rfl⟩) trivial⟩

/-- R183: a dispatch that passes its length test leaves the bound its body arm relies on. -/
theorem dispatchData_inv (d : DataInv p s) (f : FrameInv s) (hm : s.mode = .dec) {tag : BitVec 2} {field : BitVec 22}
    {bound : Nat} {site : ErrSite} {arm : Fsm} (hs : siteClass site = .formatError) (ha : arm.isDec = true)
    (hbound : field.toNat ≤ bound → ArmBound p { s with typeTag := tag, len := field, fsm := arm }) :
    Inv p (dispatchData tag field bound site arm s) := by
  rcases dispatchData_cases tag field bound site arm s with ⟨_, e⟩ | ⟨hle, e⟩ <;> rw [e]
  · exact DataInv.inv_raise { d with } hs (by decide)
  · exact .ofFrame { d with } { f with } (.inr ⟨hm, ha⟩) (hbound hle)

theorem dispatch_answersInv (d : DataInv p s) (f : FrameInv s) (hm : s.mode = .dec) (hf : s.fsm = .dDispatch) :
    AnswersInv p (execWith p (decodeHdr s.hdr) s) := by
  obtain ⟨field, e | e | e | e⟩ := execWith_decodeHdr_dDispatch p hf
  · exact ⟨_, e, dispatchData_inv d f hm rfl rfl fun hle => ⟨rfl, hle⟩⟩
  · exact ⟨_, e, dispatchData_inv d f hm rfl rfl fun hle => ⟨rfl, hle⟩⟩
  · exact ⟨_, e, dispatchData_inv d f hm rfl rfl fun hle => ⟨rfl, hle⟩⟩
  · exact ⟨_, e, .ofFrame { d with } { f with } (.inr ⟨hm, rfl⟩) trivial⟩

theorem readBody_answersInv (d : DataInv p s) (f : FrameInv s) (hm : s.mode = .dec)
    (a : s.typeTag = 1#2 ∧ s.len.toNat ≤ p.maxCompressed s.blkSize.toNat) : AnswersInv p (readBody p s) := by
  obtain ⟨ht, hl⟩ := a
  have hfits := maxCompressed_le_cBufSize p f.blkSize_le
  rcases readBody_cases p s with ⟨_, e⟩ | ⟨_, hc, _⟩ | ⟨_, hc, e⟩
  · exact ⟨_, e, DataInv.inv_raise { d with } rfl (by decide)⟩
  · omega
  · have dw := d.writeC (base := 0) (bs := s.srcRest.take s.len.toNat) (by rw [List.length_take]; omega)
    exact ⟨_, e, .ofFrame { dw with } { f with } (.inr ⟨hm, rfl⟩) ⟨by simp [ht], fun _ => hl, nofun⟩⟩

theorem synth_answersInv (d : DataInv p s) (f : FrameInv s) (hm : s.mode = .dec)
    (a : s.typeTag = 2#2 ∧ s.len.toNat ≤ s.blkSize.toNat) : AnswersInv p (synth s) := by
  obtain ⟨ht, hl⟩ := a
  rcases synth_cases s with ⟨_, e⟩ | ⟨_, _, _, hc, _⟩ | ⟨b, _, _, hc, e⟩
  · exact ⟨_, e, d.inv_raise rfl (by decide)⟩
  · exact absurd hc (Nat.not_lt.mpr (hl.trans f.blkSize_le))
  · have dw := d.writeRaw (base := 0) (bs := rep b s.len.toNat) (by rw [rep, List.length_replicate]; omega)
    exact ⟨_, e, .ofFrame { dw with } { f with } (.inr ⟨hm, rfl⟩) ⟨by simp [ht], nofun, fun _ => hl⟩⟩

/-- R187: an answer longer than the block size is an error, and a shorter one fits RAWBUF. -/
theorem takeDecoded_answersInv (d : DataInv p t) (f : FrameInv t) (hm : t.mode = .dec) (ht : t.typeTag = 0#2)
    (a : DRes) : AnswersInv p (takeDecoded a t) := by
  have hblk := f.blkSize_le
  rcases takeDecoded_cases a t with ⟨_, _, e⟩ | ⟨_, _, _, e⟩ | ⟨_, _, hl, hc, _⟩ | ⟨q, _, hl, hc, e⟩
  · exact ⟨_, e, d.inv_raise rfl (by decide)⟩
  · exact ⟨_, e, d.inv_raise rfl (by decide)⟩
  · exact absurd hc (Nat.not_lt.mpr (hl.trans hblk))
  · have hn : (BitVec.ofNat 22 q.length).toNat = q.length := by rw [BitVec.toNat_ofNat]; omega
    have dw := d.writeRaw (base := 0) (bs := q) (by omega)
    exact ⟨_, e, .ofFrame { dw with } { f with } (.inr ⟨hm, rfl⟩) ⟨by simp [ht], nofun, fun _ => hn.trans_le hl⟩⟩

theorem entropy_answersInv (d : DataInv p s) (f : FrameInv s) (hm : s.mode = .dec)
    (a : s.typeTag = 0#2 ∧ s.len.toNat ≤ p.maxCompressed s.blkSize.toNat) : AnswersInv p (entropy p s) := by
  obtain ⟨ht, hl⟩ := a
  have hfits := maxCompressed_le_cBufSize p f.blkSize_le
  rcases entropy_cases p s with ⟨_, e⟩ | ⟨_, hc, _⟩ | ⟨_, hc, e⟩
  · exact ⟨_, e, DataInv.inv_raise { d with } rfl (by decide)⟩
  · omega
  · have dw := d.writeC (base := 0) (bs := s.srcRest.take s.len.toNat) (by rw [List.length_take]; omega)
    rw [e]
    apply takeDecoded_answersInv
    · exact { dw with }
    · exact { f with }
    · exact hm
    · exact ht

/-- R188: in a frame the payload is inside the buffer PAYSEL selects. -/
theorem payload_fits (f : FrameInv s) (hc : s.paySel = .c → s.rSize.toNat ≤ p.maxCompressed s.blkSize.toNat)
    (hr : s.paySel = .r → s.rSize.toNat ≤ s.blkSize.toNat) : ∃ pay, payload p s = some pay := by
  rcases payload_cases p s with ⟨h, hover, _⟩ | ⟨h, hover, _⟩ | ⟨_, _, e⟩ | ⟨_, _, e⟩
  · have := hc h; have := maxCompressed_le_cBufSize p f.blkSize_le; omega
  · exact absurd hover (Nat.not_lt.mpr ((hr h).trans f.blkSize_le))
  · exact ⟨_, e⟩
  · exact ⟨_, e⟩

theorem emit_answersInv (hp : p.hash = XXH32) (d : DataInv p s) (f : FrameInv s) (hm : s.mode = .dec)
    (hf : s.fsm = .dEmit) (a : s.typeTag ≠ 3#2 ∧ (s.paySel = .c → s.rSize.toNat ≤ p.maxCompressed s.blkSize.toNat)
      ∧ (s.paySel = .r → s.rSize.toNat ≤ s.blkSize.toNat)) :
    AnswersInv p (execWith p (recordOf s.typeTag s.len) s) := by
  obtain ⟨h3, hc, hr⟩ := a
  obtain ⟨pay, hpay⟩ := payload_fits f hc hr
  rcases execWith_recordOf_dEmit p hf with ⟨ht, _⟩ | ⟨site, hs, e⟩
  · exact absurd ht h3
  · refine ⟨_, e.trans (emitPayload_some hpay site), ?_⟩
    split
    · exact (d.snkWrite pay).inv_raise hs (by decide)
    · exact .ofFrame { (d.snkWrite pay).hUpdate hp pay with } { f with } (.inr ⟨hm, rfl⟩) trivial

theorem verify_inv (d : DataInv p s) (f : FrameInv s) : Inv p (verify p s) := by
  rcases verify_cases p s with ⟨_, e⟩ | ⟨_, e⟩ <;> rw [e]
  · exact DataInv.inv_raise { d with } rfl (by decide)
  · exact DataInv.inv_finish { d with } { f with }

/-! ## The step -/

/-- R190: in a state that meets the invariant the CODEC's turn has a successor, and that meets it too. -/
theorem codecStep_answersInv (hp : p.hash = XXH32) (h : Inv p s) : AnswersInv p (codecStep p (execWith p) s) := by
  by_cases hb : s.phase = .busy
  · have d := h.data
    have f := h.frame hb
    have hme := h.reg.modeEnc
    have hmd := h.reg.modeDec
    rw [codecStep_busy p _ hb]
    cases hf : s.fsm <;> rw [hf] at f hme hmd <;> dsimp only
    case none => exact absurd hf (h.reg.busy.mp hb)
    case eHeader => exact armEHeader_answersInv hp h hb hf
    case eRead => exact armERead_answersInv d (f nofun nofun) (hme rfl)
    case eCompress => exact armECompress_answersInv hp d (f nofun nofun) (hme rfl) (h.arm.compress hf)
    case eEmit => exact armEEmit_answersInv d (f nofun nofun) (hme rfl) (h.arm.emit hf)
    case eTrailer => exact armETrailer_answersInv d (f nofun nofun)
    case dFrameHdr => exact armDFrameHdr_answersInv hp h hb hf
    case dAwaitHdr => exact armDAwaitHdr_answersInv d (f nofun nofun) (hmd rfl)
    case dDispatch => exact dispatch_answersInv d (f nofun nofun) (hmd rfl) hf
    case dReadBody =>
      rw [execWith_raw_dReadBody p _ hf]
      exact readBody_answersInv d (f nofun nofun) (hmd rfl) (h.arm.body hf)
    case dSynth =>
      rw [execWith_rle_dSynth p _ hf]
      exact synth_answersInv d (f nofun nofun) (hmd rfl) (h.arm.synth hf)
    case dEntropy =>
      rw [execWith_comp_dEntropy p _ hf]
      exact entropy_answersInv d (f nofun nofun) (hmd rfl) (h.arm.entropy hf)
    case dEmit => exact emit_answersInv hp d (f nofun nofun) (hmd rfl) hf (h.arm.payload hf)
    case dVerify => exact ⟨_, execWith_crc_dVerify p _ hf, verify_inv d (f nofun nofun)⟩
  · exact ⟨s, codecStep_idle p _ hb, h⟩

/-- R214, R215: an accepted command starts a frame that meets the invariant. -/
theorem startFrame_inv (d : DataInv p s) {m : Mode} {arm : Fsm}
    (hm : m = .enc ∧ arm = .eHeader ∨ m = .dec ∧ arm = .dFrameHdr) : Inv p (startFrame p m arm s) := by
  obtain ⟨hrw, hri, hcw, hci⟩ := freeBuffers_wf p s
  have b : BufInv p (startFrame p m arm s) := ⟨hrw, hri, hcw, hci⟩
  rcases hm with ⟨rfl, rfl⟩ | ⟨rfl, rfl⟩
  · exact ⟨⟨d.cfg, by simp, by simp, rfl, fun _ h => absurd rfl h, d.inSize, d.hash, fun _ => rfl, nofun⟩,
      ArmBound.armInv trivial, b⟩
  · exact ⟨⟨d.cfg, by simp, by simp, rfl, fun _ _ h => absurd rfl h, d.inSize, d.hash, nofun, fun _ => rfl⟩,
      ArmBound.armInv trivial, b⟩

/-- R211, R212, R213 to R217: no write of a register leaves the invariant. -/
theorem csrWrite_answersInv (h : Inv p s) (n v : Word32) : AnswersInv p (csrWrite (execWith p) n v s) := by
  obtain ⟨t, e, ht⟩ := csrWrite_cases p n v s
  refine ⟨t, e, ?_⟩
  rcases ht with rfl | ⟨c, _, hc, rfl⟩ | ⟨_, rfl | rfl⟩ | ⟨hph, rfl⟩
  · exact h
  · exact h.env hc _ _ _ _ _ _
  · exact startFrame_inv h.data (.inl ⟨rfl, rfl⟩)
  · exact startFrame_inv h.data (.inr ⟨rfl, rfl⟩)
  · have hf : s.fsm = .none := by
      by_contra hn
      have hb := h.reg.busy.mpr hn
      rcases hph with hp | hp <;> simp [hb] at hp
    exact .ofQuiet { h.data with } (by simp) hf (by simp) rfl

end

/-- Settles O46: the reset values that R50 gives, and those of log entry 3, meet each clause. -/
theorem resetMeetsInv : Obligations.ResetMeetsInv :=
  .ofQuiet ⟨by decide, by decide, by decide, rfl, rfl, rfl, rfl⟩ (by decide) rfl (by decide) rfl

/-- R45, R190: from a state that meets the invariant, whatever the HOST does but a reconnect during a frame. -/
theorem step_answersInv {s : State} (h : Inv Config.params s) (hr : hostReady s = true) :
    AnswersInv Config.params (step s) := by
  have hq (q : List HostOp) : Inv Config.params { s with hostIn := q } := h.env h.reg.cfg _ _ _ _ _ _
  rw [step_eq_stepAt_params]
  unfold stepAt stepWith
  unfold hostReady at hr
  split
  · exact codecStep_answersInv rfl h
  · exact codecStep_answersInv rfl (hq _)
  · exact ⟨_, rfl, h.env h.reg.cfg _ _ _ _ _ _⟩
  · exact csrWrite_answersInv (hq _) _ _
  · exact ⟨_, rfl, Inv.env resetMeetsInv (by decide) _ _ _ _ _ _⟩
  · rename_i src snk q hin
    rw [hin] at hr
    exact ⟨_, if_neg (of_decide_eq_true hr), h.env h.reg.cfg _ _ _ _ _ _⟩

/-- The one operation of the HOST that has no meaning stops the step (U26). -/
theorem step_of_not_hostReady {s : State} (hr : hostReady s ≠ true) : step s = .refused .reconnectWhileBusy := by
  unfold hostReady at hr
  split at hr
  · rename_i src snk q hin
    have hb : s.phase = .busy := by simpa using hr
    unfold step stepWith
    rw [hin]
    exact if_pos hb
  · exact absurd rfl hr

/-- Settles O47: every arm has a successor in a state that meets the invariant. -/
theorem invStatesNeverStop : Obligations.InvStatesNeverStop := fun _ h hr =>
  let ⟨t, e, _⟩ := step_answersInv h hr
  ⟨t, e⟩

/-- Settles O45: every arm and every operation of the HOST that answers a next state keeps both halves. -/
theorem stepKeepsInv : Obligations.StepKeepsInv := by
  intro s t h e
  by_cases hr : hostReady s = true
  · obtain ⟨t', e', h'⟩ := step_answersInv h hr
    cases e.symm.trans e'
    exact h'
  · rw [step_of_not_hostReady hr] at e
    cases e

/-- Settles O17: each register of the reset state. -/
theorem resetValues : Obligations.ResetValues := by unfold Obligations.ResetValues; decide

end Sys2Proof.Machine
end

section
/-! PROOFS. What one turn of the CODEC can do to the HOST's side of the block (CFG, the streams, the counters), and how
a frame comes to an end: shown once for every arm. -/

namespace Sys2Proof.Machine

variable {HS : Type} {cb : Nat} {p : Params HS cb} {s t u : State.Of HS cb}

/-- What every turn leaves of the HOST's side: CFG as it was, SRC a tail of itself, SNK longer, the counters with them
(I7 of R45). -/
structure HostSide (s t : State.Of HS cb) : Prop where
  cfg : t.cfgBsid = s.cfgBsid
  src : ∃ n, n ≤ s.srcRest.length ∧ t.srcRest = s.srcRest.drop n ∧ t.inCount = s.inCount + BitVec.ofNat cb n
  snk : ∃ x, t.snkData = s.snkData ++ x ∧ t.outCount = s.outCount + BitVec.ofNat cb x.length

/-- A turn that moves the streams so and does not enter DONE. -/
structure Turn (s t : State.Of HS cb) : Prop extends HostSide s t where
  done : t.phase = .done → s.phase = .done

theorem Turn.refl (s : State.Of HS cb) : Turn s s where
  cfg := rfl
  src := ⟨0, by simp⟩
  snk := ⟨[], by simp⟩
  done := id

theorem Turn.raise (h : Turn s u) (cls : ErrClass) (site : ErrSite) : Turn s (raise cls site u) :=
  { h with done := nofun }

theorem Turn.srcRead (n : Nat) (s : State.Of HS cb) : Turn s (srcRead n s).2 :=
  { Turn.refl s with
    src := ⟨min n s.srcRest.length, Nat.min_le_right _ _, by
      rw [srcRead_srcRest, srcRead_inCount, List.length_take]
      exact ⟨List.drop_eq_drop_iff.mpr (by simp), rfl⟩⟩ }

/-- R63: what the sink accepts of a request is behind what it held, and is counted. -/
theorem Turn.snkWrite (h : Turn s u) (p : Params HS cb) (bs : Bytes) : Turn s (snkWrite p bs u).2 :=
  { h with
    snk := by
      obtain ⟨x, hd, ho⟩ := h.snk
      have hk : (bs.take (snkAccepts p bs u)).length = snkAccepts p bs u := by
        simpa using snkAccepts_le p bs u
      refine ⟨x ++ bs.take (snkAccepts p bs u), ?_, ?_⟩
      · rw [snkWrite_snkData, hd, List.append_assoc]
      · rw [snkWrite_outCount, ho, List.length_append, hk, BitVec.ofNat_add, BitVec.add_assoc] }

/-! ## Each arm -/

theorem armEHeader_turn (h : armEHeader p s = .next t) : Turn s t := by
  have hb : Turn s (setBlockSize s.cfgBsid s) := { Turn.refl s with }
  rcases armEHeader_cases p s with ⟨_, e⟩ | ⟨_, e⟩ <;> cases h.symm.trans e
  split
  · exact (hb.snkWrite p _).raise _ _
  · exact { hb.snkWrite p _ with }

theorem armERead_turn (h : armERead s = .next t) : Turn s t := by
  rcases armERead_cases s with ⟨_, e⟩ | ⟨_, e⟩ <;> cases h.symm.trans e
  have hr := Turn.srcRead s.blkSize.toNat s
  rw [srcRead, List.length_take] at hr
  exact { hr with }

theorem takeCompressed_turn {a : CRes} (h : takeCompressed p a s = .next t) : Turn s t := by
  have hs := Turn.refl s
  rcases takeCompressed_cases p a s with ⟨_, _, e⟩ | ⟨_, e⟩ | ⟨_, e⟩ | ⟨_, _, _, e⟩ | ⟨_, _, _, _, _, e⟩ |
    ⟨_, _, _, _, _, e⟩ <;> cases h.symm.trans e
  · exact hs.raise _ _
  · exact { hs with }
  · exact { hs with }
  · exact hs.raise _ _
  · exact { hs with }

theorem armECompress_turn (h : armECompress p s = .next t) : Turn s t := by
  rcases armECompress_cases p s with ⟨_, e⟩ | ⟨_, _, e⟩ | ⟨_, _, e⟩
  · cases h.symm.trans e
  · cases h.symm.trans e
  · exact { takeCompressed_turn (e.symm.trans h) with }

theorem armEEmit_turn (h : armEEmit p s = .next t) : Turn s t := by
  cases hb : emitBody p { s with cBuf := Memory.write s.cBuf 0 (packHdr s.typeTag s.len).toBytes } with
  | none => cases h.symm.trans (armEEmit_noBody p hb)
  | some b =>
    cases b with
    | none => cases h.symm.trans (armEEmit_overrun p hb)
    | some body =>
      have hw : Turn s { s with cBuf := Memory.write s.cBuf 0 (packHdr s.typeTag s.len).toBytes } :=
        { Turn.refl s with }
      cases h.symm.trans (armEEmit_body hb)
      split
      · exact (hw.snkWrite p _).raise _ _
      · exact { hw.snkWrite p _ with }

theorem armDAwaitHdr_turn (h : armDAwaitHdr s = .next t) : Turn s t := by
  have hr := Turn.srcRead 3 s
  rcases armDAwaitHdr_cases s with ⟨hl, e⟩ | ⟨hl, e⟩ <;> cases h.symm.trans e
  · rw [srcRead_short hl] at hr; exact hr.raise _ _
  · rw [srcRead_full hl] at hr; exact { hr with }

theorem frameRecord_turn {id : BitVec 4} (hr : Turn s u) (h : frameRecord p id u = .next t) : Turn s t := by
  rcases frameRecord_cases p id u with ⟨_, e⟩ | ⟨_, e⟩ <;> cases h.symm.trans e
  · exact hr.raise _ _
  · exact { hr with }

theorem armDFrameHdr_turn (h : armDFrameHdr (execWith p) s = .next t) : Turn s t := by
  have hr := Turn.srcRead 5 s
  rcases armDFrameHdr_cases (execWith p) s with ⟨_, _, e⟩ | ⟨_, _, _, _, e⟩
  · cases h.symm.trans e
    exact hr.raise _ _
  · exact frameRecord_turn hr (e.symm.trans h)

theorem dispatchData_turn (tag : BitVec 2) (field : BitVec 22) (bound : Nat) (site : ErrSite) (arm : Fsm) :
    Turn s (dispatchData tag field bound site arm s) := by
  rcases dispatchData_cases tag field bound site arm s with ⟨_, e⟩ | ⟨_, e⟩ <;> rw [e]
  · exact { Turn.refl s with done := nofun }
  · exact { Turn.refl s with }

theorem dispatch_turn (hf : s.fsm = .dDispatch) (h : execWith p (decodeHdr s.hdr) s = .next t) : Turn s t := by
  obtain ⟨field, e | e | e | e⟩ := execWith_decodeHdr_dDispatch p hf <;> cases h.symm.trans e
  · exact dispatchData_turn _ _ _ _ _
  · exact dispatchData_turn _ _ _ _ _
  · exact dispatchData_turn _ _ _ _ _
  · exact { Turn.refl s with }

theorem readBody_turn (h : readBody p s = .next t) : Turn s t := by
  have hr := Turn.srcRead s.len.toNat s
  rcases readBody_cases p s with ⟨hl, e⟩ | ⟨_, _, e⟩ | ⟨hl, _, e⟩ <;> cases h.symm.trans e
  · rw [srcRead_short hl] at hr; exact hr.raise _ _
  · rw [srcRead_full hl] at hr; exact { hr with }

theorem synth_turn (h : synth s = .next t) : Turn s t := by
  rcases synth_cases s with ⟨_, e⟩ | ⟨_, _, _, _, e⟩ | ⟨b, rest, hs, _, e⟩ <;> cases h.symm.trans e
  · exact (Turn.refl s).raise _ _
  · exact { Turn.refl s with src := ⟨1, by simp [hs]⟩ }

theorem takeDecoded_turn {a : DRes} (hr : Turn s u) (h : takeDecoded a u = .next t) : Turn s t := by
  rcases takeDecoded_cases a u with ⟨_, _, e⟩ | ⟨_, _, _, e⟩ | ⟨_, _, _, _, e⟩ | ⟨_, _, _, _, e⟩ <;>
    cases h.symm.trans e
  · exact hr.raise _ _
  · exact hr.raise _ _
  · exact { hr with }

theorem entropy_turn (h : entropy p s = .next t) : Turn s t := by
  have hr := Turn.srcRead s.len.toNat s
  rcases entropy_cases p s with ⟨hl, e⟩ | ⟨_, _, e⟩ | ⟨hl, _, e⟩
  · cases h.symm.trans e
    rw [srcRead_short hl] at hr; exact hr.raise _ _
  · cases h.symm.trans e
  · rw [srcRead_full hl] at hr
    exact takeDecoded_turn (by exact { hr with }) (e.symm.trans h)

theorem emitPayload_turn {site : ErrSite} (h : emitPayload p site s = .next t) : Turn s t := by
  cases hp : payload p s with
  | none => cases h.symm.trans (emitPayload_none hp site)
  | some pay =>
    cases h.symm.trans (emitPayload_some hp site)
    have hw := (Turn.refl s).snkWrite p pay
    split
    · exact hw.raise _ _
    · exact { hw with }

/-! ## The end of a frame -/

/-- The arm at which a frame is completed: E_TRAILER (R168), or D_VERIFY with the checksum equal to CK_STORED
(R189). -/
def EndsFrame (s u : State.Of HS cb) : Prop :=
  s.fsm = .eTrailer ∨ s.fsm = .dVerify ∧ u.ckCalc = u.ckStored ∧ u.ckStored = s.ckStored

/-- One turn of the CODEC, whatever the arm: it does not enter DONE, or it completes the frame and does nothing
else. -/
def TurnOrFinish (s t : State.Of HS cb) : Prop :=
  Turn s t ∨ ∃ u, Turn s u ∧ t = finish u ∧ EndsFrame s u

theorem armETrailer_turn (hf : s.fsm = .eTrailer) (h : armETrailer p s = .next t) : TurnOrFinish s t := by
  have hc : Turn s { s with ckCalc := checksum p s } := { Turn.refl s with }
  have hw := hc.snkWrite p (packTrailer (checksum p s))
  cases h.symm.trans (armETrailer_eq p s)
  split
  · exact .inl (hw.raise _ _)
  · exact .inr ⟨_, hw, rfl, .inl hf⟩

theorem verify_turn (hf : s.fsm = .dVerify) : TurnOrFinish s (verify p s) := by
  have hc : Turn s { s with ckCalc := checksum p s } := { Turn.refl s with }
  rcases verify_cases p s with ⟨_, e⟩ | ⟨hk, e⟩ <;> rw [e]
  · exact .inl (hc.raise _ _)
  · exact .inr ⟨_, hc, rfl, .inr ⟨hf, hk, rfl⟩⟩

theorem codecStep_turn (h : codecStep p (execWith p) s = .next t) : TurnOrFinish s t := by
  by_cases hb : s.phase = .busy
  · rw [codecStep_busy p _ hb] at h
    cases hf : s.fsm <;> rw [hf] at h <;> dsimp only at h
    case none => cases h; exact .inl (.refl s)
    case eHeader => exact .inl (armEHeader_turn h)
    case eRead => exact .inl (armERead_turn h)
    case eCompress => exact .inl (armECompress_turn h)
    case eEmit => exact .inl (armEEmit_turn h)
    case eTrailer => exact armETrailer_turn hf h
    case dFrameHdr => exact .inl (armDFrameHdr_turn h)
    case dAwaitHdr => exact .inl (armDAwaitHdr_turn h)
    case dDispatch => exact .inl (dispatch_turn hf h)
    case dReadBody => rw [execWith_raw_dReadBody p _ hf] at h; exact .inl (readBody_turn h)
    case dSynth => rw [execWith_rle_dSynth p _ hf] at h; exact .inl (synth_turn h)
    case dEntropy => rw [execWith_comp_dEntropy p _ hf] at h; exact .inl (entropy_turn h)
    case dEmit =>
      rcases execWith_recordOf_dEmit p hf with ⟨_, e⟩ | ⟨_, _, e⟩ <;> rw [e] at h
      · cases h
      · exact .inl (emitPayload_turn h)
    case dVerify => rw [execWith_crc_dVerify p _ hf] at h; cases h; exact verify_turn hf
  · rw [codecStep_idle p _ hb] at h
    cases h
    exact .inl (.refl s)

/-- Completing a frame leaves the HOST's side as the turn left it. -/
theorem TurnOrFinish.hostSide (h : TurnOrFinish s t) : HostSide s t := by
  rcases h with h | ⟨u, h, rfl, _⟩
  · exact h.toHostSide
  · exact { h.toHostSide with }

/-- A turn that ends in DONE from another phase completed the frame. -/
theorem TurnOrFinish.done (h : TurnOrFinish s t) (hd : t.phase = .done) :
    s.phase = .done ∨ ∃ u, t = finish u ∧ EndsFrame s u := by
  rcases h with h | ⟨u, _, ht, he⟩
  · exact .inl (h.done hd)
  · exact .inr ⟨u, ht, he⟩

/-- Settles O48: each arm makes at most one request of a port, and the ports count what they move. -/
theorem countersFollowStreams : Obligations.CountersFollowStreams := by
  intro HS cb p s t h
  have hh := (codecStep_turn h).hostSide
  obtain ⟨n, hn, hs, hi⟩ := hh.src
  obtain ⟨x, hd, ho⟩ := hh.snk
  exact ⟨n, x, hn, hs, hi, hd, ho⟩

/-- The CODEC's turn enters DONE only from BUSY, at the arm that ends the frame. -/
theorem codecStep_done (h : codecStep p (execWith p) s = .next t) (hd : t.phase = .done) :
    s.phase = .done ∨ s.phase = .busy ∧ EndsFrame s t := by
  by_cases hb : s.phase = .busy
  · rcases (codecStep_turn h).done hd with hs | ⟨u, rfl, he⟩
    · exact .inl hs
    · exact .inr ⟨hb, he⟩
  · rw [codecStep_idle p _ hb] at h
    cases h
    exact .inl hd

/-- Settles O50: the CODEC enters DONE only where a frame ends, and no operation of the HOST enters it. -/
theorem doneOnlyThroughTrailer : Obligations.DoneOnlyThroughTrailer := by
  intro s t h hd
  rw [step_eq_stepAt_params] at h
  unfold stepAt stepWith at h
  split at h
  · exact codecStep_done h hd
  · rename_i q _
    exact codecStep_done (s := { s with hostIn := q }) h hd
  · cases h; exact .inl hd
  · rename_i n v q _
    obtain ⟨t', e, ht⟩ := csrWrite_cases Config.params n v { s with hostIn := q }
    cases e.symm.trans h
    rcases ht with rfl | ⟨_, _, _, rfl⟩ | ⟨_, rfl | rfl⟩ | ⟨_, rfl⟩
    · exact .inl hd
    · exact .inl hd
    · cases hd
    · cases hd
    · cases hd
  · cases h; cases hd
  · unfold connect at h
    split at h
    · cases h
    · cases h; exact .inl hd

end Sys2Proof.Machine
end

section
/-! PROOFS. The decoder does not look at CFG (R21, R293): every instruction and every decoder arm runs the same whatever
CFG holds. -/

namespace Sys2Proof.Machine

variable {HS : Type} {cb : Nat}

/-- `s` with another value in CFG. -/
def withCfg (c : BitVec 4) (s : State.Of HS cb) : State.Of HS cb := { s with cfgBsid := c }

/-- The outcome with its next state changed by `g`; a stop stays what it is. -/
def mapNext (g : State.Of HS cb → State.Of HS cb) :
    Host.Outcome (State.Of HS cb) Fault Refusal → Host.Outcome (State.Of HS cb) Fault Refusal
  | .next t => .next (g t)
  | .fault r => .fault r
  | .refused r => .refused r

/-- A test that does not look at CFG. -/
theorem ite_mapNext {g : State.Of HS cb → State.Of HS cb} {q : Prop} [Decidable q]
    {a b a' b' : Host.Outcome (State.Of HS cb) Fault Refusal} (ha : a' = mapNext g a) (hb : b' = mapNext g b) :
    (if q then a' else b') = mapNext g (if q then a else b) := by
  split
  · exact ha
  · exact hb

theorem orOverrun_mapNext {g : State.Of HS cb → State.Of HS cb} {r r' : Option (State.Of HS cb)}
    {f f' : State.Of HS cb → Host.Outcome (State.Of HS cb) Fault Refusal} (hr : r' = r.map g)
    (hf : ∀ t, f' (g t) = mapNext g (f t)) : orOverrun r' f' = mapNext g (orOverrun r f) := by
  subst hr
  cases r with
  | none => rfl
  | some t => exact hf t

variable (p : Params HS cb) (c : BitVec 4) (s : State.Of HS cb)

theorem writeC_withCfg (base : Nat) (bs : Bytes) :
    writeC p base bs (withCfg c s) = (writeC p base bs s).map (withCfg c) := by
  unfold writeC; split <;> rfl

theorem writeRaw_withCfg (base : Nat) (bs : Bytes) :
    writeRaw base bs (withCfg c s) = (writeRaw base bs s).map (withCfg c) := by
  unfold writeRaw; split <;> rfl

/-! ## The arms of the records -/

theorem frameRecord_withCfg (id : BitVec 4) :
    frameRecord p id (withCfg c s) = mapNext (withCfg c) (frameRecord p id s) :=
  ite_mapNext rfl rfl

theorem dispatchData_withCfg (tag : BitVec 2) (field : BitVec 22) (bound : Nat) (site : ErrSite) (arm : Fsm) :
    dispatchData tag field bound site arm (withCfg c s) = withCfg c (dispatchData tag field bound site arm s) := by
  unfold dispatchData; split <;> rfl

theorem readBody_withCfg : readBody p (withCfg c s) = mapNext (withCfg c) (readBody p s) :=
  ite_mapNext rfl (orOverrun_mapNext (writeC_withCfg p c (srcRead s.len.toNat s).2 0 _) fun _ => rfl)

theorem synth_withCfg : synth (withCfg c s) = mapNext (withCfg c) (synth s) :=
  ite_mapNext rfl (orOverrun_mapNext
    (writeRaw_withCfg c { (srcRead 1 s).2 with rleByte := byteAt (srcRead 1 s).1 0 } 0 _) fun _ => rfl)

theorem takeDecoded_withCfg (a : DRes) :
    takeDecoded a (withCfg c s) = mapNext (withCfg c) (takeDecoded a s) := by
  cases a with
  | err e => rfl
  | len q => exact ite_mapNext rfl (orOverrun_mapNext (writeRaw_withCfg c _ _ _) fun _ => rfl)

theorem entropy_withCfg : entropy p (withCfg c s) = mapNext (withCfg c) (entropy p s) :=
  ite_mapNext rfl (orOverrun_mapNext (writeC_withCfg p c (srcRead s.len.toNat s).2 0 _) fun t =>
    takeDecoded_withCfg c t _)

theorem emitPayload_withCfg (site : ErrSite) :
    emitPayload p site (withCfg c s) = mapNext (withCfg c) (emitPayload p site s) := by
  have hp : payload p (withCfg c s) = payload p s := rfl
  unfold emitPayload
  rw [hp]
  cases payload p s with
  | none => rfl
  | some pay => exact ite_mapNext rfl rfl

theorem verify_withCfg : verify p (withCfg c s) = withCfg c (verify p s) := by
  have hk : checksum p (withCfg c s) = checksum p s := rfl
  have hs : (withCfg c s).ckStored = s.ckStored := rfl
  unfold verify
  rw [hk, hs]
  split <;> rfl

/-! ## Every instruction, and every arm of the decoder -/

/-- No instruction looks at CFG; a command starts or ends a frame the same whatever it holds. -/
theorem execWith_withCfg (i : Instr) :
    execWith p i (withCfg c s) = mapNext (withCfg c) (execWith p i s) := by
  have hf : (withCfg c s).fsm = s.fsm := rfl
  have hph : (withCfg c s).phase = s.phase := rfl
  cases i with
  | frame bsid => exact frameRecord_withCfg p c s bsid
  | comp len =>
    simp only [execWith, compRecord, hf]
    split
    · exact entropy_withCfg p c s
    · exact emitPayload_withCfg p c s _
    · exact congrArg _ (dispatchData_withCfg c s _ _ _ _ _)
  | raw len =>
    simp only [execWith, rawRecord, hf]
    split
    · exact readBody_withCfg p c s
    · exact emitPayload_withCfg p c s _
    · exact congrArg _ (dispatchData_withCfg c s _ _ _ _ _)
  | rle len =>
    simp only [execWith, rleRecord, hf]
    split
    · exact synth_withCfg c s
    · exact emitPayload_withCfg p c s _
    · exact congrArg _ (dispatchData_withCfg c s _ _ _ _ _)
  | crc ck =>
    simp only [execWith, crcRecord, hf]
    split
    · exact congrArg _ (verify_withCfg p c s)
    · rfl
    · rfl
  | nop => rfl
  | encode => simp only [execWith, encodeCommand, hph]; split <;> rfl
  | decode => simp only [execWith, decodeCommand, hph]; split <;> rfl
  | clear => simp only [execWith, clearCommand, hph]; split <;> rfl

theorem armDFrameHdr_withCfg : armDFrameHdr (execWith p) (withCfg c s) =
    mapNext (withCfg c) (armDFrameHdr (execWith p) s) := by
  have hr : (srcRead 5 (withCfg c s)).1 = (srcRead 5 s).1 := rfl
  unfold armDFrameHdr
  rw [hr]
  cases decodeFH (srcRead 5 s).1 with
  | error e => cases e <;> rfl
  | ok r => exact execWith_withCfg p c (srcRead 5 s).2 r.1

theorem armDAwaitHdr_withCfg : armDAwaitHdr (withCfg c s) = mapNext (withCfg c) (armDAwaitHdr s) :=
  ite_mapNext rfl rfl

theorem codecStep_withCfg (h : s.fsm.isDec = true) :
    codecStep p (execWith p) (withCfg c s) = mapNext (withCfg c) (codecStep p (execWith p) s) := by
  by_cases hb : s.phase = .busy
  · rw [codecStep_busy p _ hb, codecStep_busy p _ (show (withCfg c s).phase = .busy from hb),
      show (withCfg c s).fsm = s.fsm from rfl]
    cases hf : s.fsm <;> rw [hf] at h <;> dsimp only
    case dFrameHdr => exact armDFrameHdr_withCfg p c s
    case dAwaitHdr => exact armDAwaitHdr_withCfg c s
    case dDispatch | dReadBody | dSynth | dEntropy | dEmit | dVerify => exact execWith_withCfg p c s _
    all_goals cases h
  · rw [codecStep_idle p _ hb]
    exact codecStep_idle p _ hb

/-- Settles O52: the decoder's arms run the same with any CFG, and no arm of either unit writes it. -/
theorem decoderIgnoresConfig : Obligations.DecoderIgnoresConfig := fun _ _ p s c =>
  ⟨fun h => (codecStep_withCfg p c s h).trans (by cases codecStep p (execWith p) s <;> rfl),
    fun _ h => (codecStep_turn h).hostSide.cfg⟩

end Sys2Proof.Machine
end

section
/-! PROOFS. Where the model stops, each stop under the condition that its arm's case lemma gives it. -/

namespace Sys2Proof.Machine

variable {HS : Type} {cb : Nat} {p : Params HS cb} {s : State.Of HS cb}

/-! ## The slices of the decoder (R185 to R188) -/

theorem readBody_overrun (hl : s.len.toNat ≤ s.srcRest.length) (hc : cBufSize p < s.len.toNat) :
    readBody p s = .fault .bufferOverrun := by
  rcases readBody_cases p s with ⟨h, _⟩ | ⟨_, _, e⟩ | ⟨_, h, _⟩
  · omega
  · exact e
  · omega

theorem synth_overrun (hs : s.srcRest ≠ []) (hr : 2097152 < s.len.toNat) : synth s = .fault .bufferOverrun := by
  rcases synth_cases s with ⟨h, _⟩ | ⟨_, _, _, _, e⟩ | ⟨_, _, _, h, _⟩
  · exact absurd h hs
  · exact e
  · exact absurd hr (Nat.not_lt.mpr h)

theorem entropy_overrun (hl : s.len.toNat ≤ s.srcRest.length) (hc : cBufSize p < s.len.toNat) :
    entropy p s = .fault .bufferOverrun := by
  rcases entropy_cases p s with ⟨h, _⟩ | ⟨_, _, e⟩ | ⟨_, h, _⟩
  · omega
  · exact e
  · omega

theorem takeDecoded_overrun {q : Bytes} (hb : q.length ≤ s.blkSize.toNat) (hr : 2097152 < q.length) :
    takeDecoded (.len q) s = .fault .bufferOverrun := by
  rcases takeDecoded_cases (.len q) s with ⟨_, ha, _⟩ | ⟨_, ha, h, _⟩ | ⟨_, _, _, _, e⟩ | ⟨_, ha, _, h, _⟩
  · cases ha
  · cases ha; omega
  · exact e
  · cases ha; exact absurd hr (Nat.not_lt.mpr h)

theorem entropy_answer_overrun {q : Bytes} (hl : s.len.toNat ≤ s.srcRest.length) (hc : s.len.toNat ≤ cBufSize p)
    (ha : p.entDecompress s.blkSize.toNat (s.srcRest.take s.len.toNat) = .len q) (hb : q.length ≤ s.blkSize.toNat)
    (hr : 2097152 < q.length) : entropy p s = .fault .bufferOverrun := by
  rcases entropy_cases p s with ⟨h, _⟩ | ⟨_, h, _⟩ | ⟨_, _, e⟩
  · omega
  · exact absurd h (Nat.not_lt.mpr hc)
  · rw [e, ha]; exact takeDecoded_overrun hb hr

theorem payload_overrun (h : s.paySel = .c ∧ cBufSize p < s.rSize.toNat ∨ s.paySel = .r ∧ 2097152 < s.rSize.toNat) :
    payload p s = none := by
  rcases payload_cases p s with ⟨_, _, e⟩ | ⟨_, _, e⟩ | ⟨hs, hle, _⟩ | ⟨hs, hle, _⟩
  · exact e
  · exact e
  · rcases h with ⟨_, h⟩ | ⟨h, _⟩
    · omega
    · cases hs.symm.trans h
  · rcases h with ⟨h, _⟩ | ⟨_, h⟩
    · cases hs.symm.trans h
    · exact absurd h (Nat.not_lt.mpr hle)

/-! ## The encoder's arms (R161 to R167) -/

theorem armEHeader_refused (h : 11 < s.cfgBsid.toNat) : armEHeader p s = .refused .packDescAbove11 := if_pos h

theorem armERead_overrun (h : 2097152 < min s.blkSize.toNat s.srcRest.length) :
    armERead s = .fault .bufferOverrun := by
  rcases armERead_cases s with ⟨_, e⟩ | ⟨hle, _⟩
  · exact e
  · exact absurd h (Nat.not_lt.mpr hle)

theorem armECompress_refused (h : s.inSize = 0#22) : armECompress p s = .refused .entCompressEmpty := if_pos h

theorem armECompress_overrun (h : 2097152 < s.inSize.toNat) : armECompress p s = .fault .bufferOverrun := by
  rcases armECompress_cases p s with ⟨h0, _⟩ | ⟨_, _, e⟩ | ⟨_, hle, _⟩
  · rw [h0] at h; cases h
  · exact e
  · exact absurd h (Nat.not_lt.mpr hle)

theorem emitBody_overrun
    (h : s.typeTag = 1#2 ∧ 2097152 < s.inSize.toNat ∨ s.typeTag = 0#2 ∧ cBufSize p < 3 + s.cSize.toNat) :
    emitBody p s = some none := by
  rcases h with ⟨ht, hr⟩ | ⟨ht, hc⟩
  · have e : emitBody p s = some (readRaw 0 s.inSize.toNat s) := if_pos ht
    rw [e, readRaw_over (by unfold rawBufSize MAX_BLKSIZE; omega)]
  · have e : emitBody p s = some (readC p 3 s.cSize.toNat s) := by simp [emitBody, ht]
    rw [e, readC_over hc]

theorem emitBody_crc (h : s.typeTag = 3#2) : emitBody p s = none := by simp [emitBody, h]

/-- Settles O53: a clause per stop. -/
theorem stopsByName : Obligations.StopsByName := by
  refine ⟨?_, ?_, ?_, ?_, ?_, ?_, ?_, ?_⟩
  · intro HS cb p n s hf hl hc
    exact (execWith_raw_dReadBody p n hf).trans (readBody_overrun hl hc)
  · intro HS cb p n s hf hs hr
    exact (execWith_rle_dSynth p n hf).trans (synth_overrun hs hr)
  · intro HS cb p n s hf hl hc
    exact (execWith_comp_dEntropy p n hf).trans (entropy_overrun hl hc)
  · intro HS cb p n s q hf hl hc ha hb hr
    exact (execWith_comp_dEntropy p n hf).trans (entropy_answer_overrun hl hc ha hb hr)
  · intro HS cb p n s hf h
    have hp := payload_overrun h
    exact ⟨(execWith_raw_dEmit p n hf).trans (emitPayload_none hp _),
      (execWith_rle_dEmit p n hf).trans (emitPayload_none hp _),
      (execWith_comp_dEmit p n hf).trans (emitPayload_none hp _)⟩
  · intro HS cb p ck s hf
    exact execWith_crc_dEmit p ck hf
  · intro HS cb p s hb
    rw [codecStep_busy p _ hb]
    refine ⟨?_, ?_, ?_, ?_, ?_, ?_⟩ <;> intro hf h <;> rw [hf]
    · exact armEHeader_refused h
    · exact armERead_overrun h
    · exact armECompress_refused h
    · exact armECompress_overrun h
    · exact armEEmit_overrun p (emitBody_overrun h)
    · exact armEEmit_noBody p (emitBody_crc h)
  · intro s src snk q hb hq
    exact step_of_not_hostReady (by simp [hostReady, hq, hb])

end Sys2Proof.Machine
end

section
/-! PROOFS. The ports' own rules (R61, R63), and the quiescence of the block outside a frame (R66). -/

namespace Sys2Proof.Machine

variable {HS : Type} {cb : Nat} (p : Params HS cb)

/-! ## The ports -/

/-- R61: a request of no bytes reads nothing. -/
theorem srcRead_zero (s : State.Of HS cb) : srcRead 0 s = ([], s) := by
  rw [srcRead_full (Nat.zero_le _), List.take_zero, List.drop_zero, BitVec.add_zero]

/-- R63: a request of no bytes asks nothing of the sink. -/
theorem snkWrite_nil (s : State.Of HS cb) : snkWrite p [] s = (0, s) := by
  have hk : snkAccepts p [] s = 0 := Nat.le_zero.mp (snkAccepts_le p [] s)
  simp [snkWrite, hk]

/-- Settles O14: a read takes what it asks for, or what is left. -/
theorem sourceReadConsumes : Obligations.SourceReadConsumes := by
  intro HS cb n s
  rcases le_or_gt n s.srcRest.length with h | h
  · rw [Nat.min_eq_left h, srcRead_full h]
    exact ⟨rfl, rfl, srcRead_zero s⟩
  · rw [Nat.min_eq_right h.le, srcRead_short h, List.take_length, List.drop_length]
    exact ⟨rfl, rfl, srcRead_zero s⟩

/-- Settles O15: the count is `snkAccepts`, which no sink makes longer than the request. -/
theorem sinkWriteAppendsPrefix : Obligations.SinkWriteAppendsPrefix := fun _ _ p bs s =>
  ⟨snkAccepts p bs s, snkAccepts_le p bs s, snkWrite_fst p bs s, rfl, snkWrite_nil p s⟩

/-! ## Outside a frame -/

/-- SRC, SNK and the request index are the same in both states. -/
structure StreamsKept (s t : State.Of HS cb) : Prop where
  src : t.srcRest = s.srcRest
  snk : t.snkData = s.snkData
  reqs : t.snkReqs = s.snkReqs

/-- No write of a register touches a stream, in any phase: not even the command that starts a frame (R214, R215). -/
theorem csrWrite_streamsKept {n v : Word32} {s t : State.Of HS cb} (h : csrWrite (execWith p) n v s = .next t) :
    StreamsKept s t := by
  obtain ⟨t', e, ht⟩ := csrWrite_cases p n v s
  cases e.symm.trans h
  rcases ht with rfl | ⟨_, _, _, rfl⟩ | ⟨_, rfl | rfl⟩ | ⟨_, rfl⟩ <;> exact ⟨rfl, rfl, rfl⟩

/-- `codecStep_idle` read from a given next state. -/
theorem codecStep_idle_eq {ex : Exec HS cb} {s t : State.Of HS cb} (hb : s.phase ≠ .busy)
    (h : codecStep p ex s = .next t) : t = s := by
  rw [codecStep_idle p ex hb] at h
  cases h
  rfl

/-- Each operation of the HOST but the connect of new streams, outside a frame (R66). -/
theorem step_streamsKept {s t : State} (hb : s.phase ≠ .busy) (hc : ∀ src snk q, s.hostIn ≠ .connect src snk :: q)
    (h : step s = .next t) : StreamsKept s t := by
  rw [step_eq_stepAt_params] at h
  unfold stepAt stepWith at h
  split at h
  case h_1 => cases codecStep_idle_eq _ hb h; exact ⟨rfl, rfl, rfl⟩
  case h_2 q _ =>
    cases codecStep_idle_eq (s := { s with hostIn := q }) _ hb h
    exact ⟨rfl, rfl, rfl⟩
  case h_3 => cases h; exact ⟨rfl, rfl, rfl⟩
  case h_4 q _ =>
    obtain ⟨hs, hd, hr⟩ := csrWrite_streamsKept _ h
    exact ⟨hs, hd, hr⟩
  case h_5 => cases h; exact ⟨rfl, rfl, rfl⟩
  case h_6 src snk q hin => exact absurd hin (hc src snk q)

/-- Settles O49: by cases on the HOST's next operation, with the CODEC idle outside BUSY. -/
theorem quiescentOutsideFrames : Obligations.QuiescentOutsideFrames := by
  intro s t hb hc h
  obtain ⟨hs, hd, hr⟩ := step_streamsKept hb hc h
  refine ⟨hs, hd, hr, fun hn => ?_⟩
  unfold step stepWith at h
  rw [hn] at h
  exact codecStep_idle_eq _ hb h

end Sys2Proof.Machine
end

section
/-! PROOFS. The bit-packer and the formats: PACK_HDR and UNPACK_HDR as arithmetic, each the other's inverse (R124 to
R126), and for each record format exactly what the decoder accepts. -/

namespace Sys2Proof

/-! ## The header's bytes as numbers (R124, R125) -/

theorem packHdr_b0_toNat (t : BitVec 2) (f : BitVec 22) : (packHdr t f).b0.toNat = t.toNat * 64 + f.toNat / 65536 := by
  have hf : f.toNat / 65536 < 2 ^ 6 := by omega
  simp only [packHdr, BitVec.toNat_append, BitVec.extractLsb'_toNat, Nat.shiftRight_eq_div_pow]
  rw [Nat.mod_eq_of_lt hf, ← Nat.shiftLeft_add_eq_or_of_lt hf, Nat.shiftLeft_eq]

theorem packHdr_b1_toNat (t : BitVec 2) (f : BitVec 22) : (packHdr t f).b1.toNat = f.toNat / 256 % 256 := by
  simp only [packHdr, BitVec.extractLsb'_toNat, Nat.shiftRight_eq_div_pow]

theorem packHdr_b2_toNat (t : BitVec 2) (f : BitVec 22) : (packHdr t f).b2.toNat = f.toNat % 256 := by
  simp only [packHdr, BitVec.extractLsb'_toNat, Nat.shiftRight_zero]

theorem unpackHdr_fst_toNat (h : HdrBytes) : (unpackHdr h).1.toNat = h.b0.toNat / 64 := by
  have := h.b0.isLt
  simp only [unpackHdr, BitVec.extractLsb'_toNat, Nat.shiftRight_eq_div_pow]
  omega

theorem unpackHdr_snd_toNat (h : HdrBytes) :
    (unpackHdr h).2.toNat = h.b0.toNat % 64 * 65536 + h.b1.toNat * 256 + h.b2.toNat := by
  simp only [unpackHdr, BitVec.toNat_append, BitVec.extractLsb'_toNat, Nat.shiftRight_zero]
  rw [← Nat.shiftLeft_add_eq_or_of_lt h.b1.isLt, ← Nat.shiftLeft_add_eq_or_of_lt h.b2.isLt]
  simp only [Nat.shiftLeft_eq]
  omega

/-- L1 of R126. -/
@[simp] theorem unpackHdr_packHdr (t : BitVec 2) (f : BitVec 22) : unpackHdr (packHdr t f) = (t, f) := by
  have hf := f.isLt
  have e1 : (unpackHdr (packHdr t f)).1.toNat = t.toNat := by
    rw [unpackHdr_fst_toNat, packHdr_b0_toNat]
    omega
  have e2 : (unpackHdr (packHdr t f)).2.toNat = f.toNat := by
    rw [unpackHdr_snd_toNat, packHdr_b0_toNat, packHdr_b1_toNat, packHdr_b2_toNat]
    omega
  exact Prod.ext (BitVec.eq_of_toNat_eq e1) (BitVec.eq_of_toNat_eq e2)

/-- L2 of R126. -/
@[simp] theorem packHdr_unpackHdr (h : HdrBytes) : packHdr (unpackHdr h).1 (unpackHdr h).2 = h := by
  have h1 := h.b1.isLt
  have h2 := h.b2.isLt
  have e0 : (packHdr (unpackHdr h).1 (unpackHdr h).2).b0 = h.b0 := by
    apply BitVec.eq_of_toNat_eq
    rw [packHdr_b0_toNat, unpackHdr_fst_toNat, unpackHdr_snd_toNat]
    omega
  have e1 : (packHdr (unpackHdr h).1 (unpackHdr h).2).b1 = h.b1 := by
    apply BitVec.eq_of_toNat_eq
    rw [packHdr_b1_toNat, unpackHdr_snd_toNat]
    omega
  have e2 : (packHdr (unpackHdr h).1 (unpackHdr h).2).b2 = h.b2 := by
    apply BitVec.eq_of_toNat_eq
    rw [packHdr_b2_toNat, unpackHdr_snd_toNat]
    omega
  exact (HdrBytes.mk.injEq ..).mpr ⟨e0, e1, e2⟩

/-! ## Block headers (R94, R97) -/

theorem encode_recordOf (t : BitVec 2) (f : BitVec 22) : encode (recordOf t f) = .bh (packHdr t f).toBytes := by
  rcases Machine.recordOf_cases t f with ⟨rfl, e⟩ | ⟨rfl, e⟩ | ⟨rfl, e⟩ | ⟨rfl, e⟩ <;> rw [e] <;> rfl

theorem wellFormed_recordOf (t : BitVec 2) (f : BitVec 22) : (recordOf t f).wellFormed = true := by
  rcases Machine.recordOf_cases t f with ⟨_, e⟩ | ⟨_, e⟩ | ⟨_, e⟩ | ⟨_, e⟩ <;> rw [e] <;> rfl

theorem decodeHdr_packHdr (t : BitVec 2) (f : BitVec 22) : decodeHdr (packHdr t f) = recordOf t f := by
  unfold decodeHdr
  rw [unpackHdr_packHdr]

theorem decodeBH_toBytes_append (h : HdrBytes) (r : Bytes) : decodeBH (h.toBytes ++ r) = .ok (decodeHdr h, r) := by
  have hl : ¬ (h.toBytes ++ r).length < 3 := by rw [List.length_append, toBytes_length]; omega
  unfold decodeBH
  rw [if_neg hl, hdrOfBytes_toBytes]
  rfl

/-- Three bytes or more are a header and the bytes behind it. -/
theorem toBytes_hdrOfBytes_append_drop {b : Bytes} (h : 3 ≤ b.length) : (hdrOfBytes b).toBytes ++ b.drop 3 = b := by
  match b, h with
  | _ :: _ :: _ :: _, _ => rfl

/-- What the decoder accepts where a block header is due (R94, R101). -/
theorem decodeBH_ok (b : Bytes) (i : Instr) (r : Bytes) :
    decodeBH b = .ok (i, r) ↔ ∃ t f, i = recordOf t f ∧ b = (packHdr t f).toBytes ++ r := by
  constructor
  · intro h
    unfold decodeBH at h
    split at h
    · cases h
    · rename_i hl
      cases h
      refine ⟨_, _, rfl, ?_⟩
      rw [packHdr_unpackHdr, toBytes_hdrOfBytes_append_drop (Nat.le_of_not_lt hl)]
  · rintro ⟨t, f, rfl, rfl⟩
    rw [decodeBH_toBytes_append, decodeHdr_packHdr]

/-! ## Which instructions have a code of which format -/

theorem encode_eq_fh {i : Instr} {b : Bytes} : encode i = .fh b ↔ ∃ id, i = .frame id ∧ b = packFrameHdr id := by
  cases i <;> simp [encode, eq_comm]

theorem encode_eq_bh {i : Instr} {b : Bytes} :
    encode i = .bh b ↔ ∃ t f, i = recordOf t f ∧ b = (packHdr t f).toBytes := by
  constructor
  · intro h
    cases i with
    | comp len => cases h; exact ⟨0#2, len, rfl, rfl⟩
    | raw len => cases h; exact ⟨1#2, len, rfl, rfl⟩
    | rle len => cases h; exact ⟨2#2, len, rfl, rfl⟩
    | crc ck => cases h; exact ⟨3#2, ck, rfl, rfl⟩
    | frame | nop | encode | decode | clear => cases h
  · rintro ⟨t, f, rfl, rfl⟩
    exact encode_recordOf t f

theorem decode_fh_append {i : Instr} {b : Bytes} (hw : i.wellFormed = true) (h : encode i = .fh b) (rest : Bytes) :
    decode (.fh (b ++ rest)) = .ok (i, rest) := by
  obtain ⟨id, rfl, rfl⟩ := encode_eq_fh.mp h
  exact (decodeFH_ok _ _ _).mpr ⟨id, of_decide_eq_true hw, rfl, rfl⟩

theorem decode_bh_append {i : Instr} {b : Bytes} (h : encode i = .bh b) (rest : Bytes) :
    decode (.bh (b ++ rest)) = .ok (i, rest) := by
  obtain ⟨t, f, rfl, rfl⟩ := encode_eq_bh.mp h
  exact (decodeBH_ok _ _ _).mpr ⟨t, f, rfl, rfl⟩

theorem decode_cmd_of_encode {i : Instr} {v : Word32} (h : encode i = .cmd v) : decode (.cmd v) = .ok (i, []) := by
  cases i <;> cases h <;> rfl

/-- Settles O1: by the format of the code; a record alone is a record with no bytes behind it. -/
theorem decodeInvertsEncode : Obligations.DecodeInvertsEncode := by
  intro i hw
  refine ⟨?_, fun b rest => ⟨fun h => decode_fh_append hw h rest, fun h => decode_bh_append h rest⟩⟩
  cases h : encode i with
  | fh b => simpa using decode_fh_append hw h []
  | bh b => simpa using decode_bh_append h []
  | cmd v => exact decode_cmd_of_encode h

/-- Settles O2: what `decodeFH_ok` and `decodeBH_ok` say of an accepted input. -/
theorem encodeInvertsDecode : Obligations.EncodeInvertsDecode := by
  constructor <;> intro b i rest h
  · obtain ⟨id, hid, rfl, hb⟩ := (decodeFH_ok b i rest).mp h
    exact ⟨decide_eq_true hid, packFrameHdr id, rfl, packFrameHdr_length id, hb⟩
  · obtain ⟨t, f, rfl, hb⟩ := (decodeBH_ok b i rest).mp h
    exact ⟨wellFormed_recordOf t f, (packHdr t f).toBytes, encode_recordOf t f, toBytes_length _, hb⟩

/-! ## Commands (R103) -/

/-- The two low bits of a value, as a number. -/
theorem low_bits_eq_iff (v : Word32) (k : BitVec 2) : v.extractLsb' 0 2 = k ↔ v.toNat % 4 = k.toNat := by
  rw [← BitVec.toNat_inj, BitVec.extractLsb'_toNat, Nat.shiftRight_zero]

/-- Settles O6: each test of the two low bits is a test of the value modulo 4. -/
theorem commandHighBitsIgnored : Obligations.CommandHighBitsIgnored := by
  intro v
  simp only [decodeCmd, low_bits_eq_iff]
  rfl

/-- Settles O7: each word decodes by evaluation. -/
theorem knownWordsDecode : Obligations.KnownWordsDecode := by unfold Obligations.KnownWordsDecode; decide

end Sys2Proof
end

section
/-! PROOFS. The reference decoder on data blocks: a header reads back whole or does not exist (R95), and a valid frame
decodes to the payload it stands for (R100, R191). -/

namespace Sys2Proof.Machine

variable {HS : Type} {cb : Nat} {p : Params HS cb}

/-! ## Records (R95) -/

/-- A record that exists reads back its type, its whole length and its body. -/
theorem record_reads_back {tag : BitVec 2} {n : Nat} {body b : Bytes} (h : record tag n body = some b) :
    (unpackHdr (hdrOfBytes b)).1 = tag ∧ (unpackHdr (hdrOfBytes b)).2.toNat = n ∧ b.drop 3 = body := by
  obtain ⟨hn, rfl⟩ := record_eq_some.mp h
  rw [hdrOfBytes_toBytes, unpackHdr_packHdr]
  exact ⟨rfl, (BitVec.toNat_ofNat _ _).trans (Nat.mod_eq_of_lt hn), rfl⟩

/-- The reference encoder gives no raw or rle block of 2^22 bytes or more (U23). -/
theorem encodeBlock_over {q : Bytes} (h : FIELD_LIMIT ≤ q.length)
    (ha : p.entCompress q = .code0 ∨ p.entCompress q = .code1) : encodeBlock p q = none := by
  unfold encodeBlock
  rcases ha with e | e <;> rw [e] <;> exact record_over _ _ h

/-- Settles O4: the bytes of the header as numbers, with the shifts and masks of the pseudocode read as division and
remainder; then the records that exist and those that do not. -/
theorem headerBytesArithmetic : Obligations.HeaderBytesArithmetic := by
  have mask8 (n : Nat) : n &&& 0xFF = n % 256 := Nat.and_two_pow_sub_one_eq_mod n 8
  have mask6 (n : Nat) : n &&& 0x3F = n % 64 := Nat.and_two_pow_sub_one_eq_mod n 6
  refine ⟨fun t f => ?_, fun h => ?_, fun _ _ _ _ h => record_reads_back h, fun tag _ body h => record_over tag body h,
    fun _ _ _ _ h ha => encodeBlock_over h ha, fun _ h => ⟨record_over _ _ h, record_over _ _ h⟩⟩
  · rw [mask8, mask8, Nat.shiftRight_eq_div_pow, Nat.shiftRight_eq_div_pow]
    exact ⟨packHdr_b0_toNat t f, packHdr_b1_toNat t f, packHdr_b2_toNat t f⟩
  · rw [mask6, Nat.shiftRight_eq_div_pow]
    exact ⟨unpackHdr_fst_toNat h, unpackHdr_snd_toNat h⟩

/-! ## The loop of R191 -/

/-- A valid block adds its payload and is consumed whole. -/
theorem decodeBlocks_validBlock {size : Nat} {b q : Bytes} (h : ValidBlock p size b q) (n : Nat) (rest : Bytes)
    (pos : Nat) (out : Bytes) :
    decodeBlocks p size (n + 1) (b ++ rest) pos out = decodeBlocks p size n rest (pos + b.length) (out ++ q) := by
  obtain ⟨tag, field, body, rfl, htag, hlen, hfield, hpay⟩ := h.shape
  have hdrop : (((packHdr tag field).toBytes ++ body) ++ rest).drop 3 = body ++ rest := rfl
  have hshort : ¬ (((packHdr tag field).toBytes ++ body) ++ rest).length < 3 := by simp
  rw [decodeBlocks, if_neg hshort, hdrop, List.append_assoc, hdrOfBytes_toBytes, unpackHdr_packHdr]
  simp only [← hlen, htag, if_false, Nat.not_lt.mpr hfield, List.length_append, Nat.not_lt.mpr (Nat.le_add_right _ _),
    List.take_left, List.drop_left, hpay, toBytes_length, Nat.add_assoc]

/-- A trailer ends the loop, with the checksum of the payload so far. -/
theorem decodeBlocks_trailer (size n : Nat) (rest : Bytes) (pos : Nat) (out : Bytes) :
    decodeBlocks p size (n + 1) (packTrailer (ck22 (p.hash.hash out)) ++ rest) pos out = .ok out (pos + 3) := by
  rw [decodeBlocks, packTrailer, hdrOfBytes_toBytes, unpackHdr_packHdr]
  simp

/-- Valid blocks and the trailer of their payloads, behind any blocks already decoded to `out`. Each block has a
byte, so as many rounds as there are bytes are enough. -/
theorem decodeBlocks_validBlocks {size : Nat} {bs pays : Bytes} (h : ValidBlocks p size bs pays) (rest : Bytes) :
    ∀ (n pos : Nat) (out : Bytes), bs.length < n →
      decodeBlocks p size n (bs ++ (packTrailer (ck22 (p.hash.hash (out ++ pays))) ++ rest)) pos out =
        .ok (out ++ pays) (pos + bs.length + 3) := by
  induction h with
  | nil =>
    intro n pos out hn
    obtain ⟨n, rfl⟩ := Nat.exists_eq_add_one_of_ne_zero (Nat.ne_of_gt hn)
    rw [List.append_nil]
    exact decodeBlocks_trailer size n rest pos out
  | cons b pay bs pays hb _ ih =>
    intro n pos out hn
    have hpos : 0 < b.length := by
      obtain ⟨tag, field, body, rfl, -⟩ := hb.shape
      simp
    rw [List.length_append] at hn ⊢
    obtain ⟨n, rfl⟩ : ∃ m, n = m + 1 := ⟨n - 1, by omega⟩
    rw [List.append_assoc, decodeBlocks_validBlock hb, ← List.append_assoc out, ih _ _ _ (by omega), Nat.add_assoc pos]

/-- Settles O58: the header decodes by `decodeFH_ok`, and the rounds R191 allows are more than the blocks have bytes. -/
theorem validFrameDecodes : Obligations.ValidFrameDecodes := by
  intro HS cb p id fr pay rest ⟨hid, bs, hbs, hfr⟩
  have hhdr : decodeFH (fr ++ rest) =
      .ok (.frame id, bs ++ (packTrailer (ck22 (p.hash.hash pay)) ++ rest)) := by
    refine (decodeFH_ok _ _ _).mpr ⟨id, hid, rfl, ?_⟩
    rw [hfr]
    simp only [List.append_assoc]
  have hlen : fr.length = 5 + bs.length + 3 := by
    rw [hfr, List.length_append, List.length_append, packFrameHdr_length]
    rfl
  unfold decodeFrame
  rw [hhdr, hlen]
  exact decodeBlocks_validBlocks hbs rest _ 5 [] (by rw [List.length_append]; omega)

end Sys2Proof.Machine
end

section
/-! PROOFS. A step runs what the decoder reads where the machine fetches: a write of CMD, HDR, the head of SRC. -/

namespace Sys2Proof.Machine

variable {HS : Type} {cb : Nat} (p : Params HS cb) (ex : Exec HS cb) {s : State.Of HS cb}

/-- A write of register 1 runs the command the value decodes to (R22, R103). -/
theorem stepWith_writeCmd {v : Word32} {q : List HostOp} (h : s.hostIn = .csrWrite 1#32 v :: q) :
    stepWith p ex s = ex (decodeCmd v) { s with hostIn := q } := by
  unfold stepWith
  rw [h]
  rfl

theorem codecStep_dDispatch (hb : s.phase = .busy) (hf : s.fsm = .dDispatch) :
    codecStep p ex s = ex (decodeHdr s.hdr) s := by
  rw [codecStep_busy p ex hb, hf]

theorem codecStep_dFrameHdr (hb : s.phase = .busy) (hf : s.fsm = .dFrameHdr) :
    codecStep p ex s = armDFrameHdr ex s := by
  rw [codecStep_busy p ex hb, hf]

/-- D_FRAMEHDR on a frame header (R181): five bytes are read, and they are the header. -/
theorem armDFrameHdr_of_decodeFH {i : Instr} {r : Bytes} (h : decodeFH s.srcRest = .ok (i, r)) :
    armDFrameHdr ex s = ex i { s with srcRest := r, inCount := s.inCount + 5#cb } := by
  obtain ⟨id, hid, rfl, hsrc⟩ := (decodeFH_ok _ _ _).mp h
  have hl := packFrameHdr_length id
  have htake : s.srcRest.take 5 = packFrameHdr id := by rw [hsrc, List.take_left' hl]
  have hdrop : s.srcRest.drop 5 = r := by rw [hsrc, List.drop_left' hl]
  have hhdr : decodeFH (packFrameHdr id) = .ok (.frame id, []) :=
    (decodeFH_ok _ _ _).mpr ⟨id, hid, rfl, (List.append_nil _).symm⟩
  unfold armDFrameHdr
  rw [srcRead_full (by rw [hsrc, List.length_append, hl]; omega), htake, hdrop, hhdr]

/-- Settles O43: the HOST's write, and the two arms at which the CODEC fetches a header. -/
theorem stepRunsDecodedInstruction : Obligations.StepRunsDecodedInstruction := by
  refine ⟨?_, ?_, ?_⟩
  · intro s v q i r hq hd
    cases hd
    exact stepWith_writeCmd _ _ hq
  · intro s i r hq hb hf hd
    cases (decodeBH_toBytes_append s.hdr []).symm.trans hd
    exact (stepWith_codec _ _ hq).trans (codecStep_dDispatch _ _ hb hf)
  · intro s i r hq hb hf hd
    calc step s = codecStep Config.params exec { s with hostIn := s.hostIn.tail } := stepWith_codec _ _ hq
      _ = armDFrameHdr exec { s with hostIn := s.hostIn.tail } := codecStep_dFrameHdr _ _ hb hf
      _ = _ := armDFrameHdr_of_decodeFH exec hd

end Sys2Proof.Machine
end

section
/-! PROOFS. The laws of the bit-packer (R126) and the verdict on each descriptor byte (R123). -/

namespace Sys2Proof

/-- L4 of R126: the packed magic is the four bytes that the test accepts. -/
theorem checkMagic_packMagic : checkMagic packMagic = true :=
  (checkMagic_iff _ _ _ _ []).mpr ⟨rfl, rfl, rfl, rfl⟩

/-- L5 of R126: the bytes of the header are the digits, to base 256, of the type followed by the field. -/
theorem packHdr_bigEndian (t : BitVec 2) (f : BitVec 22) :
    (packHdr t f).b0.toNat * 65536 + (packHdr t f).b1.toNat * 256 + (packHdr t f).b2.toNat =
      t.toNat * 4194304 + f.toNat := by
  rw [packHdr_b0_toNat, packHdr_b1_toNat, packHdr_b2_toNat]
  omega

/-- Settles O3: the five laws, each by its own lemma. -/
theorem packerLaws : Obligations.PackerLaws :=
  ⟨unpackHdr_packHdr, packHdr_unpackHdr, unpackDesc_packDesc, checkMagic_packMagic, packHdr_bigEndian⟩

/-! ## The descriptor's nibbles as numbers (R123) -/

/-- Bits 7..4 of a descriptor are zero exactly when it is below 16. -/
theorem reservedBits_eq_zero_iff (d : Byte) : d.extractLsb' 4 4 = 0#4 ↔ d.toNat / 16 = 0 := by
  have hd := d.isLt
  rw [← BitVec.toNat_inj, BitVec.extractLsb'_toNat, Nat.shiftRight_eq_div_pow, BitVec.toNat_zero]
  omega

/-- Bits 3..0 of a descriptor, as the truncation of its value. -/
theorem idBits_eq_ofNat (d : Byte) : d.extractLsb' 0 4 = BitVec.ofNat 4 d.toNat := by
  rw [← BitVec.toNat_inj, BitVec.extractLsb'_toNat, Nat.shiftRight_zero, BitVec.toNat_ofNat]

/-- Settles O5: the two tests, on the bits, are the tests of the two nibbles as numbers. -/
theorem descriptorVerdicts : Obligations.DescriptorVerdicts := by
  intro d
  simp only [unpackDesc, ne_eq, reservedBits_eq_zero_iff, idBits_eq_ofNat, BitVec.toNat_ofNat]
  rfl

end Sys2Proof
end

section
/-! PROOFS. The checksum accumulator: H_UPDATE below a stripe and on exactly one (R143), the chunking law with I6
(R144), what H_INIT leaves (R142), and the reduction to 22 bits (R146). -/

namespace Sys2Proof.Machine

variable {cb : Nat}

/-! ## H_UPDATE through its stripe loop (R143) -/

/-- The lanes after an update are those its stripe loop leaves. -/
theorem update_lanes (h : HashRegs cb) (s : Bytes) :
    LanesEq (xxhUpdate h s) (xxhStripes (memValid h ++ s).length h (memValid h ++ s)).1 :=
  ⟨rfl, rfl, rfl, rfl⟩

theorem update_total (h : HashRegs cb) (s : Bytes) : (xxhUpdate h s).total = h.total + BitVec.ofNat cb s.length := rfl

/-- Below sixteen bytes, pending and new together, the loop folds nothing. -/
theorem stripes_pending_short {h : HashRegs cb} {s : Bytes} (hl : h.memSize.toNat + s.length < 16) :
    xxhStripes (memValid h ++ s).length h (memValid h ++ s) = (h, memValid h ++ s) :=
  stripes_short _ _ _ (by rwa [List.length_append, memValid_length])

theorem update_short_lanes {h : HashRegs cb} {s : Bytes} (hl : h.memSize.toNat + s.length < 16) :
    LanesEq (xxhUpdate h s) h := by
  have hu := update_lanes h s
  rwa [stripes_pending_short hl] at hu

theorem update_short_valid {h : HashRegs cb} {s : Bytes} (hl : h.memSize.toNat + s.length < 16) :
    memValid (xxhUpdate h s) = memValid h ++ s := by
  rw [update_valid, stripes_pending_short hl]

/-- Accumulators that agree are equal once the stale bytes of `H.MEM` agree too. -/
theorem RegsEq.eq_of_mem {x y : HashRegs cb} (h : RegsEq x y) (hmem : x.mem = y.mem) : x = y := by
  obtain ⟨⟨h1, h2, h3, h4⟩, ht, hs, -⟩ := h
  cases x
  cases y
  simp_all only

/-- The stale bytes too are kept by an update of no bytes, so it changes no register at all. -/
theorem update_nil (h : HashRegs cb) : xxhUpdate h [] = h := (update_nil_eq h).eq_of_mem rfl

/-- Settles O10: the loop folds nothing below sixteen bytes, and an update of no bytes does not touch `H.MEM`. -/
theorem shortUpdateOnlyStages : Obligations.ShortUpdateOnlyStages := by
  refine ⟨fun _ h => update_nil h, fun _ h s hl => ?_⟩
  obtain ⟨h1, h2, h3, h4⟩ := update_short_lanes hl
  exact ⟨h1, h2, h3, h4, update_short_valid hl⟩

theorem memValid_eq_nil {h : HashRegs cb} (hm : h.memSize = 0#4) : memValid h = [] :=
  List.eq_nil_of_length_eq_zero (by rw [memValid_length, hm]; rfl)

/-- Sixteen bytes are one stripe, and the loop leaves none of them. -/
theorem stripes_sixteen (h : HashRegs cb) {s : Bytes} (hs : s.length = 16) :
    xxhStripes s.length h s = (xxhStripe h s, []) := by
  have hd : s.drop 16 = [] := List.drop_eq_nil_of_le (Nat.le_of_eq hs)
  rw [hs, stripes_step 15 h s (Nat.le_of_eq hs.symm), hd, stripes_short _ _ _ (by decide)]

/-- Sixteen bytes absorbed with nothing pending: the lanes of one stripe of them. -/
theorem update_sixteen_lanes {h : HashRegs cb} {s : Bytes} (hm : h.memSize = 0#4) (hs : s.length = 16) :
    LanesEq (xxhUpdate h s) (xxhStripe h s) := by
  have hu := update_lanes h s
  rwa [memValid_eq_nil hm, List.nil_append, stripes_sixteen h hs] at hu

/-- Settles O11: the four lanes of a stripe are the four rounds the statement writes out. -/
theorem stripeFoldsFourLanes : Obligations.StripeFoldsFourLanes := by
  intro cb h s hm hs
  obtain ⟨h1, h2, h3, h4⟩ := update_sixteen_lanes hm hs
  refine ⟨h1, h2, h3, h4, ?_, ?_⟩
  · rw [XXH32_update, update_total, hs]
  · apply BitVec.eq_of_toNat_eq
    rw [XXH32_update, update_memSize, hm, hs]
    rfl

/-! ## Chunking and I6 (R144) -/

/-- I6 is kept by H_UPDATE at every counter width of at least the four bits of `H.MEMSIZE`: 16 then divides the
counter's modulus, so a wrap of `H.TOTAL` does not show in its remainder. -/
theorem update_memSize_eq_total_mod (hcb : 4 ≤ cb) {h : HashRegs cb} (hi : h.memSize.toNat = h.total.toNat % 16)
    (s : Bytes) : (xxhUpdate h s).memSize.toNat = (xxhUpdate h s).total.toNat % 16 := by
  have hdvd : 16 ∣ 2 ^ cb := Nat.pow_dvd_pow 2 hcb
  rw [update_memSize, update_total, BitVec.toNat_add, BitVec.toNat_ofNat, Nat.add_mod_mod,
    Nat.mod_mod_of_dvd _ hdvd, hi, Nat.mod_add_mod]

/-- Settles O8: the two accumulators agree in all but stale bytes, and agreeing ones have one final value. -/
theorem chunkingLaw : Obligations.ChunkingLaw := by
  refine ⟨fun _ h a b => ?_, fun _ => rfl, fun h a hi => update_memSize_eq_total_mod (by decide) hi a⟩
  obtain ⟨⟨h1, h2, h3, h4⟩, ht, hm, hv⟩ := update_update h a b
  exact ⟨h1, h2, h3, h4, ht, hm, hv, final_congr (update_update h a b)⟩

/-! ## What H_INIT leaves in `H.MEM` (R142, R145) -/

/-- Settles O9: H_INIT leaves agreeing accumulators, H_UPDATE keeps them so, and H_FINAL sees no difference. -/
theorem hashIgnoresFreeContents : Obligations.HashIgnoresFreeContents :=
  fun j k s => final_congr (update_congr (init_regsEq j k) s)

/-- The final value of a fresh accumulator, whatever is in `H.MEM`: it is that of one with zeros there. -/
theorem final_init (junk : Vector Byte 16) : xxhFinal (cb := Config.countBits) (xxhInit junk) = 0x02CC5D05#32 :=
  calc xxhFinal (cb := Config.countBits) (xxhInit junk)
    _ = xxhFinal (cb := Config.countBits) (xxhInit (Vector.replicate 16 0#8)) := final_congr (init_regsEq _ _)
    _ = 0x02CC5D05#32 := by decide

/-- Settles O12: the content of `H.MEM` is the free value that `freeCtr` counts. -/
theorem hashInitRegisters : Obligations.HashInitRegisters :=
  fun s => ⟨Config.freeHashMem s.freeCtr, rfl, final_init _⟩

/-! ## The reduction (R146) -/

/-- Settles O13: the 22 bits from bit 5 on are the remainder modulo 2^22, and so is the mask. -/
theorem checksumReduction : Obligations.ChecksumReduction := by
  intro x
  rw [ck22, BitVec.extractLsb'_toNat]
  exact (Nat.and_two_pow_sub_one_eq_mod _ 22).symm

end Sys2Proof.Machine
end

section
/-! PROOFS. The encoder's arms as the CODEC's turn (R161 to R168): what each answers, given that its slices are inside
their buffers. -/

namespace Sys2Proof.Machine

variable {HS : Type} {cb : Nat} (p : Params HS cb) {s : State.Of HS cb}

/-! ## Shared facts -/

/-- A write leaves the bytes outside its slice. -/
theorem Memory.read_write_outside (m : Memory) {base a : Nat} {bs : Bytes} (h : a < base ∨ base + bs.length ≤ a) :
    Memory.read (Memory.write m base bs) a = Memory.read m a := by
  rw [Memory.read_write, if_neg (by omega)]

/-- The frame header's bytes written out (R92, R127). -/
theorem packFrameHdr_bytes (id : BitVec 4) :
    packFrameHdr id = [0x08#8, 0x23#8, 0x3E#8, 0x18#8, BitVec.ofNat 8 id.toNat] := by
  rw [packFrameHdr_eq, packDesc_eq]

/-! ## E_HEADER (R161) -/

/-- Settles O37: `r` is the state in which the sink has answered. -/
theorem encoderHeaderArm : Obligations.EncoderHeaderArm := by
  intro HS cb p s hb hf hid fh
  have hfh : packFrameHdr s.cfgBsid = fh := packFrameHdr_bytes _
  refine ⟨_, (snkWrite p fh (setBlockSize s.cfgBsid s)).2, rfl, rfl, (blockSize_toNat _ hid).1, inSizeWithin_le _ _,
    inSizeWithin_keeps, ?_⟩
  rw [codecStep_busy p _ hb, hf]
  rcases armEHeader_cases p s with ⟨h, _⟩ | ⟨_, e⟩
  · omega
  · rw [hfh] at e
    exact e

/-! ## E_READ (R162) -/

/-- Settles O38: the bytes read are the first `n` of SRC, written at the start of RAWBUF. -/
theorem readBlockArm : Obligations.ReadBlockArm := by
  intro HS cb p s hb hf hblk n
  have htake : s.srcRest.take s.blkSize.toNat = s.srcRest.take n := List.take_eq_take_min
  have hdrop : s.srcRest.drop s.blkSize.toNat = s.srcRest.drop n := List.drop_eq_drop_iff.mpr (by simp [n])
  have hlen : (s.srcRest.take n).length = n := by rw [List.length_take]; omega
  rw [codecStep_busy p _ hb, hf]
  rcases armERead_cases s with ⟨h, _⟩ | ⟨_, e⟩
  · unfold rawBufSize MAX_BLKSIZE at h; omega
  · rw [htake, hdrop] at e
    refine ⟨_, e, rfl, ?_, fun a ha => Memory.read_write_outside _ (.inr ?_)⟩
    · simpa only [hlen] using Memory.slice_write s.rawBuf 0 (s.srcRest.take n)
    · omega

/-! ## E_COMPRESS (R163 to R166) -/

/-- Settles O39: the block fits RAWBUF, and a body within its bound fits CBUF. -/
theorem compressArm : Obligations.CompressArm := by
  intro HS cb p s hb hf h1 hblk q u
  have hin : u.inSize = s.inSize := rfl
  have hfits := maxCompressed_le_cBufSize p hblk
  have hturn : codecStep p (execWith p) s = takeCompressed p (p.entCompress q) u := by
    rw [codecStep_busy p _ hb, hf]
    rcases armECompress_cases p s with ⟨h, _⟩ | ⟨_, h, _⟩ | ⟨_, _, e⟩
    · simp [h] at h1
    · unfold rawBufSize MAX_BLKSIZE at h; omega
    · exact e
  rw [hturn]
  rcases takeCompressed_cases p (p.entCompress q) u with ⟨_, ha, e⟩ | ⟨ha, e⟩ | ⟨ha, e⟩ | ⟨body, ha, hbound, e⟩ |
    ⟨body, _, _, hbound, hover, _⟩ | ⟨body, ha, h22, hbound, _, e⟩
  · rw [ha] at e ⊢; exact ⟨_, e, rfl⟩
  · rw [ha] at e ⊢; exact ⟨_, e, rfl⟩
  · rw [ha] at e ⊢; exact ⟨_, e, rfl⟩
  · rw [ha] at e ⊢; exact ⟨_, e, fun _ => rfl, fun _ _ => by rw [hin] at hbound; omega⟩
  · rw [hin] at hbound; omega
  · rw [ha] at e ⊢
    exact ⟨_, e, fun h => by rw [hin] at hbound; omega,
      fun _ _ => ⟨rfl, Memory.slice_write _ _ _, fun a ha => Memory.read_write_outside _ ha⟩⟩

/-! ## E_EMIT (R167) -/

/-- The body of the record that E_EMIT writes, inside its buffer, and the site of a short write (R167). -/
def EmitsBody (p : Params HS cb) (s : State.Of HS cb) (body : Bytes) (site : ErrSite) : Prop :=
  s.typeTag = 1#2 ∧ s.inSize.toNat ≤ 2097152 ∧ body = Memory.slice s.rawBuf 0 s.inSize.toNat ∧ site = .eWrRaw
    ∨ s.typeTag = 2#2 ∧ body = [s.rleByte] ∧ site = .eWrRle
    ∨ s.typeTag = 0#2 ∧ 3 + s.cSize.toNat ≤ cBufSize p ∧ body = Memory.slice s.cBuf 3 s.cSize.toNat
      ∧ site = .eWrComp

variable {p}

theorem emitBody_raw (h : s.typeTag = 1#2) : emitBody p s = some (readRaw 0 s.inSize.toNat s) := if_pos h

theorem emitBody_rle (h : s.typeTag = 2#2) : emitBody p s = some (some [s.rleByte]) := by simp [emitBody, h]

theorem emitBody_comp (h : s.typeTag = 0#2) : emitBody p s = some (readC p 3 s.cSize.toNat s) := by
  simp [emitBody, h]

theorem EmitsBody.emitBody_eq {body : Bytes} {site : ErrSite} (h : EmitsBody p s body site) :
    emitBody p s = some (some body) := by
  rcases h with ⟨ht, hin, rfl, _⟩ | ⟨ht, rfl, _⟩ | ⟨ht, hc, rfl, _⟩
  · rw [emitBody_raw ht, readRaw_fits (by rw [Nat.zero_add]; exact hin)]
  · exact emitBody_rle ht
  · rw [emitBody_comp ht, readC_fits hc]

/-- The header in `CBUF[0..3]` does not touch the body, which stands behind it (R67). -/
theorem EmitsBody.writeHeader {body : Bytes} {site : ErrSite} (h : EmitsBody p s body site) (hdr : HdrBytes) :
    EmitsBody p { s with cBuf := Memory.write s.cBuf 0 hdr.toBytes } body site := by
  rcases h with h | h | ⟨ht, hc, rfl, hs⟩
  · exact .inl h
  · exact .inr (.inl h)
  · exact .inr (.inr ⟨ht, hc, Memory.slice_congr fun _ ha _ => (Memory.read_write_outside _ (.inr ha)).symm, hs⟩)

/-- The site is the one TYPE names (R252). -/
theorem EmitsBody.emitSite_eq {body : Bytes} {site : ErrSite} (h : EmitsBody p s body site) :
    emitSite s.typeTag = site := by
  rcases h with ⟨ht, _, _, rfl⟩ | ⟨ht, _, rfl⟩ | ⟨ht, _, _, rfl⟩ <;> rw [ht] <;> rfl

/-- Settles O40: `r` is the state in which the sink has answered the one request. -/
theorem emitRecordArm : Obligations.EmitRecordArm := by
  intro HS cb p s body site hb hf h rec3
  have h : EmitsBody p s body site := h
  refine ⟨_, (snkWrite p (rec3 ++ body) { s with cBuf := Memory.write s.cBuf 0 rec3 }).2, rfl, rfl,
    Memory.slice_write _ _ _, fun a ha => Memory.read_write_outside _ (.inr ha), ?_⟩
  rw [codecStep_busy p _ hb, hf, ← h.emitSite_eq]
  exact armEEmit_body (h.writeHeader _).emitBody_eq

/-! ## E_TRAILER (R168) -/

/-- Settles O41: CK_CALC is written before the request, and the sink's answer does not depend on it. -/
theorem trailerArm : Obligations.TrailerArm := by
  intro HS cb p s hb hf
  rw [codecStep_busy p _ hb, hf]
  exact armETrailer_eq p s

end Sys2Proof.Machine
end

section
/-! PROOFS. The reference encoder (R169): an induction over its blocks, the frames of R170, and that what it emits is a
valid frame (R100). -/

namespace Sys2Proof.Machine

variable {HS : Type} {cb : Nat} {p : Params HS cb}

/-! ## Its blocks -/

/-- A legal block holds a byte at least and 2 MiB at most (R96). -/
theorem blockBytes_bounds : ∀ id : BitVec 4, id.toNat ≤ 11 → 1 ≤ blockBytes id ∧ blockBytes id ≤ 2097152 := by decide

/-- What holds of no blocks, and of a block in front of blocks of which it holds, holds of whatever the encoder
gives. -/
theorem encodeBlocks_induction {size : Nat} {motive : Bytes → Bytes → Prop} (nil : motive [] [])
    (cons : ∀ input b rest, input ≠ [] → encodeBlock p (input.take size) = some b →
      motive (input.drop size) rest → motive input (b ++ rest)) (n : Nat) :
    ∀ input bs, encodeBlocks p size n input = some bs → motive input bs := by
  induction n with
  | zero =>
    intro input bs h
    rw [encodeBlocks] at h
    split at h
    next hi => cases h; rw [hi]; exact nil
    next => cases h
  | succ n ih =>
    intro input bs h
    rw [encodeBlocks] at h
    split at h
    next hi => cases h; rw [hi]; exact nil
    next hi =>
      split at h
      next b rest hb hrest => cases h; exact cons input b rest hi hb (ih _ _ hrest)
      next => cases h

theorem encodeBlocks_nil (size n : Nat) : encodeBlocks p size n [] = some [] := by cases n <;> rfl

/-- An input of at most one block. -/
theorem encodeBlocks_one {size : Nat} {input b : Bytes} (hi : input ≠ []) (hl : input.length ≤ size)
    (h : encodeBlock p input = some b) : encodeBlocks p size input.length input = some b := by
  obtain ⟨x, xs, rfl⟩ := List.exists_cons_of_ne_nil hi
  rw [List.length_cons, encodeBlocks, if_neg hi, List.take_of_length_le hl, List.drop_eq_nil_of_le hl, h,
    encodeBlocks_nil]
  exact congrArg some (List.append_nil b)

/-- The record of a block, by the primitive's answer (R169): raw, rle, or the primitive's own body within its bounds. -/
theorem encodeBlock_eq_some {q b : Bytes} : encodeBlock p q = some b ↔
    (p.entCompress q = .code0 ∧ q.length < 4194304 ∧
      b = (packHdr 1#2 (BitVec.ofNat 22 q.length)).toBytes ++ q) ∨
    (p.entCompress q = .code1 ∧ q.length < 4194304 ∧
      b = (packHdr 2#2 (BitVec.ofNat 22 q.length)).toBytes ++ [byteAt q 0]) ∨
    (∃ body, p.entCompress q = .size body ∧ body.length < 4194304 ∧ body.length ≤ p.maxCompressed q.length ∧
      b = (packHdr 0#2 (BitVec.ofNat 22 body.length)).toBytes ++ body) := by
  unfold encodeBlock
  cases p.entCompress q with
  | code0 => simp [record_eq_some, FIELD_LIMIT]
  | code1 => simp [record_eq_some, FIELD_LIMIT]
  | size body =>
    simp only [reduceCtorEq, false_and, false_or, CRes.size.injEq, exists_eq_left']
    split
    next hb => exact ⟨nofun, fun ⟨h22, hbound, _⟩ => absurd hb (by unfold FIELD_LIMIT; omega)⟩
    next hb =>
      rw [record_eq_some]
      exact ⟨fun ⟨h22, e⟩ => ⟨h22, by omega, e⟩, fun ⟨h22, _, e⟩ => ⟨h22, e⟩⟩
  | err e => simp

/-! ## Its frames -/

/-- A frame is the header, the blocks and the trailer (R91, R169), for an id up to 11. -/
theorem encodeFrame_eq_some {id : BitVec 4} {input fr : Bytes} :
    encodeFrame p id input = some fr ↔ ∃ bs, encodeBlocks p (blockBytes id) input.length input = some bs ∧
      id.toNat ≤ 11 ∧ fr = packFrameHdr id ++ bs ++ packTrailer (ck22 (p.hash.hash input)) := by
  unfold encodeFrame
  cases encodeBlocks p (blockBytes id) input.length input with
  | none => simp
  | some bs => simp [frameOf_eq_some, MAX_BSID]

/-- Settles O59: no bytes are no blocks. -/
theorem emptyInputFrame : Obligations.EmptyInputFrame := by
  intro HS cb p id
  refine ⟨_, ?_, rfl, rfl⟩
  rw [← packFrameHdr_bytes]
  exact congrArg (fun bs => if id.toNat ≤ 11 then some (bs ++ packTrailer (ck22 (p.hash.hash []))) else none)
    (List.append_nil (packFrameHdr id))

/-- Settles O60: the input is one block, and the primitive answers Code1 to it. -/
theorem singleSymbolFrame : Obligations.SingleSymbolFrame := by
  intro HS cb p id b n hp hid h2 hn
  have hlen : (List.replicate n b).length = n := List.length_replicate
  have hne : List.replicate n b ≠ [] := List.ne_nil_of_length_pos (by omega)
  have hfirst : byteAt (List.replicate n b) 0 = b := by simp [byteAt, show 0 < n by omega]
  have hcode : p.entCompress (List.replicate n b) = .code1 :=
    hp _ (fun c hc => (List.eq_of_mem_replicate hc).trans hfirst.symm) (by rwa [hlen])
  have hsize := (blockBytes_bounds id hid).2
  have hblock : encodeBlock p (List.replicate n b) = some ((packHdr 2#2 (BitVec.ofNat 22 n)).toBytes ++ [b]) :=
    encodeBlock_eq_some.mpr (.inr (.inl ⟨hcode, by unfold blockBytes at hsize; omega, by rw [hlen, hfirst]⟩))
  refine ⟨_, encodeFrame_eq_some.mpr ⟨_, encodeBlocks_one hne (hlen.trans_le hn) hblock, hid, rfl⟩, ?_, ?_⟩
  · simp [packFrameHdr_bytes, packTrailer]
  · rw [packFrameHdr_bytes, packTrailer]

/-! ## What it emits is valid -/

section
variable {size : Nat} {q b : Bytes}

/-- R164: a raw block is its own payload. -/
theorem validBlock_raw (h22 : q.length < 4194304) (hfield : q.length ≤ p.maxCompressed size) :
    ValidBlock p size ((packHdr 1#2 (BitVec.ofNat 22 q.length)).toBytes ++ q) q := by
  have hn : (BitVec.ofNat 22 q.length).toNat = q.length := by rw [BitVec.toNat_ofNat]; omega
  exact ⟨1#2, _, q, rfl, by decide, hn.symm, hn.trans_le hfield, rfl⟩

/-- R165: an rle block stands for its byte repeated. -/
theorem validBlock_rle (h22 : q.length < 4194304) (hfield : q.length ≤ size) (hq : ∀ b ∈ q, b = byteAt q 0) :
    ValidBlock p size ((packHdr 2#2 (BitVec.ofNat 22 q.length)).toBytes ++ [byteAt q 0]) q := by
  have hn : (BitVec.ofNat 22 q.length).toNat = q.length := by rw [BitVec.toNat_ofNat]; omega
  have hrep : rep (byteAt q 0) (BitVec.ofNat 22 q.length).toNat = q := by
    rw [hn]; exact (List.eq_replicate_iff.mpr ⟨rfl, hq⟩).symm
  exact ⟨2#2, _, [byteAt q 0], rfl, by decide, rfl, hn.trans_le hfield, congrArg some hrep⟩

/-- R166: a compressed block stands for what the primitive makes of its body. -/
theorem validBlock_comp {body : Bytes} (h22 : body.length < 4194304) (hfield : body.length ≤ p.maxCompressed size)
    (hq : q.length ≤ size) (hd : p.entDecompress size body = .len q) :
    ValidBlock p size ((packHdr 0#2 (BitVec.ofNat 22 body.length)).toBytes ++ body) q := by
  have hn : (BitVec.ofNat 22 body.length).toNat = body.length := by rw [BitVec.toNat_ofNat]; omega
  refine ⟨0#2, _, body, rfl, by decide, hn.symm, hn.trans_le hfield, ?_⟩
  simp [blockPayload, hd, hq]

/-- Every block the encoder gives is valid and stands for what was encoded. -/
theorem validBlock_encodeBlock (hrt : EntRoundtrip p) (hrle : EntRleSound p) (h1 : 1 ≤ q.length) (hq : q.length ≤ size)
    (hsize : size ≤ 2097152) (h : encodeBlock p q = some b) : ValidBlock p size b q := by
  have hmono := p.mc2 _ _ hq
  rcases encodeBlock_eq_some.mp h with ⟨_, h22, rfl⟩ | ⟨ha, h22, rfl⟩ | ⟨body, ha, h22, hbound, rfl⟩
  · exact validBlock_raw h22 ((p.mc1 _ h1 (hq.trans hsize)).trans hmono)
  · exact validBlock_rle h22 hq (hrle q ha)
  · exact validBlock_comp h22 (hbound.trans hmono) hq (hrt q body size ha hq)

end

/-- Settles O57: block by block; each takes a byte at least and a block size at most. -/
theorem encodedFrameIsValid : Obligations.EncodedFrameIsValid := by
  intro HS cb p id input fr hrt hrle hid h
  obtain ⟨h1, hsize⟩ := blockBytes_bounds id hid
  obtain ⟨bs, hbs, _, hfr⟩ := encodeFrame_eq_some.mp h
  refine ⟨hid, bs, ?_, hfr⟩
  refine encodeBlocks_induction (motive := fun input bs => ValidBlocks p (blockBytes id) bs input) .nil ?_ _ _ _ hbs
  intro input b rest hi hb hrest
  have hpos := List.length_pos_iff.mpr hi
  have hv : ValidBlock p (blockBytes id) b (input.take (blockBytes id)) :=
    validBlock_encodeBlock hrt hrle (by rw [List.length_take]; omega) (List.length_take_le _ _) hsize hb
  simpa only [List.take_append_drop] using ValidBlocks.cons b _ rest _ hv hrest

end Sys2Proof.Machine
end

section
/-! PROOFS. The run started by ENCODE (R169): what each arm of the encoder adds to the frame under a sink that never
fails, the three arms of a block as one, and the loop over the blocks. -/

namespace Sys2Proof.Machine

variable {HS : Type} {cb : Nat} {p : Params HS cb} {s t u : State.Of HS cb}

/-! ## Runs (R19) -/

/-- Some number of steps lead from `s` to `t`. -/
def Reaches (p : Params HS cb) (s t : State.Of HS cb) : Prop := ∃ k, runAt p k s = .next t

theorem Reaches.refl (p : Params HS cb) (s : State.Of HS cb) : Reaches p s s := ⟨0, rfl⟩

theorem Reaches.step (h : stepAt p s = .next t) (ht : Reaches p t u) : Reaches p s u := by
  obtain ⟨k, hk⟩ := ht
  exact ⟨k + 1, by rw [runAt, h]; exact hk⟩

theorem Reaches.trans (h : Reaches p s t) (ht : Reaches p t u) : Reaches p s u := by
  obtain ⟨k, hk⟩ := h
  induction k generalizing s with
  | zero => cases hk; exact ht
  | succ k ih =>
    rw [runAt] at hk
    split at hk
    next v hv => exact .step hv (ih hk)
    next => cases hk
    next => cases hk

/-- With no operation of the HOST pending a step is the CODEC's turn (R16). -/
theorem stepAt_codec (h : s.hostIn = []) : stepAt p s = codecStep p (execWith p) s := by
  unfold stepAt stepWith; rw [h]

theorem Reaches.turn (hq : s.hostIn = []) (h : codecStep p (execWith p) s = .next t) : Reaches p s t :=
  .step ((stepAt_codec hq).trans h) (.refl p t)

/-! ## What a part of a frame does to the streams -/

/-- From `s` to `t` the encoder read `inp`, absorbed the pieces `pcs` and wrote `out`, within one frame. -/
structure Encodes (p : Params HS cb) (s t : State.Of HS cb) (inp : Bytes) (pcs : List Bytes) (out : Bytes) : Prop where
  phase : t.phase = s.phase
  err : t.errClass = s.errClass
  host : t.hostIn = s.hostIn
  blk : t.blkSize = s.blkSize
  src : s.srcRest = inp ++ t.srcRest
  inCount : t.inCount = s.inCount + BitVec.ofNat cb inp.length
  snk : t.snkData = s.snkData ++ out
  outCount : t.outCount = s.outCount + BitVec.ofNat cb out.length
  hash : t.h = pcs.foldl p.hash.update s.h

theorem Encodes.refl (p : Params HS cb) (s : State.Of HS cb) : Encodes p s s [] [] [] where
  phase := rfl
  err := rfl
  host := rfl
  blk := rfl
  src := rfl
  inCount := (BitVec.add_zero _).symm
  snk := (List.append_nil _).symm
  outCount := (BitVec.add_zero _).symm
  hash := rfl

theorem Encodes.trans {i j o r : Bytes} {a b : List Bytes} (h : Encodes p s t i a o) (h' : Encodes p t u j b r) :
    Encodes p s u (i ++ j) (a ++ b) (o ++ r) where
  phase := h'.phase.trans h.phase
  err := h'.err.trans h.err
  host := h'.host.trans h.host
  blk := h'.blk.trans h.blk
  src := by rw [h.src, h'.src, List.append_assoc]
  inCount := by rw [h'.inCount, h.inCount, List.length_append, BitVec.ofNat_add, BitVec.add_assoc]
  snk := by rw [h'.snk, h.snk, List.append_assoc]
  outCount := by rw [h'.outCount, h.outCount, List.length_append, BitVec.ofNat_add, BitVec.add_assoc]
  hash := by rw [h'.hash, h.hash, List.foldl_append]

/-- A sink that never fails takes the whole request (R64). -/
theorem Encodes.snkWrite (hp : SnkTotal p) (bs : Bytes) (s : State.Of HS cb) :
    Encodes p s (snkWrite p bs s).2 [] [] bs :=
  { Encodes.refl p s with
    snk := by rw [snkWrite_snkData, snkAccepts_total hp, List.take_length]
    outCount := by rw [snkWrite_outCount, snkAccepts_total hp] }

/-! ## The arms of one block -/

theorem Memory.byteAt_slice_zero (m : Memory) (base : Nat) {n : Nat} (h : 1 ≤ n) :
    byteAt (Memory.slice m base n) 0 = Memory.read m base := by
  cases n with
  | zero => omega
  | succ n => rfl

/-- R162: E_READ takes the next block `q` into RAWBUF. -/
theorem eRead_encodes (hb : s.phase = .busy) (hf : s.fsm = .eRead) (hblk : s.blkSize.toNat ≤ 2097152) {q : Bytes}
    (hq : q = s.srcRest.take s.blkSize.toNat) : ∃ t, codecStep p (execWith p) s = .next t ∧ Encodes p s t q [] [] ∧
      t.inSize = BitVec.ofNat 22 q.length ∧ Memory.slice t.rawBuf 0 q.length = q ∧
      t.fsm = if q.length = 0 then .eTrailer else .eCompress := by
  obtain ⟨t, e, ht, hslice, _⟩ := readBlockArm HS cb p s hb hf hblk
  have hn : min s.blkSize.toNat s.srcRest.length = q.length := by rw [hq, List.length_take]
  have htake : s.srcRest.take q.length = q := by rw [← hn, hq, ← List.take_eq_take_min]
  rw [hn] at ht hslice
  generalize t.rawBuf = raw at ht hslice
  subst ht
  refine ⟨_, e, { Encodes.refl p s with src := ?_, inCount := rfl }, rfl, hslice.trans htake, rfl⟩
  conv_lhs => rw [← List.take_append_drop q.length s.srcRest, htake]

/-- R163 to R166: E_COMPRESS absorbs the block and makes its record ready. -/
theorem eCompress_encodes (hb : s.phase = .busy) (hf : s.fsm = .eCompress) {q b : Bytes}
    (hin : s.inSize = BitVec.ofNat 22 q.length) (hslice : Memory.slice s.rawBuf 0 q.length = q) (h1 : 1 ≤ q.length)
    (hl : q.length ≤ 2097152) (h : encodeBlock p q = some b) :
    ∃ t body site, codecStep p (execWith p) s = .next t ∧ Encodes p s t [] [q] [] ∧ t.fsm = .eEmit ∧
      EmitsBody p t body site ∧ b = (packHdr t.typeTag t.len).toBytes ++ body := by
  have hn : s.inSize.toNat = q.length := by rw [hin, BitVec.toNat_ofNat]; omega
  obtain ⟨t, e, ht⟩ := compressArm HS cb p s hb hf (by omega) (by omega)
  rw [hn, hslice] at ht
  rcases encodeBlock_eq_some.mp h with ⟨ha, _, rfl⟩ | ⟨ha, _, rfl⟩ | ⟨body, ha, h22, hbound, rfl⟩ <;> rw [ha] at ht
  · subst ht
    refine ⟨_, q, _, e, { Encodes.refl p s with hash := rfl }, rfl, .inl ⟨rfl, hn.trans_le hl, ?_, rfl⟩, by rw [← hin]⟩
    exact (hn ▸ hslice).symm
  · subst ht
    refine ⟨_, [byteAt q 0], _, e, { Encodes.refl p s with hash := rfl }, rfl, .inr (.inl ⟨rfl, ?_, rfl⟩),
      by rw [← hin]⟩
    rw [← hslice, Memory.byteAt_slice_zero _ _ h1]
  · obtain ⟨ht, hbody, _⟩ := ht.2 h22 hbound
    generalize t.cBuf = c at ht hbody
    subst ht
    have hbn : (BitVec.ofNat 22 body.length).toNat = body.length := by rw [BitVec.toNat_ofNat]; omega
    have hfits := maxCompressed_le_cBufSize p hl
    refine ⟨_, body, _, e, { Encodes.refl p s with hash := rfl }, rfl, .inr (.inr ⟨rfl, ?_, ?_, rfl⟩), rfl⟩
    · rw [hbn]; omega
    · rw [hbn]; exact hbody.symm

/-- R167: E_EMIT writes the record that is ready. -/
theorem eEmit_encodes (hp : SnkTotal p) (hb : s.phase = .busy) (hf : s.fsm = .eEmit) {body : Bytes} {site : ErrSite}
    (h : EmitsBody p s body site) : ∃ t, codecStep p (execWith p) s = .next t ∧
      Encodes p s t [] [] ((packHdr s.typeTag s.len).toBytes ++ body) ∧ t.fsm = .eRead := by
  have hall : ¬ snkAccepts p ((packHdr s.typeTag s.len).toBytes ++ body) s < 3 + body.length := by
    rw [snkAccepts_total hp, List.length_append, toBytes_length]; omega
  have e := armEEmit_body (h.writeHeader (packHdr s.typeTag s.len)).emitBody_eq
  rw [if_neg hall] at e
  have hw := Encodes.snkWrite hp ((packHdr s.typeTag s.len).toBytes ++ body)
    { s with cBuf := Memory.write s.cBuf 0 (packHdr s.typeTag s.len).toBytes }
  rw [codecStep_busy p _ hb, hf]
  exact ⟨_, e, { hw with }, rfl⟩

/-! ## The loop -/

/-- The three arms of a block write its record. -/
theorem block_encodes (hp : SnkTotal p) (hb : s.phase = .busy) (hf : s.fsm = .eRead) (hq : s.hostIn = [])
    (h1 : 1 ≤ s.blkSize.toNat) (hblk : s.blkSize.toNat ≤ 2097152) (hs : s.srcRest ≠ []) {b : Bytes}
    (h : encodeBlock p (s.srcRest.take s.blkSize.toNat) = some b) :
    ∃ t, Reaches p s t ∧ t.fsm = .eRead ∧
      Encodes p s t (s.srcRest.take s.blkSize.toNat) [s.srcRest.take s.blkSize.toNat] b := by
  generalize hq' : s.srcRest.take s.blkSize.toNat = q at h ⊢
  have hlen : q.length = min s.blkSize.toNat s.srcRest.length := by rw [← hq', List.length_take]
  have hpos := List.length_pos_iff.mpr hs
  obtain ⟨t, et, ht, hin, hslice, htf⟩ := eRead_encodes hb hf hblk hq'.symm
  rw [if_neg (by omega)] at htf
  obtain ⟨u, body, site, eu, hu, huf, hbody, rfl⟩ :=
    eCompress_encodes (ht.phase.trans hb) htf hin hslice (by omega) (by omega) h
  have htu := ht.trans hu
  obtain ⟨v, ev, hv, hvf⟩ := eEmit_encodes hp (htu.phase.trans hb) huf hbody
  have hrun : Reaches p s v :=
    (Reaches.turn hq et).trans ((Reaches.turn (ht.host.trans hq) eu).trans (.turn (htu.host.trans hq) ev))
  refine ⟨v, hrun, hvf, ?_⟩
  simpa using htu.trans hv

/-- From E_READ with `input` in SRC the encoder comes to E_TRAILER, and has read and absorbed it all and written
`bs`. -/
def WritesBlocks (p : Params HS cb) (size : Nat) (input bs : Bytes) : Prop :=
  ∀ s : State.Of HS cb, s.phase = .busy → s.fsm = .eRead → s.hostIn = [] → s.blkSize.toNat = size →
    s.srcRest = input → ∃ t pcs, Reaches p s t ∧ t.fsm = .eTrailer ∧ pcs.flatten = input ∧ Encodes p s t input pcs bs

theorem writesBlocks_nil {size : Nat} (hsize : size ≤ 2097152) : WritesBlocks p size [] [] := by
  intro s hb hf hq hblk hs
  obtain ⟨t, e, ht, _, _, htf⟩ := eRead_encodes (q := []) hb hf (by omega) (by rw [hs, List.take_nil])
  exact ⟨t, [], .turn hq e, htf, rfl, ht⟩

theorem writesBlocks_cons (hp : SnkTotal p) {size : Nat} (h1 : 1 ≤ size) (hsize : size ≤ 2097152) {input b rest : Bytes}
    (hi : input ≠ []) (hblock : encodeBlock p (input.take size) = some b)
    (ih : WritesBlocks p size (input.drop size) rest) : WritesBlocks p size input (b ++ rest) := by
  intro s hb hf hq hblk hs
  subst hs hblk
  obtain ⟨t, hst, htf, ht⟩ := block_encodes hp hb hf hq h1 hsize hi hblock
  have hrest : t.srcRest = s.srcRest.drop s.blkSize.toNat :=
    List.append_cancel_left (ht.src.symm.trans (List.take_append_drop _ _).symm)
  obtain ⟨u, pcs, htu, huf, hflat, hu⟩ :=
    ih t (ht.phase.trans hb) htf (ht.host.trans hq) (congrArg _ ht.blk) hrest
  refine ⟨u, s.srcRest.take s.blkSize.toNat :: pcs, hst.trans htu, huf, ?_, ?_⟩
  · rw [List.flatten_cons, hflat, List.take_append_drop]
  · simpa using ht.trans hu

/-- R169: the loop writes the blocks of the reference. -/
theorem writesBlocks_encodeBlocks (hp : SnkTotal p) {size : Nat} (h1 : 1 ≤ size) (hsize : size ≤ 2097152) {n : Nat}
    {input bs : Bytes} (h : encodeBlocks p size n input = some bs) : WritesBlocks p size input bs :=
  encodeBlocks_induction (writesBlocks_nil hsize) (fun _ _ _ => writesBlocks_cons hp h1 hsize) n input bs h

/-! ## The two ends of the frame -/

/-- R161: E_HEADER sets BLKSIZE and begins the checksum; beyond that it only writes the header. -/
theorem eHeader_encodes (hp : SnkTotal p) (hb : s.phase = .busy) (hf : s.fsm = .eHeader) (hid : s.cfgBsid.toNat ≤ 11) :
    ∃ t n, codecStep p (execWith p) s = .next t ∧ t.fsm = .eRead ∧ t.blkSize.toNat = blockBytes s.cfgBsid ∧
      Encodes p { s with blkSize := t.blkSize, h := p.hash.fresh n } t [] [] (packFrameHdr s.cfgBsid) := by
  have hall : ¬ snkAccepts p (packFrameHdr s.cfgBsid) s < 5 := by
    rw [snkAccepts_total hp, packFrameHdr_length]; omega
  have hw := Encodes.snkWrite hp (packFrameHdr s.cfgBsid) (setBlockSize s.cfgBsid s)
  rw [codecStep_busy p _ hb, hf]
  rcases armEHeader_cases p s with ⟨h, _⟩ | ⟨_, e⟩
  · omega
  · rw [if_neg hall] at e
    exact ⟨_, s.freeCtr + 1, e, rfl, (blockSize_toNat _ hid).1, { hw with hash := rfl }⟩

/-- R168: E_TRAILER writes the trailer and completes the frame. -/
theorem eTrailer_encodes (hp : SnkTotal p) (hb : s.phase = .busy) (hf : s.fsm = .eTrailer) :
    ∃ t, codecStep p (execWith p) s = .next (finish t) ∧ t.ckCalc = checksum p s ∧
      Encodes p s t [] [] (packTrailer (checksum p s)) := by
  have hall : ¬ snkAccepts p (packTrailer (checksum p s)) s < 3 := by
    rw [snkAccepts_total hp, packTrailer, toBytes_length]; omega
  have e := armETrailer_eq p s
  rw [if_neg hall] at e
  have hw := Encodes.snkWrite hp (packTrailer (checksum p s)) { s with ckCalc := checksum p s }
  rw [codecStep_busy p _ hb, hf]
  exact ⟨_, e, rfl, { hw with }⟩

/-- The write of ENCODE to CMD in IDLE starts the frame (R214). -/
theorem stepAt_encode {q : List HostOp} (h : s.hostIn = .csrWrite 1#32 1#32 :: q) (hi : s.phase = .idle) :
    stepAt p s = .next (startFrame p .enc .eHeader { s with hostIn := q }) := by
  rcases encodeCommand_cases p { s with hostIn := q } with ⟨_, e⟩ | ⟨hn, _⟩
  · exact (stepWith_writeCmd p _ h).trans e
  · exact absurd hi hn

/-- Settles O54: the command, the header, the blocks and the trailer, one behind the other. -/
theorem encodeRunMatchesReference : Obligations.EncodeRunMatchesReference := by
  intro HS cb p s fr hp hi hid hq h
  obtain ⟨bs, hbs, -, rfl⟩ := encodeFrame_eq_some.mp h
  obtain ⟨h1, hsize⟩ := blockBytes_bounds s.cfgBsid hid
  obtain ⟨t, n, et, htf, hblk, ht⟩ :=
    eHeader_encodes (s := startFrame p .enc .eHeader { s with hostIn := [] }) hp rfl rfl hid
  obtain ⟨u, pcs, htu, huf, hflat, hu⟩ :=
    writesBlocks_encodeBlocks hp h1 hsize hbs t ht.phase htf ht.host hblk ht.src.symm
  have htu' := ht.trans hu
  obtain ⟨v, ev, hvck, hv⟩ := eTrailer_encodes hp htu'.phase huf
  have hck : checksum p u = ck22 (p.hash.hash s.srcRest) := by
    rw [checksum, htu'.hash, ← hflat]
    exact congrArg ck22 (final_fresh p.hash n pcs)
  rw [hck] at hvck hv
  have hfr := htu'.trans hv
  obtain ⟨k, hk⟩ :=
    Reaches.step (stepAt_encode hq hi) ((Reaches.turn rfl et).trans (htu.trans (.turn htu'.host ev)))
  refine ⟨k, _, hk, rfl, hfr.snk, ?_, ?_, hfr.outCount.trans (BitVec.zero_add _), hvck, hfr.err⟩
  · simpa using hfr.src
  · simpa using hfr.inCount

end Sys2Proof.Machine
end

section
/-! PROOFS. The round trip of the reference codec (R193). -/

namespace Sys2Proof.Machine

/-- Settles O56: what the encoder emits is a valid frame that stands for the input, and a valid frame with nothing
behind it decodes to what it stands for. -/
theorem roundTrip : Obligations.RoundTrip := by
  intro HS cb p id input fr hrt hrle hid h
  have hvalid : ValidFrame p id fr input := encodedFrameIsValid HS cb p id input fr hrt hrle hid h
  simpa only [List.append_nil] using validFrameDecodes HS cb p id fr input [] hvalid

end Sys2Proof.Machine
end

section
/-! PROOFS. D_FRAMEHDR and the record FRAME (R181): the tests of the frame header as tests of its bytes, the error each
of them raises, and what an accepted header writes. -/

namespace Sys2Proof

/-! ## The frame header's bytes (R92, R123) -/

theorem byteAt_take {b : Bytes} {i n : Nat} (h : i < n) : byteAt (b.take n) i = byteAt b i := by
  simp [byteAt, List.getD_eq_getElem?_getD, h]

/-- The decoder looks at five bytes only, and hands back what is behind them. -/
theorem decodeFH_take_five (b : Bytes) : decodeFH (b.take 5) = (decodeFH b).map fun r => (r.1, []) := by
  have hlen : (b.take 5).length < 5 ↔ b.length < 5 := by rw [List.length_take]; omega
  have hmagic : checkMagic (b.take 5) = checkMagic b := by
    simp only [checkMagic, rdLE32, byteAt_take (show 0 + 3 < 5 by decide), byteAt_take (show 0 + 2 < 5 by decide),
      byteAt_take (show 0 + 1 < 5 by decide), byteAt_take (show 0 < 5 by decide)]
  have hdrop : (b.take 5).drop 5 = [] := by simp
  unfold decodeFH
  rw [hmagic, byteAt_take (by decide), hdrop]
  simp only [hlen]
  split
  · rfl
  split
  · rfl
  cases unpackDesc (byteAt b 4) <;> rfl

/-- The magic test as a test of the first four bytes of a header (R121). -/
theorem checkMagic_eq_false_iff {b : Bytes} (h : 5 ≤ b.length) :
    checkMagic b = false ↔ b.take 4 ≠ [0x08#8, 0x23#8, 0x3E#8, 0x18#8] := by
  obtain ⟨b0, b1, b2, b3, b4, rest, rfl⟩ := five_bytes h
  rw [← Bool.not_eq_true, checkMagic_iff]
  simp

/-- The tests of R181 on five bytes or more, as tests of the first four bytes and of the descriptor's value. -/
theorem decodeFH_eq_ite {b : Bytes} (h : 5 ≤ b.length) :
    decodeFH b =
      if b.take 4 ≠ [0x08#8, 0x23#8, 0x3E#8, 0x18#8] then .error .badMagic
      else if (byteAt b 4).toNat / 16 ≠ 0 then .error .badReserved
      else if 11 < (byteAt b 4).toNat % 16 then .error .badId
      else .ok (.frame (BitVec.ofNat 4 (byteAt b 4).toNat), b.drop 5) := by
  unfold decodeFH
  rw [if_neg (Nat.not_lt.mpr h), descriptorVerdicts]
  simp only [checkMagic_eq_false_iff h]
  split
  · rfl
  by_cases hr : (byteAt b 4).toNat / 16 ≠ 0
  · rw [if_pos hr, if_pos hr]
  rw [if_neg hr, if_neg hr]
  by_cases hid : 11 < (byteAt b 4).toNat % 16
  · rw [if_pos hid, if_pos hid]
  rw [if_neg hid, if_neg hid]

end Sys2Proof

namespace Sys2Proof.Machine

variable {HS : Type} {cb : Nat} (p : Params HS cb) {s : State.Of HS cb}

/-- The site of each rejection of a frame header (R181, R252). -/
def headerErrSite : DecodeErr → ErrSite
  | .short => .dRdFrameHdr
  | .badMagic => .dMagic
  | .badReserved => .dReserved
  | .badId => .dBsid

/-- D_FRAMEHDR on bytes that are no frame header: they are read all the same, and the class is the site's. -/
theorem armDFrameHdr_of_error (ex : Exec HS cb) {e : DecodeErr} (h : decodeFH s.srcRest = .error e) :
    armDFrameHdr ex s = .next (raise (siteClass (headerErrSite e)) (headerErrSite e) (srcRead 5 s).2) := by
  have hread : decodeFH (srcRead 5 s).1 = .error e := by rw [srcRead_fst, decodeFH_take_five, h]; rfl
  unfold armDFrameHdr
  rw [hread]
  cases e <;> rfl

/-- FRAME with a legal `blockSizeId` (R181). -/
theorem frameRecord_legal {id : BitVec 4} (h : id.toNat ≤ 11) :
    frameRecord p id s = .next { hInit p (setBlockSize id s) with fsm := .dAwaitHdr } := by
  rcases frameRecord_cases p id s with ⟨hc, _⟩ | ⟨_, e⟩
  · omega
  · exact e

/-- Settles O27: H_INIT leaves the registers of R142, whatever free value stands in `H.MEM`. -/
theorem frameRecordCompletes : Obligations.FrameRecord := by
  intro id s h
  rw [exec_eq_execWith_params]
  exact ⟨_, frameRecord_legal _ h, rfl, (blockSize_toNat _ h).1, inSizeWithin_le _ _, inSizeWithin_keeps,
    rfl, rfl, rfl, rfl, rfl, rfl⟩

/-- Settles O28: the five outcomes of the tests, in their order. -/
theorem frameHeaderArm : Obligations.FrameHeaderArm := by
  intro HS cb p s hb hf r d
  have hr : (srcRead 5 s).2 = r := by simp only [srcRead, List.length_take, r]
  have hturn := codecStep_dFrameHdr p (execWith p) hb hf
  have herr {e : DecodeErr} (he : decodeFH s.srcRest = .error e) :
      codecStep p (execWith p) s = .next (raise (siteClass (headerErrSite e)) (headerErrSite e) r) := by
    rw [hturn, armDFrameHdr_of_error _ he, hr]
  refine ⟨fun h => herr (e := .short) (if_pos h), fun h hm => herr (e := .badMagic) ?_,
    fun h hm hd => herr (e := .badReserved) ?_, fun h hm hd hid => herr (e := .badId) ?_, fun h hm hd => ?_⟩
  · rw [decodeFH_eq_ite h, if_pos hm]
  · rw [decodeFH_eq_ite h, if_neg (not_not.mpr hm), if_pos hd]
  · rw [decodeFH_eq_ite h, if_neg (not_not.mpr hm), if_neg (not_not.mpr hd), if_pos hid]
  · have hok : decodeFH s.srcRest = .ok (.frame (BitVec.ofNat 4 d), s.srcRest.drop 5) := by
      rw [decodeFH_eq_ite h, if_neg (not_not.mpr hm), if_neg (by omega), if_neg (by omega)]
    have hid : (BitVec.ofNat 4 d).toNat = d := by rw [BitVec.toNat_ofNat]; omega
    have hmin : r = { s with srcRest := s.srcRest.drop 5, inCount := s.inCount + 5#cb } := by
      simp only [r, Nat.min_eq_left h]
    have hblk := (blockSize_toNat (BitVec.ofNat 4 d) (by omega)).1
    rw [hid] at hblk
    rw [hturn, armDFrameHdr_of_decodeFH _ hok, ← hmin]
    exact ⟨_, frameRecord_legal p (by omega), rfl, hblk, inSizeWithin_le _ _, inSizeWithin_keeps⟩

end Sys2Proof.Machine
end

section
/-! PROOFS. The decoder's arms behind the frame header (R182 to R189): each arm's outcome under the condition that
decides it, and from these the statements about `exec` and `step`. -/

namespace Sys2Proof.Machine

variable {HS : Type} {cb : Nat} (p : Params HS cb) {s : State.Of HS cb}

/-! ## D_AWAITHDR (R182) -/

theorem armDAwaitHdr_short (h : s.srcRest.length < 3) : armDAwaitHdr s = .next (raise .ioError .dRdBlkHdr
    { s with srcRest := [], inCount := s.inCount + BitVec.ofNat cb s.srcRest.length }) := by
  rcases armDAwaitHdr_cases s with ⟨_, e⟩ | ⟨hl, _⟩
  · exact e
  · omega

theorem armDAwaitHdr_full (h : 3 ≤ s.srcRest.length) : armDAwaitHdr s = .next
    { s with
        srcRest := s.srcRest.drop 3, inCount := s.inCount + 3#cb
        hdr := hdrOfBytes (s.srcRest.take 3), fsm := .dDispatch } := by
  rcases armDAwaitHdr_cases s with ⟨hl, _⟩ | ⟨_, e⟩
  · omega
  · exact e

theorem codecStep_dAwaitHdr (ex : Exec HS cb) (hb : s.phase = .busy) (hf : s.fsm = .dAwaitHdr) :
    codecStep p ex s = armDAwaitHdr s := by
  rw [codecStep_busy p ex hb, hf]

/-- Settles O29: three bytes or more are written out as `b0`, `b1`, `b2` and the rest. -/
theorem awaitHeaderArm : Obligations.AwaitHeaderArm := by
  intro HS cb p s hb hf
  rw [codecStep_dAwaitHdr p _ hb hf]
  refine ⟨fun b0 b1 b2 rest hs => ?_, armDAwaitHdr_short⟩
  rw [armDAwaitHdr_full (by simp [hs]), hs]
  rfl

/-! ## D_DISPATCH (R183, R184) -/

section
variable (n : BitVec 22) (h : s.fsm = .dDispatch)
include h

theorem execWith_raw_dDispatch : execWith p (.raw n) s = .next
    (if p.maxCompressed s.blkSize.toNat < n.toNat then raise .formatError .dLenRaw { s with typeTag := 1#2, len := n }
     else { s with typeTag := 1#2, len := n, fsm := .dReadBody }) := by
  simp only [execWith, rawRecord, h]; rfl

theorem execWith_rle_dDispatch : execWith p (.rle n) s = .next
    (if s.blkSize.toNat < n.toNat then raise .formatError .dLenRle { s with typeTag := 2#2, len := n }
     else { s with typeTag := 2#2, len := n, fsm := .dSynth }) := by
  simp only [execWith, rleRecord, h]; rfl

theorem execWith_comp_dDispatch : execWith p (.comp n) s = .next
    (if p.maxCompressed s.blkSize.toNat < n.toNat then raise .formatError .dLenComp { s with typeTag := 0#2, len := n }
     else { s with typeTag := 0#2, len := n, fsm := .dEntropy }) := by
  simp only [execWith, compRecord, h]; rfl

theorem execWith_crc_dDispatch : execWith p (.crc n) s = .next
    { s with typeTag := 3#2, len := n, ckStored := n, fsm := .dVerify } := by
  simp only [execWith, crcRecord, h]; rfl

end

/-- Settles O31: the four records at `Config.params`. -/
theorem recordDispatch : Obligations.RecordDispatch := by
  intro n s h
  rw [exec_eq_execWith_params]
  exact ⟨execWith_raw_dDispatch _ n h, execWith_rle_dDispatch _ n h, execWith_comp_dDispatch _ n h,
    execWith_crc_dDispatch _ n h⟩

/-- Settles O30: the tag names the record, and the arm is that record at D_DISPATCH. -/
theorem dispatchByType : Obligations.DispatchByType := by
  intro HS cb p s hb hf tag f u
  have hturn : codecStep p (execWith p) s = execWith p (recordOf tag f) s := codecStep_dDispatch p _ hb hf
  rw [hturn]
  refine ⟨fun ht => ?_, fun ht => ?_, fun ht => ?_, fun ht => ?_⟩ <;> simp only [u, ht]
  · exact execWith_crc_dDispatch p f hf
  · exact execWith_raw_dDispatch p f hf
  · exact execWith_rle_dDispatch p f hf
  · exact execWith_comp_dDispatch p f hf

/-! ## D_READBODY (R185) -/

theorem readBody_short (h : s.srcRest.length < s.len.toNat) : readBody p s = .next (raise .ioError .dRdRaw
    { s with srcRest := [], inCount := s.inCount + BitVec.ofNat cb s.srcRest.length }) := by
  rcases readBody_cases p s with ⟨_, e⟩ | ⟨hl, _⟩ | ⟨hl, _⟩
  · exact e
  · omega
  · omega

theorem readBody_full (hl : s.len.toNat ≤ s.srcRest.length) (hc : s.len.toNat ≤ cBufSize p) : readBody p s = .next
    { s with
        srcRest := s.srcRest.drop s.len.toNat
        inCount := s.inCount + BitVec.ofNat cb s.len.toNat
        cBuf := Memory.write s.cBuf 0 (s.srcRest.take s.len.toNat)
        rSize := s.len, paySel := .c, fsm := .dEmit } := by
  rcases readBody_cases p s with ⟨h, _⟩ | ⟨_, h, _⟩ | ⟨_, _, e⟩
  · omega
  · omega
  · exact e

/-- A slice written at the start of a buffer reads back under its length, whatever that is called. -/
theorem Memory.slice_write_zero (m : Memory) {bs : Bytes} {n : Nat} (h : bs.length = n) :
    Memory.slice (Memory.write m 0 bs) 0 n = bs := h ▸ Memory.slice_write m 0 bs

/-- Behind a slice written at the start of a buffer nothing changes. -/
theorem Memory.read_write_behind (m : Memory) {bs : Bytes} {n : Nat} (h : bs.length = n) :
    ∀ a, n ≤ a → Memory.read (Memory.write m 0 bs) a = Memory.read m a :=
  fun _ ha => Memory.read_write_outside m (.inr (by omega))

/-- Settles O32: the body stands where it was written, and nothing behind it changed. -/
theorem rawReadsBody : Obligations.RawReadsBody := by
  intro n s hf
  rw [exec_eq_execWith_params, execWith_raw_dReadBody _ n hf]
  refine ⟨readBody_short _, fun hl hc => ⟨_, readBody_full _ hl hc, rfl, ?_⟩⟩
  have hlen := List.length_take_of_le hl
  exact ⟨Memory.slice_write_zero _ hlen, Memory.read_write_behind _ hlen⟩

/-! ## D_SYNTH (R186) -/

theorem synth_nil (h : s.srcRest = []) : synth s = .next (raise .ioError .dRdRle s) := by
  rcases synth_cases s with ⟨_, e⟩ | ⟨_, _, hs, _⟩ | ⟨_, _, hs, _⟩
  · exact e
  · cases h.symm.trans hs
  · cases h.symm.trans hs

theorem synth_cons {b : Byte} {rest : Bytes} (h : s.srcRest = b :: rest) (hr : s.len.toNat ≤ rawBufSize) :
    synth s = .next
      { s with
          srcRest := rest, inCount := s.inCount + 1#cb, rleByte := b
          rawBuf := Memory.write s.rawBuf 0 (rep b s.len.toNat)
          rSize := s.len, paySel := .r, fsm := .dEmit } := by
  rcases synth_cases s with ⟨hs, _⟩ | ⟨_, _, _, hc, _⟩ | ⟨_, _, hs, _, e⟩
  · cases h.symm.trans hs
  · omega
  · cases h.symm.trans hs
    exact e

/-- Settles O33: the run stands where it was written, and nothing behind it changed. -/
theorem rleSynthesizes : Obligations.RleSynthesizes := by
  intro n s hf
  rw [exec_eq_execWith_params, execWith_rle_dSynth _ n hf]
  refine ⟨synth_nil, fun b rest hs hr => ⟨_, synth_cons hs hr, rfl, ?_⟩⟩
  have hlen : (rep b s.len.toNat).length = s.len.toNat := List.length_replicate
  exact ⟨Memory.slice_write_zero _ hlen, Memory.read_write_behind _ hlen⟩

/-! ## D_ENTROPY (R187) -/

theorem entropy_short (h : s.srcRest.length < s.len.toNat) : entropy p s = .next (raise .ioError .dRdComp
    { s with srcRest := [], inCount := s.inCount + BitVec.ofNat cb s.srcRest.length }) := by
  rcases entropy_cases p s with ⟨_, e⟩ | ⟨hl, _⟩ | ⟨hl, _⟩
  · exact e
  · omega
  · omega

theorem entropy_full (hl : s.len.toNat ≤ s.srcRest.length) (hc : s.len.toNat ≤ cBufSize p) : entropy p s =
    takeDecoded (p.entDecompress s.blkSize.toNat (s.srcRest.take s.len.toNat))
      { s with
          srcRest := s.srcRest.drop s.len.toNat
          inCount := s.inCount + BitVec.ofNat cb s.len.toNat
          cBuf := Memory.write s.cBuf 0 (s.srcRest.take s.len.toNat) } := by
  rcases entropy_cases p s with ⟨h, _⟩ | ⟨_, h, _⟩ | ⟨_, _, e⟩
  · omega
  · omega
  · exact e

/-- An answer longer than the block size (R187). -/
theorem takeDecoded_long {q : Bytes} (h : s.blkSize.toNat < q.length) :
    takeDecoded (.len q) s = .next (raise .decoderError .dRSize s) := if_pos h

/-- An answer of at most the block size, for a block size of the table of R96. -/
theorem takeDecoded_fits {q : Bytes} (h : q.length ≤ s.blkSize.toNat) (hblk : s.blkSize.toNat ≤ rawBufSize) :
    takeDecoded (.len q) s = .next
      { s with
          rawBuf := Memory.write s.rawBuf 0 q, rSize := BitVec.ofNat 22 q.length, paySel := .r, fsm := .dEmit } := by
  rcases takeDecoded_cases (.len q) s with ⟨_, ha, _⟩ | ⟨_, ha, hl, _⟩ | ⟨_, ha, _, hc, _⟩ | ⟨_, ha, _, _, e⟩ <;>
    cases ha
  · omega
  · omega
  · exact e

/-- Settles O34: the body stands in CBUF, then each answer of the primitive. -/
theorem compDecompresses : Obligations.CompDecompresses := by
  intro n s hf
  rw [exec_eq_execWith_params, execWith_comp_dEntropy _ n hf]
  refine ⟨entropy_short _, fun hl hc hblk => ?_⟩
  have hlen := List.length_take_of_le hl
  rw [entropy_full _ hl hc]
  have hslice := Memory.slice_write_zero s.cBuf hlen
  have hkept := Memory.read_write_behind s.cBuf hlen
  cases Config.params.entDecompress s.blkSize.toNat (s.srcRest.take s.len.toNat) with
  | err e => exact ⟨_, _, hslice, hkept, rfl, rfl⟩
  | len q =>
    rcases Nat.lt_or_ge s.blkSize.toNat q.length with h | h
    · exact ⟨_, _, hslice, hkept, takeDecoded_long h, fun _ => rfl, fun hq => absurd h (Nat.not_lt.mpr hq)⟩
    · exact ⟨_, _, hslice, hkept, takeDecoded_fits h hblk, fun hq => absurd hq (Nat.not_lt.mpr h),
        fun _ => ⟨rfl, Memory.slice_write_zero _ rfl, Memory.read_write_behind _ rfl⟩⟩

/-! ## D_EMIT (R188) -/

/-- The payload is the first RSIZE bytes of the buffer PAYSEL selects (R67). -/
theorem payload_eq_some {pay : Bytes}
    (hc : s.paySel = .c → pay = Memory.slice s.cBuf 0 s.rSize.toNat ∧ s.rSize.toNat ≤ cBufSize p)
    (hr : s.paySel = .r → pay = Memory.slice s.rawBuf 0 s.rSize.toNat ∧ s.rSize.toNat ≤ rawBufSize) :
    payload p s = some pay := by
  rcases payload_cases p s with ⟨h, hover, _⟩ | ⟨h, hover, _⟩ | ⟨h, _, e⟩ | ⟨h, _, e⟩
  · exact absurd hover (Nat.not_lt.mpr (hc h).2)
  · exact absurd hover (Nat.not_lt.mpr (hr h).2)
  · rw [e, (hc h).1]
  · rw [e, (hr h).1]

/-- Settles O35: `r` is the state in which the sink has answered. -/
theorem payloadEmitted : Obligations.PayloadEmitted := by
  intro n s pay hf hc hr k
  have hpay := payload_eq_some Config.params hc hr
  refine ⟨(snkWrite Config.params pay s).2, rfl, ?_⟩
  rw [exec_eq_execWith_params, execWith_raw_dEmit _ n hf, execWith_rle_dEmit _ n hf, execWith_comp_dEmit _ n hf]
  exact ⟨emitPayload_some hpay _, emitPayload_some hpay _, emitPayload_some hpay _⟩

/-! ## D_VERIFY (R189) -/

theorem verify_ne (h : checksum p s ≠ s.ckStored) :
    verify p s = raise .checksumError .dChecksum { s with ckCalc := checksum p s } := if_pos h

theorem verify_eq (h : checksum p s = s.ckStored) : verify p s = finish { s with ckCalc := checksum p s } :=
  if_neg (not_not.mpr h)

/-- Settles O36: the checksum of `Config.params` is that of XXH32. -/
theorem crcVerifies : Obligations.CrcVerifies := by
  intro ck s hf c
  rw [exec_eq_execWith_params, execWith_crc_dVerify _ ck hf]
  exact ⟨fun h => congrArg _ (verify_ne Config.params h), fun h => congrArg _ (verify_eq Config.params h)⟩

/-! ## The step at the arms after D_DISPATCH -/

/-- Settles O44: the CODEC's turn hands each arm its record; at D_EMIT the record is the one TYPE names. -/
theorem stepContinuesRecord : Obligations.StepContinuesRecord := by
  intro s hq hb u
  have hturn := (stepWith_codec Config.params exec hq).trans (codecStep_busy _ _ (s := u) hb)
  have hrec (hf : s.fsm = .dEmit) : step s = exec (recordOf s.typeTag s.len) u := hturn.trans (by simp only [u, hf])
  refine ⟨fun hf => hturn.trans (by simp only [u, hf]), fun hf => hturn.trans (by simp only [u, hf]),
    fun hf => hturn.trans (by simp only [u, hf]), fun hf ht => ?_, fun hf ht => ?_, fun hf ht => ?_, fun hf ht => ?_,
    fun hf => hturn.trans (by simp only [u, hf])⟩ <;> rw [hrec hf, ht] <;> rfl

end Sys2Proof.Machine
end

section
/-! PROOFS. The run started by DECODE (R191): what each arm of the decoder does under a sink that never fails, beside
what the reference does with the same bytes. `Encodes` speaks of the ports and the accumulator only, so it says here
what a part of a frame read, absorbed and wrote. -/

namespace Sys2Proof.Machine

variable {HS : Type} {cb : Nat} {p : Params HS cb} {s t u b : State.Of HS cb}

/-! ## What a turn of the decoder does -/

/-- The turn ends the frame with an error of class `cls` and writes nothing (R262). -/
def Raises (p : Params HS cb) (s : State.Of HS cb) (cls : ErrClass) : Prop :=
  ∃ t, codecStep p (execWith p) s = .next t ∧ t.phase = .error ∧ t.errClass = cls ∧ t.snkData = s.snkData

/-- The turn reads `body` and leaves the payload `q` for D_EMIT (R185 to R187). -/
def Loads (p : Params HS cb) (s : State.Of HS cb) (body q : Bytes) : Prop :=
  ∃ t, codecStep p (execWith p) s = .next t ∧ Encodes p s t body [] [] ∧ t.fsm = .dEmit ∧ t.typeTag ≠ 3#2 ∧
    payload p t = some q ∧ t.rSize.toNat = q.length

/-- The turn does with the body of the block in TYPE and LEN what the reference does (R187, R191). -/
structure TakesBody (p : Params HS cb) (s : State.Of HS cb) : Prop where
  short : s.srcRest.length < bodyLength s.typeTag s.len → Raises p s .ioError
  bad : bodyLength s.typeTag s.len ≤ s.srcRest.length →
    blockPayload p s.blkSize.toNat s.typeTag s.len (s.srcRest.take (bodyLength s.typeTag s.len)) = none →
    Raises p s .decoderError
  good : bodyLength s.typeTag s.len ≤ s.srcRest.length →
    ∀ q, blockPayload p s.blkSize.toNat s.typeTag s.len (s.srcRest.take (bodyLength s.typeTag s.len)) = some q →
    Loads p s (s.srcRest.take (bodyLength s.typeTag s.len)) q

/-- R61: what a full read takes from the source. -/
theorem Encodes.read {n : Nat} (h : n ≤ s.srcRest.length) : Encodes p s
    { s with srcRest := s.srcRest.drop n, inCount := s.inCount + BitVec.ofNat cb n } (s.srcRest.take n) [] [] :=
  { Encodes.refl p s with
    src := (List.take_append_drop n s.srcRest).symm
    inCount := by rw [List.length_take_of_le h] }

theorem Encodes.srcRest_eq {i o : Bytes} {pcs : List Bytes} (h : Encodes p s t i pcs o) :
    t.srcRest = s.srcRest.drop i.length := by rw [h.src, List.drop_left]

/-! ## The body arms (R185 to R187) -/

/-- R185: the body of a raw block is its payload. -/
theorem dReadBody_takesBody (hb : s.phase = .busy) (hf : s.fsm = .dReadBody) (ht : s.typeTag = 1#2)
    (hlen : s.len.toNat ≤ p.maxCompressed s.blkSize.toNat) (hblk : s.blkSize.toNat ≤ 2097152) : TakesBody p s := by
  have hturn : codecStep p (execWith p) s = readBody p s := by
    rw [codecStep_busy p _ hb, hf]; exact execWith_raw_dReadBody p _ hf
  have hc : s.len.toNat ≤ cBufSize p := by have := maxCompressed_le_cBufSize p hblk; omega
  have hl : bodyLength s.typeTag s.len = s.len.toNat := by rw [ht]; rfl
  have hpay (body : Bytes) : blockPayload p s.blkSize.toNat s.typeTag s.len body = some body := by rw [ht]; rfl
  constructor <;> rw [hl]
  · exact fun h => ⟨_, hturn.trans (readBody_short p h), rfl, rfl, rfl⟩
  · exact fun _ hq => by rw [hpay] at hq; cases hq
  · intro h q hq
    rw [hpay] at hq
    cases hq
    have htake := List.length_take_of_le h
    refine ⟨_, hturn.trans (readBody_full p h hc), { Encodes.read h with }, rfl, by simp [ht], ?_, htake.symm⟩
    exact payload_eq_some p (fun _ => ⟨(Memory.slice_write_zero _ htake).symm, hc⟩) nofun

/-- R186: an rle block stands for LEN copies of its one byte. -/
theorem dSynth_takesBody (hb : s.phase = .busy) (hf : s.fsm = .dSynth) (ht : s.typeTag = 2#2)
    (hlen : s.len.toNat ≤ s.blkSize.toNat) (hblk : s.blkSize.toNat ≤ 2097152) : TakesBody p s := by
  have hturn : codecStep p (execWith p) s = synth s := by
    rw [codecStep_busy p _ hb, hf]; exact execWith_rle_dSynth p _ hf
  have hr : s.len.toNat ≤ rawBufSize := hlen.trans hblk
  have hl : bodyLength s.typeTag s.len = 1 := by rw [ht]; rfl
  have hpay (body : Bytes) :
      blockPayload p s.blkSize.toNat s.typeTag s.len body = some (rep (byteAt body 0) s.len.toNat) := by rw [ht]; rfl
  constructor <;> rw [hl]
  · exact fun h => ⟨_, hturn.trans (synth_nil (List.eq_nil_of_length_eq_zero (by omega))), rfl, rfl, rfl⟩
  · exact fun _ hq => by rw [hpay] at hq; cases hq
  · intro h q hq
    obtain ⟨x, rest, hs⟩ := List.exists_cons_of_length_pos h
    rw [hpay, hs] at hq
    cases hq
    have hrep : (rep x s.len.toNat).length = s.len.toNat := List.length_replicate
    have hread := Encodes.read (p := p) h
    rw [hs] at hread ⊢
    refine ⟨_, hturn.trans (synth_cons hs hr), { hread with }, rfl, by simp [ht], ?_, hrep.symm⟩
    exact payload_eq_some p nofun fun _ => ⟨(Memory.slice_write_zero _ hrep).symm, hr⟩

/-- R187: a compressed block stands for the primitive's answer, if that is at most a block. -/
theorem dEntropy_takesBody (hb : s.phase = .busy) (hf : s.fsm = .dEntropy) (ht : s.typeTag = 0#2)
    (hlen : s.len.toNat ≤ p.maxCompressed s.blkSize.toNat) (hblk : s.blkSize.toNat ≤ 2097152) : TakesBody p s := by
  have hturn : codecStep p (execWith p) s = entropy p s := by
    rw [codecStep_busy p _ hb, hf]; exact execWith_comp_dEntropy p _ hf
  have hc : s.len.toNat ≤ cBufSize p := by have := maxCompressed_le_cBufSize p hblk; omega
  have hl : bodyLength s.typeTag s.len = s.len.toNat := by rw [ht]; rfl
  have hpay (body : Bytes) : blockPayload p s.blkSize.toNat s.typeTag s.len body =
      blockPayload p s.blkSize.toNat 0#2 s.len body := by rw [ht]
  constructor <;> rw [hl]
  · exact fun h => ⟨_, hturn.trans (entropy_short p h), rfl, rfl, rfl⟩
  · intro h hq
    have e := hturn.trans (entropy_full p h hc)
    rw [hpay] at hq
    cases ha : p.entDecompress s.blkSize.toNat (s.srcRest.take s.len.toNat) with
    | err x => rw [ha] at e; exact ⟨_, e, rfl, rfl, rfl⟩
    | len q =>
      have hlong : s.blkSize.toNat < q.length := by simpa [blockPayload, ha] using hq
      rw [ha] at e
      exact ⟨_, e.trans (takeDecoded_long hlong), rfl, rfl, rfl⟩
  · intro h q hq
    have e := hturn.trans (entropy_full p h hc)
    rw [hpay] at hq
    cases ha : p.entDecompress s.blkSize.toNat (s.srcRest.take s.len.toNat) with
    | err x => simp [blockPayload, ha] at hq
    | len q' =>
      obtain ⟨hfits, rfl⟩ : q'.length ≤ s.blkSize.toNat ∧ q' = q := by simpa [blockPayload, ha] using hq
      rw [ha] at e
      have hn : (BitVec.ofNat 22 q'.length).toNat = q'.length := by rw [BitVec.toNat_ofNat]; omega
      refine ⟨_, e.trans (takeDecoded_fits hfits hblk), { Encodes.read h with }, rfl, by simp [ht], ?_, hn⟩
      exact payload_eq_some p nofun fun _ => ⟨(Memory.slice_write_zero _ hn.symm).symm, hn.trans_le (hfits.trans hblk)⟩

/-- The arm a data block's type leads to (R183). -/
def bodyArm (tag : BitVec 2) : Fsm :=
  if tag = 1#2 then .dReadBody else if tag = 2#2 then .dSynth else .dEntropy

/-- The data blocks (R97). -/
theorem dataTag_cases : ∀ tag : BitVec 2, tag ≠ 3#2 → tag = 0#2 ∨ tag = 1#2 ∨ tag = 2#2 := by decide

theorem bodyArm_takesBody (hb : s.phase = .busy) (h3 : s.typeTag ≠ 3#2) (hf : s.fsm = bodyArm s.typeTag)
    (hlen : s.len.toNat ≤ fieldBound p s.blkSize.toNat s.typeTag) (hblk : s.blkSize.toNat ≤ 2097152) :
    TakesBody p s := by
  rcases dataTag_cases _ h3 with ht | ht | ht <;> rw [ht] at hf hlen
  · exact dEntropy_takesBody hb hf ht hlen hblk
  · exact dReadBody_takesBody hb hf ht hlen hblk
  · exact dSynth_takesBody hb hf ht hlen hblk

/-! ## The arms around the bodies -/

/-- R182: three bytes or more are a header, and it is read into HDR. -/
theorem dAwaitHdr_encodes (hb : s.phase = .busy) (hf : s.fsm = .dAwaitHdr) (h : 3 ≤ s.srcRest.length) :
    ∃ t, codecStep p (execWith p) s = .next t ∧ Encodes p s t (s.srcRest.take 3) [] [] ∧ t.fsm = .dDispatch ∧
      t.hdr = hdrOfBytes s.srcRest := by
  refine ⟨_, (codecStep_dAwaitHdr p _ hb hf).trans (armDAwaitHdr_full h), { Encodes.read h with }, rfl, ?_⟩
  simp only [hdrOfBytes, byteAt_take (show 0 < 3 by decide), byteAt_take (show 1 < 3 by decide),
    byteAt_take (show 2 < 3 by decide)]

theorem dAwaitHdr_raises (hb : s.phase = .busy) (hf : s.fsm = .dAwaitHdr) (h : s.srcRest.length < 3) :
    Raises p s .ioError :=
  ⟨_, (codecStep_dAwaitHdr p _ hb hf).trans (armDAwaitHdr_short h), rfl, rfl, rfl⟩

/-- The turn does with the header of a data block what R183 says: a length test, then the body arm. -/
structure Dispatches (p : Params HS cb) (s : State.Of HS cb) (bound : Nat) (tag : BitVec 2) (field : BitVec 22)
    (arm : Fsm) : Prop where
  tooLong : bound < field.toNat → Raises p s .formatError
  within : field.toNat ≤ bound → ∃ t, codecStep p (execWith p) s = .next t ∧ Encodes p s t [] [] [] ∧
    t.typeTag = tag ∧ t.len = field ∧ t.fsm = arm

theorem dispatches_of_ite {bound : Nat} {tag : BitVec 2} {field : BitVec 22} {site : ErrSite} {arm : Fsm}
    (e : codecStep p (execWith p) s = .next (if bound < field.toNat
      then raise .formatError site { s with typeTag := tag, len := field }
      else { s with typeTag := tag, len := field, fsm := arm })) : Dispatches p s bound tag field arm where
  tooLong h := by rw [if_pos h] at e; exact ⟨_, e, rfl, rfl, rfl⟩
  within h := by
    rw [if_neg (Nat.not_lt.mpr h)] at e
    exact ⟨_, e, { Encodes.refl p s with }, rfl, rfl, rfl⟩

theorem dDispatch_dispatches (hb : s.phase = .busy) (hf : s.fsm = .dDispatch) {tag : BitVec 2} {field : BitVec 22}
    (hhdr : unpackHdr s.hdr = (tag, field)) (h3 : tag ≠ 3#2) :
    Dispatches p s (fieldBound p s.blkSize.toNat tag) tag field (bodyArm tag) := by
  obtain ⟨-, h1, h2, h0⟩ := dispatchByType HS cb p s hb hf
  rw [hhdr] at h0 h1 h2
  rcases dataTag_cases tag h3 with rfl | rfl | rfl
  · exact dispatches_of_ite (h0 rfl)
  · exact dispatches_of_ite (h1 rfl)
  · exact dispatches_of_ite (h2 rfl)

/-- R188: D_EMIT writes and absorbs the payload that is ready. -/
theorem dEmit_encodes (hp : SnkTotal p) (hb : s.phase = .busy) (hf : s.fsm = .dEmit) (h3 : s.typeTag ≠ 3#2) {q : Bytes}
    (hpay : payload p s = some q) (hlen : s.rSize.toNat = q.length) :
    ∃ t, codecStep p (execWith p) s = .next t ∧ Encodes p s t [] [q] q ∧ t.fsm = .dAwaitHdr := by
  have hall : ¬ snkAccepts p q s < s.rSize.toNat := by rw [snkAccepts_total hp, hlen]; exact Nat.lt_irrefl _
  rcases execWith_recordOf_dEmit p hf with ⟨ht, _⟩ | ⟨site, _, e⟩
  · exact absurd ht h3
  · have ht := e.trans (emitPayload_some hpay site)
    rw [if_neg hall] at ht
    rw [codecStep_busy p _ hb, hf]
    exact ⟨_, ht, { Encodes.snkWrite hp q s with hash := rfl }, rfl⟩

/-! ## The end of the run -/

/-- `t` is how a run ends for which the reference gives `r`, where `b` is the state in which the frame began
(R191). -/
def Ended (b t : State.Of HS cb) : DecodeResult → Prop
  | .ok out used => t.phase = .done ∧ t.snkData = b.snkData ++ out ∧
      t.outCount = b.outCount + BitVec.ofNat cb out.length ∧ t.inCount = b.inCount + BitVec.ofNat cb used ∧
      t.srcRest = b.srcRest.drop used ∧ t.ckCalc = t.ckStored
  | .fail cls out => t.phase = .error ∧ t.errClass = cls ∧ t.snkData = b.snkData ++ out

/-- The run from `s` ends as `r` says of the frame that began in `b`. -/
def EndsAs (p : Params HS cb) (b s : State.Of HS cb) (r : DecodeResult) : Prop := ∃ t, Reaches p s t ∧ Ended b t r

theorem EndsAs.of_reaches {r : DecodeResult} (h : EndsAs p b t r) (hst : Reaches p s t) : EndsAs p b s r :=
  let ⟨u, htu, hu⟩ := h
  ⟨u, hst.trans htu, hu⟩

theorem Raises.endsAs {cls : ErrClass} {inp out : Bytes} {pcs : List Bytes} (h : Raises p s cls) (hq : b.hostIn = [])
    (hs : Encodes p b s inp pcs out) : EndsAs p b s (.fail cls out) :=
  let ⟨t, e, hph, hc, hd⟩ := h
  ⟨t, .turn (hs.host.trans hq) e, hph, hc, hd.trans hs.snk⟩

/-! ## The loop of R191 -/

/-- What a round of the reference makes of a data block's body: `f` is what follows the header, of which and of all
before it `pos` bytes were consumed. -/
def decodeBody (p : Params HS cb) (size n : Nat) (tag : BitVec 2) (field : BitVec 22) (f : Bytes) (pos : Nat)
    (out : Bytes) : DecodeResult :=
  if f.length < bodyLength tag field then .fail .ioError out
  else
    match blockPayload p size tag field (f.take (bodyLength tag field)) with
    | none => .fail .decoderError out
    | some q => decodeBlocks p size n (f.drop (bodyLength tag field)) (pos + bodyLength tag field) (out ++ q)

/-- What a round of the reference does behind a header of type and field `h`. -/
def decodeRound (p : Params HS cb) (size n : Nat) (h : BitVec 2 × BitVec 22) (f : Bytes) (pos : Nat) (out : Bytes) :
    DecodeResult :=
  if h.1 = 3#2 then if ck22 (p.hash.hash out) = h.2 then .ok out pos else .fail .checksumError out
  else if fieldBound p size h.1 < h.2.toNat then .fail .formatError out
  else decodeBody p size n h.1 h.2 f pos out

/-- A round is a header of three bytes, and what `decodeRound` does behind it. -/
theorem decodeBlocks_succ (p : Params HS cb) (size n : Nat) (f : Bytes) (pos : Nat) (out : Bytes) :
    decodeBlocks p size (n + 1) f pos out =
      if f.length < 3 then .fail .ioError out
      else decodeRound p size n (unpackHdr (hdrOfBytes f)) (f.drop 3) (pos + 3) out := rfl

/-- `b` is a state in which the blocks of a frame begin: a legal block size, and a checksum begun by H_INIT (R181). -/
structure BlocksBegin (p : Params HS cb) (b : State.Of HS cb) : Prop where
  phase : b.phase = .busy
  host : b.hostIn = []
  blk : b.blkSize.toNat ≤ 2097152
  hash : ∃ k, b.h = p.hash.fresh k

/-- From D_AWAITHDR, with `inp` read and the payloads `pcs` written and absorbed since `b`, the run ends as `n` rounds
of the reference say. -/
def DecodesBlocks (p : Params HS cb) (b : State.Of HS cb) (n : Nat) : Prop :=
  ∀ (s : State.Of HS cb) (inp : Bytes) (pcs : List Bytes), Encodes p b s inp pcs pcs.flatten → s.fsm = .dAwaitHdr →
    s.srcRest.length < n → EndsAs p b s (decodeBlocks p b.blkSize.toNat n s.srcRest inp.length pcs.flatten)

/-- R184, R189: the trailer ends the run, by the checksum of the payload so far. -/
theorem dDispatch_crc_endsAs (hbegin : BlocksBegin p b) {inp : Bytes} {pcs : List Bytes}
    (hs : Encodes p b s inp pcs pcs.flatten) (hf : s.fsm = .dDispatch) {field : BitVec 22}
    (hhdr : unpackHdr s.hdr = (3#2, field)) :
    EndsAs p b s (if ck22 (p.hash.hash pcs.flatten) = field then .ok pcs.flatten inp.length
      else .fail .checksumError pcs.flatten) := by
  obtain ⟨hb, hq, -, k, hk⟩ := hbegin
  have hdisp := (dispatchByType HS cb p s (hs.phase.trans hb) hf).1 (by rw [hhdr])
  rw [hhdr] at hdisp
  refine .of_reaches ?_ (.turn (hs.host.trans hq) hdisp)
  generalize hu : ({ s with typeTag := 3#2, len := field, ckStored := field, fsm := .dVerify } : State.Of HS cb) = u
  have hbu : Encodes p b u inp pcs pcs.flatten := by subst hu; exact { hs with }
  have hck : checksum p u = ck22 (p.hash.hash pcs.flatten) := by rw [checksum, hbu.hash, hk, final_fresh]
  have hstored : u.ckStored = field := by rw [← hu]
  have hverify : codecStep p (execWith p) u = .next (verify p u) := by
    rw [codecStep_busy p _ (hbu.phase.trans hb), ← hu]
    exact execWith_crc_dVerify p _ rfl
  rw [← hck, ← hstored]
  split
  next heq =>
    refine ⟨_, .turn (hbu.host.trans hq) hverify, ?_⟩
    rw [verify_eq p heq]
    exact ⟨rfl, hbu.snk, hbu.outCount, hbu.inCount, hbu.srcRest_eq, heq⟩
  next hne => exact Raises.endsAs ⟨_, hverify.trans (congrArg _ (verify_ne p hne)), rfl, rfl, rfl⟩ hq hbu

/-- R185 to R188: a data block with its whole body there, whose payload the reference gives, and the rounds behind
it. -/
theorem dataBlock_endsAs (hp : SnkTotal p) (hbegin : BlocksBegin p b) {n : Nat} (ih : DecodesBlocks p b n) {inp : Bytes}
    {pcs : List Bytes} (hs : Encodes p b s inp pcs pcs.flatten) (hn : s.srcRest.length < n) (ht : TakesBody p s)
    {q : Bytes} (hlen : bodyLength s.typeTag s.len ≤ s.srcRest.length)
    (hpay : blockPayload p s.blkSize.toNat s.typeTag s.len (s.srcRest.take (bodyLength s.typeTag s.len)) = some q) :
    EndsAs p b s (decodeBlocks p b.blkSize.toNat n (s.srcRest.drop (bodyLength s.typeTag s.len))
      (inp.length + bodyLength s.typeTag s.len) (pcs.flatten ++ q)) := by
  obtain ⟨t, et, hst, htf, h3, hload, hsize⟩ := ht.good hlen q hpay
  have hbt := hs.trans hst
  obtain ⟨u, eu, htu, huf⟩ := dEmit_encodes hp (hbt.phase.trans hbegin.phase) htf h3 hload hsize
  have hsu := hst.trans htu
  have hbu := hbt.trans htu
  have htake := List.length_take_of_le hlen
  have husrc : u.srcRest = s.srcRest.drop (bodyLength s.typeTag s.len) := by simpa [htake] using hsu.srcRest_eq
  have hrest := ih u (inp ++ s.srcRest.take (bodyLength s.typeTag s.len)) (pcs ++ [q]) (by simpa using hbu) huf
    (by rw [husrc, List.length_drop]; omega)
  rw [husrc, List.length_append, htake, List.flatten_append, List.flatten_singleton] at hrest
  exact hrest.of_reaches ((Reaches.turn (hs.host.trans hbegin.host) et).trans (.turn (hbt.host.trans hbegin.host) eu))

/-- R185 to R188: from its body arm a data block, and the rounds behind it, end as the reference says. -/
theorem bodyArm_endsAs (hp : SnkTotal p) (hbegin : BlocksBegin p b) {n : Nat} (ih : DecodesBlocks p b n) {inp : Bytes}
    {pcs : List Bytes} (hs : Encodes p b s inp pcs pcs.flatten) (hn : s.srcRest.length < n) (ht : TakesBody p s) :
    EndsAs p b s (decodeBody p b.blkSize.toNat n s.typeTag s.len s.srcRest inp.length pcs.flatten) := by
  unfold decodeBody
  by_cases hshort : s.srcRest.length < bodyLength s.typeTag s.len
  · rw [if_pos hshort]
    exact (ht.short hshort).endsAs hbegin.host hs
  rw [if_neg hshort, ← hs.blk]
  cases hpay : blockPayload p s.blkSize.toNat s.typeTag s.len (s.srcRest.take (bodyLength s.typeTag s.len)) with
  | none => exact (ht.bad (Nat.le_of_not_lt hshort) hpay).endsAs hbegin.host hs
  | some q =>
    have hq := dataBlock_endsAs hp hbegin ih hs hn ht (Nat.le_of_not_lt hshort) hpay
    rwa [← hs.blk] at hq

/-- R183 to R189: from D_DISPATCH the block in HDR, and the rounds behind it, end as the reference says. -/
theorem dDispatch_endsAs (hp : SnkTotal p) (hbegin : BlocksBegin p b) {n : Nat} (ih : DecodesBlocks p b n) {inp : Bytes}
    {pcs : List Bytes} (hs : Encodes p b s inp pcs pcs.flatten) (hf : s.fsm = .dDispatch) (hn : s.srcRest.length < n) :
    EndsAs p b s (decodeRound p b.blkSize.toNat n (unpackHdr s.hdr) s.srcRest inp.length pcs.flatten) := by
  generalize hhdr : unpackHdr s.hdr = h
  obtain ⟨tag, field⟩ := h
  unfold decodeRound
  dsimp only
  by_cases htag : tag = 3#2
  · subst htag
    exact dDispatch_crc_endsAs hbegin hs hf hhdr
  have hdisp := dDispatch_dispatches (p := p) (hs.phase.trans hbegin.phase) hf hhdr htag
  rw [hs.blk] at hdisp
  rw [if_neg htag]
  by_cases hfield : fieldBound p b.blkSize.toNat tag < field.toNat
  · rw [if_pos hfield]
    exact (hdisp.tooLong hfield).endsAs hbegin.host hs
  rw [if_neg hfield]
  obtain ⟨t, et, hst, rfl, rfl, htf⟩ := hdisp.within (Nat.le_of_not_lt hfield)
  have ht : Encodes p b t inp pcs pcs.flatten := by simpa using hs.trans hst
  have hsrc : s.srcRest = t.srcRest := hst.src
  rw [hsrc] at hn ⊢
  have hbody : TakesBody p t := bodyArm_takesBody (ht.phase.trans hbegin.phase) htag htf
    (by rw [ht.blk]; exact Nat.le_of_not_lt hfield) (by rw [ht.blk]; exact hbegin.blk)
  exact (bodyArm_endsAs hp hbegin ih ht hn hbody).of_reaches (.turn (hs.host.trans hbegin.host) et)

/-- R191: the decoder's loop ends as the reference's. Each round takes a header's three bytes, so the rounds do not run
out. -/
theorem decodesBlocks (hp : SnkTotal p) (hbegin : BlocksBegin p b) (n : Nat) : DecodesBlocks p b n := by
  induction n with
  | zero => intro s _ _ _ _ hn; omega
  | succ n ih =>
    intro s inp pcs hs hf hn
    have hb := hs.phase.trans hbegin.phase
    rw [decodeBlocks_succ]
    by_cases h3 : s.srcRest.length < 3
    · rw [if_pos h3]
      exact (dAwaitHdr_raises hb hf h3).endsAs hbegin.host hs
    rw [if_neg h3]
    obtain ⟨t, et, hst, htf, hhdr⟩ := dAwaitHdr_encodes (p := p) hb hf (Nat.le_of_not_lt h3)
    have ht : Encodes p b t (inp ++ s.srcRest.take 3) pcs pcs.flatten := by simpa using hs.trans hst
    have htake : (s.srcRest.take 3).length = 3 := List.length_take_of_le (Nat.le_of_not_lt h3)
    have hsrc : t.srcRest = s.srcRest.drop 3 := by rw [hst.srcRest_eq, htake]
    have hrest := dDispatch_endsAs hp hbegin ih ht htf (by rw [hsrc, List.length_drop]; omega)
    rw [hsrc, hhdr, List.length_append, htake] at hrest
    exact hrest.of_reaches (.turn (hs.host.trans hbegin.host) et)

/-! ## The whole run -/

/-- R181: an accepted header sets BLKSIZE and begins the checksum; beyond that it is only read. -/
theorem dFrameHdr_encodes (hb : s.phase = .busy) (hf : s.fsm = .dFrameHdr) {id : BitVec 4} {r : Bytes}
    (hid : id.toNat ≤ 11) (h : s.srcRest = packFrameHdr id ++ r) :
    ∃ t n, codecStep p (execWith p) s = .next t ∧ t.fsm = .dAwaitHdr ∧ t.blkSize = blockSize id ∧
      Encodes p { s with blkSize := t.blkSize, h := p.hash.fresh n } t (packFrameHdr id) [] [] := by
  have hok : decodeFH s.srcRest = .ok (.frame id, r) := (decodeFH_ok _ _ _).mpr ⟨id, hid, rfl, h⟩
  have e := (codecStep_dFrameHdr p (execWith p) hb hf).trans (armDFrameHdr_of_decodeFH (execWith p) hok)
  refine ⟨_, s.freeCtr + 1, e.trans (frameRecord_legal p hid), rfl, rfl, ?_⟩
  exact { Encodes.refl p s with blk := rfl, src := h, inCount := rfl, hash := rfl }

/-- What is no frame header is an error with nothing decoded (R181, R191). -/
theorem decodeFrame_of_error {f : Bytes} {e : DecodeErr} (h : decodeFH f = .error e) :
    decodeFrame p f = .fail (siteClass (headerErrSite e)) [] := by
  unfold decodeFrame
  rw [h]
  cases e <;> rfl

theorem dFrameHdr_raises (hb : s.phase = .busy) (hf : s.fsm = .dFrameHdr) {e : DecodeErr}
    (h : decodeFH s.srcRest = .error e) : Raises p s (siteClass (headerErrSite e)) :=
  ⟨_, (codecStep_dFrameHdr p _ hb hf).trans (armDFrameHdr_of_error _ h), rfl, rfl, rfl⟩

/-- R191: from D_FRAMEHDR the run ends as the reference says of the bytes of the source. -/
theorem decodeFrame_endsAs (hp : SnkTotal p) (hb : s.phase = .busy) (hf : s.fsm = .dFrameHdr) (hq : s.hostIn = []) :
    EndsAs p s s (decodeFrame p s.srcRest) := by
  cases hhdr : decodeFH s.srcRest with
  | error e =>
    rw [decodeFrame_of_error hhdr]
    exact (dFrameHdr_raises hb hf hhdr).endsAs hq (.refl p s)
  | ok ir =>
    obtain ⟨i, r⟩ := ir
    obtain ⟨id, hid, rfl, hsrc⟩ := (decodeFH_ok _ _ _).mp hhdr
    obtain ⟨t, n, e, htf, hblk, ht⟩ := dFrameHdr_encodes (p := p) hb hf hid hsrc
    obtain ⟨hsize, hle⟩ := blockSize_toNat id hid
    have hrest : t.srcRest = r := List.append_cancel_left (ht.src.symm.trans hsrc)
    have hbegin : BlocksBegin p { s with blkSize := t.blkSize, h := p.hash.fresh n } :=
      ⟨hb, hq, by rw [hblk]; exact hle, n, rfl⟩
    have hrun := decodesBlocks hp hbegin _ t _ [] ht htf (Nat.lt_succ_self _)
    unfold decodeFrame
    rw [hhdr]
    rw [hblk, hsize, hrest] at hrun
    exact .of_reaches hrun (.turn hq e)

/-- The write of DECODE to CMD in IDLE starts the frame (R215). -/
theorem stepAt_decode {q : List HostOp} (h : s.hostIn = .csrWrite 1#32 2#32 :: q) (hi : s.phase = .idle) :
    stepAt p s = .next (startFrame p .dec .dFrameHdr { s with hostIn := q }) := by
  rcases decodeCommand_cases p { s with hostIn := q } with ⟨_, e⟩ | ⟨hn, _⟩
  · exact (stepWith_writeCmd p _ h).trans e
  · exact absurd hi hn

/-- Settles O55: the command, then the run from D_FRAMEHDR with both counters 0. -/
theorem decodeRunMatchesReference : Obligations.DecodeRunMatchesReference := by
  intro HS cb p s hp hi hq
  obtain ⟨t, hrun, ht⟩ :=
    decodeFrame_endsAs (s := startFrame p .dec .dFrameHdr { s with hostIn := [] }) hp rfl rfl rfl
  obtain ⟨k, hk⟩ := Reaches.step (stepAt_decode hq hi) hrun
  rw [startFrame_srcRest] at ht
  refine ⟨k, t, hk, ?_⟩
  cases hd : decodeFrame p s.srcRest with
  | ok out used =>
    rw [hd] at ht
    obtain ⟨hph, hsnk, hout, hin, hsrc, hck⟩ := ht
    exact ⟨hph, hsnk, hout.trans (BitVec.zero_add _), hin.trans (BitVec.zero_add _), hsrc, hck⟩
  | fail cls out =>
    rw [hd] at ht
    exact ht

end Sys2Proof.Machine
end

section
/-! PROOFS. The host port and the host commands: the register map (R28, R210), the register writes (R211, R212), the
level outputs (R219) and the commands NOP, ENCODE, DECODE and CLEAR (R213 to R217). -/

namespace Sys2Proof.Machine

variable {HS : Type} {cb : Nat} (p : Params HS cb) (ex : Exec HS cb) {s : State.Of HS cb}

/-! ## The registers as numbers (R23, R24, R28) -/

/-- Concatenation puts the first operand above the second. -/
theorem append_toNat {m w : Nat} (a : BitVec m) (b : BitVec w) :
    (a ++ b).toNat = a.toNat * 2 ^ w + b.toNat := by
  rw [BitVec.toNat_append, ← Nat.shiftLeft_add_eq_or_of_lt b.isLt, Nat.shiftLeft_eq]

theorem zero_append_toNat {k w : Nat} (x : BitVec w) : (0#k ++ x).toNat = x.toNat := by
  rw [append_toNat, BitVec.toNat_zero, Nat.zero_mul, Nat.zero_add]

theorem statusWord_toNat (s : State.Of HS cb) :
    (statusWord s).toNat = (phaseCode s.phase).toNat + 4 * (modeCode s.mode).toNat := by
  simp only [statusWord, append_toNat, BitVec.toNat_zero]
  omega

theorem errWord_toNat (s : State.Of HS cb) :
    (errWord s).toNat = (classCode s.errClass).toNat + 256 * (siteCode s.errSite).toNat := by
  simp only [errWord, append_toNat, BitVec.toNat_zero]
  omega

/-- The low bits of a register, as a number. -/
theorem lowBits_toNat {w : Nat} (c : BitVec w) (k : Nat) : (c.extractLsb' 0 k).toNat = c.toNat % 2 ^ k := by
  rw [BitVec.extractLsb'_toNat, Nat.shiftRight_zero]

/-- The high half of a 64-bit counter (R25, R26). -/
theorem highHalf_toNat (c : BitVec 64) : (c.extractLsb' 32 32).toNat = c.toNat / 4294967296 := by
  have hc := c.isLt
  rw [BitVec.extractLsb'_toNat, Nat.shiftRight_eq_div_pow]
  omega

theorem csrValue_above {n : Word32} (h : 10 < n.toNat) (s : State.Of HS cb) : csrValue n s = 0#32 := by
  unfold csrValue
  split
  case h_12 => rfl
  all_goals omega

/-! ## Reading and writing a register (R210, R211, R212) -/

theorem stepWith_csrRead {n : Word32} {q : List HostOp} (h : s.hostIn = .csrRead n :: q) :
    stepWith p ex s = .next (csrRead n { s with hostIn := q }) := by
  rw [stepWith, h]

theorem stepWith_csrWrite {n v : Word32} {q : List HostOp} (h : s.hostIn = .csrWrite n v :: q) :
    stepWith p ex s = csrWrite ex n v { s with hostIn := q } := by
  rw [stepWith, h]

/-- Settles O19: the value is `csrValue`, row by row of the map of R28. -/
theorem registerReadMap : Obligations.RegisterReadMap := by
  intro s n q h
  refine ⟨csrValue n s, stepWith_csrRead _ _ h, ?_, ?_, ?_, ?_, ?_, ?_, ?_, ?_, ?_, ?_, ?_,
    fun hn => congrArg _ (csrValue_above hn s)⟩ <;> intro hn <;> rw [csrValue, hn]
  · exact zero_append_toNat _
  · rfl
  · exact statusWord_toNat s
  · exact errWord_toNat s
  · exact lowBits_toNat _ 32
  · exact highHalf_toNat _
  · exact lowBits_toNat _ 32
  · exact highHalf_toNat _
  · exact zero_append_toNat _
  · exact zero_append_toNat _
  · exact zero_append_toNat _

/-- Bits 3..0 of a value, as its truncation. -/
theorem lowNibble_eq_ofNat (v : Word32) : v.extractLsb' 0 4 = BitVec.ofNat 4 v.toNat := by
  rw [← BitVec.toNat_inj, lowBits_toNat, BitVec.toNat_ofNat]

/-- Settles O20: the two cases of `writeCfg_cases`, with the value's low bits as a number. -/
theorem configWrite : Obligations.ConfigWrite := by
  intro s v q h
  have hs : step s = .next (writeCfg v { s with hostIn := q }) := stepWith_csrWrite _ _ h
  have hc := writeCfg_cases v { s with hostIn := q }
  rw [lowBits_toNat, lowNibble_eq_ofNat] at hc
  rcases hc with ⟨hb, hv, e⟩ | ⟨hd, e⟩ <;> rw [hs, e]
  · exact ⟨fun _ _ => rfl, fun hd => absurd hd (not_or.mpr ⟨hb, Nat.not_lt.mpr hv⟩)⟩
  · exact ⟨fun hb hv => absurd hd (not_or.mpr ⟨hb, Nat.not_lt.mpr hv⟩), fun _ => rfl⟩

/-- R211: no register number from 2 on can be written. -/
theorem csrWrite_ignored {n : Word32} (h : 2 ≤ n.toNat) (v : Word32) (s : State.Of HS cb) :
    csrWrite ex n v s = .next s := by
  have h0 : n ≠ 0#32 := by rintro rfl; simp at h
  have h1 : n ≠ 1#32 := by rintro rfl; simp at h
  rw [csrWrite, if_neg h0, if_neg h1]

/-- Settles O21: the number is neither that of CFG nor that of CMD. -/
theorem otherWritesIgnored : Obligations.OtherWritesIgnored := fun _ _ v _ h hn =>
  (stepWith_csrWrite _ _ h).trans (csrWrite_ignored _ hn v _)

/-! ## The commands (R213 to R217) -/

/-- Settles O23: NOP is the identity on states. -/
theorem nopChangesNothing : Obligations.NopChangesNothing := fun _ => rfl

/-- Settles O24: in IDLE the frame starts at E_HEADER, with the free buffers of log entry 4. -/
theorem encodeCommandCompletes : Obligations.EncodeCommand := by
  intro s
  rcases encodeCommand_cases Config.params s with ⟨hi, e⟩ | ⟨hi, e⟩
  · exact ⟨fun _ => ⟨_, _, e⟩, fun hn => absurd hi hn⟩
  · exact ⟨fun h => absurd h hi, fun _ => e⟩

/-- Settles O25: in IDLE the frame starts at D_FRAMEHDR, with the free buffers of log entry 4. -/
theorem decodeCommandCompletes : Obligations.DecodeCommand := by
  intro s
  rcases decodeCommand_cases Config.params s with ⟨hi, e⟩ | ⟨hi, e⟩
  · exact ⟨fun _ => ⟨_, _, e⟩, fun hn => absurd hi hn⟩
  · exact ⟨fun h => absurd h hi, fun _ => e⟩

/-- Settles O26: CLEAR acts in DONE and ERROR, and the other two phases are neither. -/
theorem clearCommandCompletes : Obligations.ClearCommand := by
  intro s
  rcases clearCommand_cases s with ⟨hd, e⟩ | ⟨hd, e⟩
  · refine ⟨fun _ => e, fun hn => ?_⟩
    rcases hd with hd | hd <;> simp [hd] at hn
  · exact ⟨fun h => absurd h hd, fun _ => e⟩

/-! ## The level outputs (R219) -/

theorem doneOut_iff (s : State.Of HS cb) : doneOut s = true ↔ s.phase = .done := decide_eq_true_iff

theorem errorOut_iff (s : State.Of HS cb) : errorOut s = true ↔ s.phase = .error := decide_eq_true_iff

/-- Settles O22: an output is high only where CLEAR is accepted, and CLEAR leaves the phase IDLE. -/
theorem levelOutputs : Obligations.LevelOutputs := by
  intro s
  refine ⟨doneOut_iff s, errorOut_iff s, fun h => ?_⟩
  rw [doneOut_iff, errorOut_iff] at h
  exact ⟨_, (clearCommandCompletes s).1 h, rfl, rfl⟩

end Sys2Proof.Machine
end

section
/-! PROOFS. Exceptions: what `raise` writes (R262), and that PHASE, CLASS and SITE of an error stay until the HOST's
CLEAR or RESET (R263, R264). -/

namespace Sys2Proof.Machine

variable {HS : Type} {cb : Nat} (p : Params HS cb) {s t : State.Of HS cb}

/-- Settles O16: the four registers by definition, then the two words as numbers in the state after. -/
theorem raiseWritesFourRegisters : Obligations.RaiseWritesFourRegisters := by
  intro HS cb cls site s
  refine ⟨rfl, ?_, ?_⟩
  · rw [errWord_toNat, raise_errClass, raise_errSite, Nat.add_comm]
  · rw [statusWord_toNat, raise_phase, raise_mode]
    rfl

/-! ## An error stays (R263) -/

/-- PHASE, CLASS and SITE are the same in both states. -/
def SameError (s t : State.Of HS cb) : Prop :=
  t.phase = s.phase ∧ t.errClass = s.errClass ∧ t.errSite = s.errSite

theorem SameError.refl (s : State.Of HS cb) : SameError s s := ⟨rfl, rfl, rfl⟩

/-- R103: a value whose two low bits are not 3 encodes another command than CLEAR. -/
theorem decodeCmd_ne_clear {v : Word32} (h : v.toNat % 4 ≠ 3) : decodeCmd v ≠ .clear := by
  rw [commandHighBitsIgnored v]
  split
  · nofun
  split
  · nofun
  split
  · nofun
  · omega

/-- R217: in ERROR every command but CLEAR is ignored. -/
theorem command_ignored_of_error (hs : s.phase = .error) {v : Word32} (hv : v.toNat % 4 ≠ 3) :
    execWith p (decodeCmd v) s = .next s := by
  have hidle : s.phase ≠ .idle := by rw [hs]; nofun
  rcases decodeCmd_cases v with e | e | e | e
  · rw [e]; rfl
  · rw [e]; exact ((encodeCommand_cases p s).resolve_left fun h => hidle h.1).2
  · rw [e]; exact ((decodeCommand_cases p s).resolve_left fun h => hidle h.1).2
  · exact absurd e (decodeCmd_ne_clear hv)

/-- R212: no write of CFG touches PHASE or ERR. -/
theorem writeCfg_sameError (v : Word32) (s : State.Of HS cb) : SameError s (writeCfg v s) := by
  rcases writeCfg_cases v s with ⟨_, _, e⟩ | ⟨_, e⟩ <;> rw [e]
  · exact ⟨rfl, rfl, rfl⟩
  · exact .refl s

/-- In ERROR a write of a register keeps the error, unless it writes CLEAR to CMD (R211, R212, R217). -/
theorem csrWrite_sameError (hs : s.phase = .error) {n v : Word32} (hv : n = 1#32 → v.toNat % 4 ≠ 3)
    (h : csrWrite (execWith p) n v s = .next t) : SameError s t := by
  unfold csrWrite at h
  split at h
  · cases h; exact writeCfg_sameError v s
  split at h
  case isTrue hn => cases (command_ignored_of_error p hs (hv hn)).symm.trans h; exact .refl s
  case isFalse => cases h; exact .refl s

/-- Outside BUSY a connect replaces the streams only (R66). -/
theorem connect_sameError {src snk : Bytes} (hb : s.phase ≠ .busy) (h : connect src snk s = .next t) :
    SameError s t := by
  unfold connect at h
  rw [if_neg hb] at h
  cases h
  exact ⟨rfl, rfl, rfl⟩

/-- From ERROR, each operation of the HOST but CLEAR and RESET, and the CODEC's turn, which does nothing there. -/
theorem stepAt_sameError (hs : s.phase = .error)
    (hclear : ∀ v q, s.hostIn = .csrWrite 1#32 v :: q → v.toNat % 4 ≠ 3) (hreset : ∀ q, s.hostIn ≠ .reset :: q)
    (h : stepAt p s = .next t) : SameError s t := by
  have hb : s.phase ≠ .busy := by rw [hs]; nofun
  unfold stepAt stepWith at h
  split at h
  case h_1 => cases codecStep_idle_eq p hb h; exact .refl s
  case h_2 q _ => cases codecStep_idle_eq (s := { s with hostIn := q }) p hb h; exact ⟨rfl, rfl, rfl⟩
  case h_3 => cases h; exact ⟨rfl, rfl, rfl⟩
  case h_4 n v q hin =>
    exact csrWrite_sameError (s := { s with hostIn := q }) p hs (fun hn => hclear v q (hn ▸ hin)) h
  case h_5 q hin => exact absurd hin (hreset q)
  case h_6 src snk q _ => exact connect_sameError (s := { s with hostIn := q }) hb h

/-- Settles O51: the step keeps PHASE, CLASS and SITE, and PHASE was ERROR. -/
theorem errorIsSticky : Obligations.ErrorIsSticky := by
  intro s t hs h hclear hreset
  rw [step_eq_stepAt_params] at h
  obtain ⟨hphase, hclass, hsite⟩ := stepAt_sameError Config.params hs hclear hreset h
  exact ⟨hphase.trans hs, hclass, hsite⟩

end Sys2Proof.Machine
end

section
/-! PROOFS. The event RESET (R290): the step takes it off the HOST's queue and writes the values R50 gives. -/

namespace Sys2Proof.Machine

variable {HS : Type} {cb : Nat} (p : Params HS cb) (ex : Exec HS cb) {s : State.Of HS cb}

theorem stepWith_reset {q : List HostOp} (h : s.hostIn = .reset :: q) :
    stepWith p ex s = .next (resetEvent p { s with hostIn := q }) := by
  rw [stepWith, h]

/-- Settles O18: `resetEvent` takes SRC, SNK and the queue from the state before (the first three facts), and each
register of R50 from `State.Of.reset`. -/
theorem resetEventRestores : Obligations.ResetEventRestores := by
  intro s q h
  refine ⟨resetEvent Config.params { s with hostIn := q }, stepWith_reset _ _ h, rfl, rfl, rfl, ?_⟩
  exact ⟨rfl, rfl, rfl, rfl, rfl, rfl, rfl, rfl, rfl, rfl, rfl⟩

end Sys2Proof.Machine
end
